-- ==== Sys2Proof/Word.lean ====
section
/-!
DEFINITION. The two word sizes of the block: a cell or serial byte (DATA_W = 8) and an address (ADDR_W = 16),
00_scope.md rule R8.
-/
namespace Sys2Proof

/-- A byte value: a cell, a serial byte, the eight data lines (00_scope.md R8, R16). -/
abbrev Byte := BitVec 8

/-- A 16-bit address, shift chain or length operand (00_scope.md R8, R16). -/
abbrev Word := BitVec 16

end Sys2Proof
end

