-- ==== Sys2Proof/Config.lean ====
section
/-!
DEFINITION. What is fixed for one machine: the constants of 00_scope.md rule R8, the open parameters of rule R9 as
constants without a body (nothing can be proved of their values beyond the constraints the spec puts on them), and the
free values ("draws") of 93_implementation_defined.md.
-/
namespace Sys2Proof.Machine

/-- A move of the world outside the control thread, one for each step (00_scope.md R15; log 12, log 24). -/
inductive EnvMove where
  /-- `us` microseconds pass, the host's bytes `arrive` land in RX, up to `leave` pending bytes of TX leave; then the thread
  acts, and while it does the bytes of `meanwhile` land: the k-th entry while the k-th byte of a chunk is written (R36, R302); at
  a RESYNC the first entry between its `RxPop` and its `RxDrain`, the others after the drain (R187, D27). -/
  | pass (us : Nat) (arrive : List Byte) (leave : Nat) (meanwhile : List (List Byte))
  /-- The reset event (R290), before the thread goes on. -/
  | reset
  /-- `us` microseconds pass, `arrive` lands, the thread's next operation starts, and the reset event (R290) falls after the
  first `events` line writes and waits of the writes that it makes. -/
  | resetWithin (us : Nat) (arrive : List Byte) (events : Nat)
deriving DecidableEq, Repr

end Sys2Proof.Machine

namespace Sys2Proof.Config

/-! ## Fixed parameters (R8) -/

/-- CHIP_SIZE: byte cells of the target chip. -/
abbrev chipSize : Nat := 8192
/-- CHUNK_SIZE: bytes of a bulk chunk. -/
abbrev chunkSize : Nat := 16
/-- TIMEOUT_MS: chunk-wait window in milliseconds. -/
abbrev timeoutMs : Nat := 60000
/-- T_WC_MS: settle delay after a write pulse, milliseconds. -/
abbrev settleMs : Nat := 10
/-- T_WP_US: low time of the write-enable line, microseconds, a lower bound. -/
abbrev pulseUs : Nat := 1
/-- T_IB_US: extra delay per byte of a chunk, microseconds. -/
abbrev interByteUs : Nat := 100
/-- BAUD: serial bit rate. The model works on whole bytes (D24), so no operation reads it (70_reset_and_hazards.md R292 step
4 opens the port at it; R312: a transfer time cannot be derived from it). -/
abbrev baud : Nat := 115200
/-- ACK: the acknowledgement byte. -/
abbrev ackByte : Byte := 0x06
/-- DUMP_LINE: bytes of a dump line. -/
abbrev dumpLineSize : Nat := 16
/-- DUMP_DEFAULT: dump length used for the operand 0. -/
abbrev dumpDefault : Nat := 16
/-- PRINT_LO: first byte a dump shows as itself. -/
abbrev printLo : Byte := 32
/-- PRINT_HI: last byte a dump shows as itself. -/
abbrev printHi : Byte := 126

/-! ## Open parameters (R9) -/

/-- CELL above the chip's end: which cell, if any, an address `a ≥ 8192` selects (R63, D6). -/
opaque cellAbove : Word → Option (Fin 8192)

/-- CELL, the map from a presented address to the cell it selects (20_memory.md R63). -/
def cell (a : Word) : Option Nat :=
  if a.toNat < chipSize then some a.toNat else (cellAbove a).map Fin.val

/-- MAXB_W is 16 plus this: the spec gives its lower bound only (R9, D15). -/
opaque maxbExtra : Nat

/-- MAXB_W, the width of the session's byte count. -/
def maxbWidth : Nat := 16 + maxbExtra

/-- RX_CAPACITY is 16 plus this: the spec gives its lower bound only (R9, D25). -/
opaque rxExtra : Nat

/-- RX_CAPACITY, the capacity of the input buffer in bytes. -/
def rxCapacity : Nat := 16 + rxExtra

/-- POLL_SLEEP is 1 plus this, in microseconds: the spec says only that it is positive (R9, D12). -/
opaque sleepExtraUs : Nat

/-- POLL_SLEEP, the duration of one polling sleep, in microseconds. -/
def pollSleepUs : Nat := 1 + sleepExtraUs

/-- HEX_LOWER: whether `a`..`f` are hex digits on input (R9, D18). -/
opaque hexLower : Bool

/-- HEX_OUT_CASE: whether output hex letters are lower case (R9, D19). -/
opaque hexOutLower : Bool

/-- The open texts of R9 (D17, D23). -/
structure Texts where
  /-- STARTUP_TEXT, may be empty. -/
  startup : List Byte
  /-- BANNER_TEXT, the ready banner of a session. -/
  banner : List Byte
  /-- DONE_TEXT, the completion message. -/
  done : List Byte
  /-- TIMEOUT_TEXT, the timeout message. -/
  timeout : List Byte
  /-- EOL, the end of a response line. -/
  eol : List Byte
  /-- DUMP_SEP, before each dump token. -/
  dumpSep : List Byte
  /-- DUMP_ASCII_LEAD, before the ASCII column. -/
  dumpLead : List Byte
deriving DecidableEq, Repr, Inhabited

/-- A whitespace byte: space, or tab to carriage return (for D23's "whitespace strings"). -/
def isSpace (b : Byte) : Bool := b == 0x20 || (0x09 ≤ b && b ≤ 0x0D)

/-- The constraints D17 and D23 put on the texts: no byte 0x06; banner, completion and timeout texts non-empty and
pairwise different; dump separators non-empty whitespace. -/
def Texts.legal (t : Texts) : Bool :=
  !t.startup.contains ackByte && !t.banner.contains ackByte && !t.done.contains ackByte &&
  !t.timeout.contains ackByte && !t.eol.contains ackByte &&
  !t.banner.isEmpty && !t.done.isEmpty && !t.timeout.isEmpty &&
  t.banner != t.done && t.banner != t.timeout && t.done != t.timeout &&
  !t.dumpSep.isEmpty && t.dumpSep.all isSpace && !t.dumpLead.isEmpty && t.dumpLead.all isSpace

/-- The texts as some implementation has them: nothing is known of this constant. -/
opaque someTexts : Texts

/-- Some texts that meet the constraints; only there to make `texts` total. -/
def legalTexts : Texts :=
  ⟨[], [0x52], [0x44], [0x54], [], [0x20], [0x20]⟩

/-- The texts: ANY texts that meet the constraints (log 8). `someTexts` is without a body, so nothing but
`Texts.legal` can be proved of them. -/
def texts : Texts := if someTexts.legal then someTexts else legalTexts

/-- What stands after the tokens of a dump line shorter than 16 bytes (R107: not defined), before cleaning. -/
opaque somePad : Nat → List Byte

/-- Padding of a dump line of `n` bytes, `n < 16`: open, and like every text without the byte 0x06 (D17, D23). -/
def shortLinePad (n : Nat) : List Byte := (somePad n).filter (· != ackByte)

/-! ## Free values -/

/-- What cell `c` holds before anything was written to it since launch (R61: unspecified; U12). -/
opaque initialCell : Nat → Byte

/-- The `n`-th draw of a byte: an out-of-range read (R65, U1), a cell whose write a reset cut (R290, U12). -/
opaque freeByte : Nat → Byte

/-- Time, in microseconds, a step takes beyond its stated delays once the script is over (R40, D11). -/
opaque slackUs : Nat → Nat

/-- Pending output bytes that leave during a step once the script is over, beyond one. -/
opaque leavingExtra : Nat → Nat

/-- Pending output bytes that leave during a step once the script is over: at least one if there is one, so that all output
is delivered eventually (R37, R38, D29; log 12). -/
def leaving (n : Nat) : Nat := 1 + leavingExtra n

/-! ## What the outside world will do -/

/-- The moves the outside world will make from reset on: the bytes the host sends in future are a parameter of the model
(R44), and with them the arrival times, the surplus of time and the reset events (R15; log 12). -/
opaque hostMoves : List Machine.EnvMove

end Sys2Proof.Config
end

