-- ==== Sys2Proof/Syntax.lean ====
section
/-!
DEFINITION. The operation set of the EPN core (00_scope.md R2): one constructor of `Instr` for each of the 25 rows of
spec/opcode_table.json.
-/
namespace Sys2Proof

/-- Direction of the eight data lines (41_data_bus.md R140). -/
inductive Dir where
  | inp
  | out
deriving DecidableEq, Repr

/-- The four command characters that take operands (30_encoding.md R92). -/
inductive Cmd where
  | r | w | d | p
deriving DecidableEq, Repr

/-- The operations of the block. Operands of commands are the assembled values (30_encoding.md R94). -/
inductive Instr where
  /-- `R`: read one byte and report it (R183). -/
  | r (addr : Word)
  /-- `W`: write one byte and confirm (R184). -/
  | w (addr : Word) (val : Byte)
  /-- `D`: hex dump (R185). -/
  | d (addr : Word) (len : Word)
  /-- `P`: enter the bulk-program controller (R186). -/
  | p (addr : Word)
  /-- RESYNC on the first byte `c` (R187). -/
  | resync (c : Byte)
  /-- CHUNK: a frame of raw bytes in bulk-data mode (R97). -/
  | chunk (bytes : List Byte)
  /-- ACK: the acknowledgement frame, block to host (R98). -/
  | ack
  /-- `ShiftBit(b)` (R120). -/
  | shiftBit (b : Bool)
  /-- `ShiftByte(v)` (R121). -/
  | shiftByte (v : Byte)
  /-- `setAddress(a)` (R122). -/
  | setAddress (a : Word)
  /-- `SetBusDir(d)` (R140). -/
  | setBusDir (d : Dir)
  /-- `readByte()` (R141). -/
  | readByte
  /-- `writeByte(v)` (R142). -/
  | writeByte (v : Byte)
  /-- `PulseWE()` (R160). -/
  | pulseWE
  /-- `readEEPROM(a)` (R161). -/
  | readEEPROM (a : Word)
  /-- `writeEEPROM(a, v)` (R162). -/
  | writeEEPROM (a : Word) (v : Byte)
  /-- `ReadHexDigit()` (R180). -/
  | readHexDigit
  /-- `ReadHex(n)` (R181). -/
  | readHex (n : Nat)
  /-- `BP.Init` (R211). -/
  | bpInit
  /-- `BP.AwaitChunk` (R212). -/
  | bpAwaitChunk
  /-- `BP.WriteChunk` (R213). -/
  | bpWriteChunk
  /-- `BP.Ack` (R214). -/
  | bpAck
  /-- `BP.Advance` (R215). -/
  | bpAdvance
  /-- `BP.Complete` (R216). -/
  | bpComplete
  /-- `BP.Timeout` (R217). -/
  | bpTimeout
deriving DecidableEq, Repr

end Sys2Proof
end

