-- ==== Sys2Proof/Machine/State.lean ====
section
/-!
DEFINITION. The state of the EPN core as plain data, its reset value, and the reasons a step can stop (10_state.md).
-/
namespace Sys2Proof.Machine

/-- The cells written since launch, addresses strictly rising. A cell that is not listed has no recorded value: it still
holds what launch left in it, `Config.initialCell` (log 4, log 30). -/
abbrev Memory := List Host.Cell

/-- Control state CS (10_state.md R33). `operands` carries the local `v` of `ReadHex` beside R33's `c` and `k`, the number
of digits of the current operand still to read (R181; log 20). -/
inductive Control where
  | idle
  | operands (c : Cmd) (k : Nat) (v : Word)
  | exec (c : Cmd)
  | bpInit
  | bpAwait
  | bpWrite
  | bpAck
  | bpAdvance
deriving DecidableEq, Repr

/-- The state of the block, of the chip as far as the block reaches it, and of the streams and the clock. -/
structure State where
  /-- SER, the serial-data line to the chain (R20). -/
  ser : Bool
  /-- SCK, the shift-clock line (R20). -/
  sck : Bool
  /-- RCK, the latch line (R20). -/
  rck : Bool
  /-- SR, the shift chain (R21). -/
  sr : Word
  /-- AL, the address latch (R22). -/
  al : Word
  /-- DIR, one flag per data line, 1 = OUT (R24). -/
  dir : Byte
  /-- DOUT, the output latch (R25). -/
  dout : Byte
  /-- WE_N, the active-low write-enable line (R26). -/
  weN : Bool
  /-- OP_A (R27, R47). -/
  opA : Option Word
  /-- OP_V (R27, R47). -/
  opV : Option Byte
  /-- OP_L (R27, R47). -/
  opL : Option Word
  /-- START (R28, R46). -/
  start : Option Word
  /-- MAXB (R29, R46). -/
  maxb : Option Nat
  /-- CURSOR (R30, R46). -/
  cursor : Option Nat
  /-- IDX (R31, R46). -/
  idx : Option Nat
  /-- T0, in milliseconds (R32, R46). -/
  t0 : Option Nat
  /-- CS (R33). -/
  cs : Control
  /-- RX, oldest byte first (R36). -/
  rx : List Byte
  /-- TX, every byte emitted, in order (R37). -/
  tx : List Byte
  /-- TX_SENT, how many bytes of TX have left (R37). -/
  txSent : Nat
  /-- The free-running clock, in microseconds (R39, R263). -/
  clockUs : Nat
  /-- M, the chip's cell array (R41, R61). -/
  mem : Memory
  /-- W_BUSY (R41), as the microseconds left until the chip's write cycle is over (log 15). -/
  busyUs : Nat
  /-- The model's own: the address presented at the last write pulse; while W_BUSY the cell it selects is the one whose write
  is under way (R290; log 24). -/
  busyAt : Word
  /-- The model's own: `BP.AwaitChunk` has taken T0 and is polling (R32, R212; log 14). -/
  inWait : Bool
  /-- The model's own: what the last value-returning primitive run by itself returned (log 21). -/
  ret : Option Word
  /-- The model's own: a `ReadHex` run by itself that waits, as the digits still to read and its `v` (R181; log 25). -/
  reading : Option (Nat × Word)
  /-- The model's own: how many free values have been drawn (log 6). -/
  draws : Nat
  /-- The model's own: what is left of the moves of the outside world, a parameter of the model (R44,
  `Config.hostMoves`), next move first (log 12). -/
  script : List EnvMove
deriving DecidableEq, Repr

/-- A register that holds no value outside a command or session (R46, R47). -/
inductive Reg where
  | opA | opV | opL | start | maxb | cursor | t0
deriving DecidableEq, Repr

/-- Why the machine stops with a fault. -/
inductive Fault where
  /-- Raised by an operation that reads an operand or session register which holds no value (U11). No command reaches it.
  Safe: the model stops where the spec gives no value. -/
  | noValue (reg : Reg)
  /-- Raised by `RxPop` on an empty RX, inside `BP.WriteChunk` (R13). No command reaches it. Safe. -/
  | rxEmpty
deriving DecidableEq, Repr

/-- Why the model gives an operation no meaning. -/
inductive Refusal where
  /-- Raised by an arm of `exec` whose instruction has no meaning yet: none. Safe. -/
  | notModelled (mnemonic : String)
  /-- Raised by `readByte`, `writeByte` and `PulseWE` when DIR does not meet their precondition (D8, U10). No command
  reaches it. Safe. -/
  | busDirection
  /-- Raised by a read sample or write pulse while W_BUSY (R164, U5). No command reaches it. Safe. -/
  | chipBusy
  /-- Raised by a step in which the host sends a byte that does not fit in RX, at its start or while the thread acts (R302,
  D25, U9). Safe. -/
  | inputOverrun
deriving DecidableEq, Repr

/-- The machine after reset and boot (10_state.md R45, 70_reset_and_hazards.md R291). R45 leaves SER, SR, AL, DOUT and
TX_SENT unspecified: they are zero here by DESIGN CHOICE (log 1, log 2), as is the clock (log 3). What the outside world will
do is the parameter `Config.hostMoves` (R44). -/
def State.reset : State where
  ser := false
  sck := false
  rck := true
  sr := 0
  al := 0
  dir := 0x00
  dout := 0
  weN := true
  opA := none
  opV := none
  opL := none
  start := none
  maxb := none
  cursor := none
  idx := none
  t0 := none
  cs := .idle
  rx := []
  tx := Config.texts.startup
  txSent := 0
  clockUs := 0
  mem := []
  busyUs := 0
  busyAt := 0
  inWait := false
  ret := none
  reading := none
  draws := 0
  script := Config.hostMoves

end Sys2Proof.Machine
end

