-- ==== Sys2Proof/Machine/Flags.lean ====
section
/-!
DEFINITION. The one-bit views of the state: the block has no condition codes (10_state.md R34, R35), only the two predicates
evaluated by polling, the view W_BUSY, and the protocol mode.
-/
namespace Sys2Proof.Machine

/-- `NowMs()`: the clock in whole milliseconds (R39). -/
def State.nowMs (s : State) : Nat := s.clockUs / 1000

/-- W_BUSY: the chip's internal write cycle is not over (R41). -/
def State.wBusy (s : State) : Bool := s.busyUs != 0

/-- The predicate "chunk available", `RxAvail() >= CHUNK_SIZE` (R34, R212). -/
def State.chunkAvailable (s : State) : Bool := decide (Config.chunkSize ≤ s.rx.length)

/-- The predicate "timeout expired", `NowMs() - T0 > TIMEOUT_MS`, strictly (R34, R212, D12). -/
def State.timeoutExpired (s : State) (t0 : Nat) : Bool := decide (Config.timeoutMs < s.nowMs - t0)

/-- Is the control thread inside a bulk session (60_exceptions.md R262, 30_encoding.md R103)? -/
def Control.isBulk : Control → Bool
  | .bpInit | .bpAwait | .bpWrite | .bpAck | .bpAdvance => true
  | .idle | .operands _ _ _ | .exec _ => false

end Sys2Proof.Machine
end

