-- ==== Sys2Proof/Machine/Operands.lean ====
section
/-!
DEFINITION. Operand forms and text forms: hex digits in and out, operand assembly, the dump count and the dump line, bit
order on the pins (30_encoding.md sections 1, 3, 6 and 9; 20_memory.md rules R66 to R68).
-/
namespace Sys2Proof.Machine

/-- The digit a byte stands for, if it is a hex digit (30_encoding.md R93; `a`..`f` by HEX_LOWER). -/
def hexDigit? (c : Byte) : Option (BitVec 4) :=
  if 0x30 ≤ c ∧ c ≤ 0x39 then some ((c - 0x30).setWidth 4)
  else if 0x41 ≤ c ∧ c ≤ 0x46 then some ((c - 0x41 + 10).setWidth 4)
  else if 0x61 ≤ c ∧ c ≤ 0x66 then
    (if Config.hexLower then some ((c - 0x61 + 10).setWidth 4) else none)
  else none

/-- `hexval(c)`: 0 for a byte that is no hex digit (R93). -/
def hexval (c : Byte) : BitVec 4 := (hexDigit? c).getD 0

/-- One round of `ReadHex`: `v * 16 + d` (43_line_protocol.md R181). -/
def hexPush (v : Word) (c : Byte) : Word := v * 16 + (hexval c).setWidth 16

/-- The value of an operand's digit bytes in arrival order (R94). -/
def hexFold (ds : List Byte) : Word := ds.foldl hexPush 0

/-- A two-digit operand: the low eight bits of `ReadHex(2)` (R94: 4n bits). -/
def hexFold8 (ds : List Byte) : Byte := (hexFold ds).setWidth 8

/-- The upper-case ASCII digit of a nibble, as a host sends it (R93, R104). -/
def hexUpper (n : BitVec 4) : Byte :=
  if n < 10 then 0x30 + n.setWidth 8 else 0x41 + (n.setWidth 8 - 10)

/-- The digit of a nibble in a response, letters in HEX_OUT_CASE (R106). -/
def hexOut (n : BitVec 4) : Byte :=
  if n < 10 then 0x30 + n.setWidth 8
  else (if Config.hexOutLower then 0x61 else 0x41) + (n.setWidth 8 - 10)

/-- The four nibbles of a word, most significant first. -/
def nibbles16 (v : Word) : List (BitVec 4) :=
  [v.extractLsb' 12 4, v.extractLsb' 8 4, v.extractLsb' 4 4, v.extractLsb' 0 4]

/-- The two nibbles of a byte, most significant first. -/
def nibbles8 (v : Byte) : List (BitVec 4) := [v.extractLsb' 4 4, v.extractLsb' 0 4]

/-- `H4(x)`: four zero-padded hex digits (R106). -/
def hex4 (v : Word) : List Byte := (nibbles16 v).map hexOut

/-- `H2(x)`: two zero-padded hex digits (R106). -/
def hex2 (v : Byte) : List Byte := (nibbles8 v).map hexOut

/-- The byte count of a dump: the length operand, 0 treated as 16 (R95). -/
def dumpCount (len : Word) : Nat := if len = 0 then Config.dumpDefault else len.toNat

/-- A byte as the dump's ASCII column shows it: itself if 32..126, else `.` (R107). -/
def printable (b : Byte) : Byte := if Config.printLo ≤ b ∧ b ≤ Config.printHi then b else 0x2E

/-- The ASCII bytes of `Read from 0x` (R106). -/
def textReadFrom : List Byte := [0x52, 0x65, 0x61, 0x64, 0x20, 0x66, 0x72, 0x6F, 0x6D, 0x20, 0x30, 0x78]

/-- The ASCII bytes of `: 0x` (R106). -/
def textColon0x : List Byte := [0x3A, 0x20, 0x30, 0x78]

/-- The ASCII bytes of `Wrote 0x` (R106). -/
def textWrote : List Byte := [0x57, 0x72, 0x6F, 0x74, 0x65, 0x20, 0x30, 0x78]

/-- The ASCII bytes of ` to 0x` (R106). -/
def textTo : List Byte := [0x20, 0x74, 0x6F, 0x20, 0x30, 0x78]

/-- The response of `R` (R106). -/
def readResponse (a : Word) (v : Byte) : List Byte :=
  textReadFrom ++ hex4 a ++ textColon0x ++ hex2 v ++ Config.texts.eol

/-- The response of `W` (R106). -/
def wroteResponse (a : Word) (v : Byte) : List Byte :=
  textWrote ++ hex2 v ++ textTo ++ hex4 a ++ Config.texts.eol

/-- One dump line for the bytes `bs` from address `a` (R107): prefix, tokens, padding of a short line, ASCII column. R107 and
D23 leave the padding open; that it stands only between the tokens and DUMP_ASCII_LEAD, never in or after the ASCII column,
is a DESIGN CHOICE (log 8). -/
def dumpLine (a : Word) (bs : List Byte) : List Byte :=
  [0x30, 0x78] ++ hex4 a ++ [0x3A] ++ bs.flatMap (fun b => Config.texts.dumpSep ++ hex2 b) ++
  (if bs.length < Config.dumpLineSize then Config.shortLinePad bs.length else []) ++
  Config.texts.dumpLead ++ bs.map printable ++ Config.texts.eol

/-- `CHIP_SIZE - START` in modular arithmetic of MAXB_W bits (10_state.md R29): it wraps only above the chip's end. -/
def maxbOf (start : Word) : Nat :=
  if start.toNat ≤ Config.chipSize then Config.chipSize - start.toNat
  else 2 ^ Config.maxbWidth - (start.toNat - Config.chipSize)

/-- `trunc_16` of a natural number, the address handed to `setAddress` (44_bulk_program.md R218). -/
def trunc16 (n : Nat) : Word := BitVec.ofNat 16 n

/-- The bits of a byte, most significant first (20_memory.md R66). -/
def bitsMsbFirst (v : Byte) : List Bool :=
  [v.getLsbD 7, v.getLsbD 6, v.getLsbD 5, v.getLsbD 4, v.getLsbD 3, v.getLsbD 2, v.getLsbD 1, v.getLsbD 0]

/-- `address[15:8]`. -/
def hiByte (a : Word) : Byte := a.extractLsb' 8 8

/-- `address[7:0]`. -/
def loByte (a : Word) : Byte := a.extractLsb' 0 8

/-- The shift frame of an address: a15 first, a0 last (30_encoding.md R99). -/
def shiftFrame (a : Word) : List Bool := bitsMsbFirst (hiByte a) ++ bitsMsbFirst (loByte a)

/-- The byte `v` with bit `i` set to `b`. -/
def setBit (v : Byte) (i : Nat) (b : Bool) : Byte :=
  if b then v ||| ((1 : Byte) <<< i) else v &&& ~~~((1 : Byte) <<< i)

end Sys2Proof.Machine
end

