-- ==== Sys2Proof/Machine/Ops.lean ====
section
/-!
DEFINITION. The named operations over the pins, the chip, the streams and time which every meaning is made of, and the one
operation that gives the four error conditions their effect.
-/
namespace Sys2Proof.Machine

/-- Run `o`, and `k` on its answer if it answers. -/
def andThen {α β : Type} (o : Host.Outcome α Fault Refusal) (k : α → Host.Outcome β Fault Refusal) :
    Host.Outcome β Fault Refusal :=
  match o with
  | .next a => k a
  | .fault r => .fault r
  | .refused r => .refused r

/-! ## The chip's cell array -/

/-- What has been written to cell `c` since launch, if anything. -/
def Memory.written : Memory → Nat → Option Byte
  | [], _ => none
  | (a, v) :: rest, c => if a = c then some v else Memory.written rest c

/-- `M[c]` (20_memory.md R61); a cell not written since launch holds what launch left in it (U12, log 4). -/
def Memory.cell (m : Memory) (c : Nat) : Byte := (Memory.written m c).getD (Config.initialCell c)

/-- `M[c] <- v`, keeping the addresses strictly rising. -/
def Memory.store : Memory → Nat → Byte → Memory
  | [], c, v => [(c, v)]
  | (a, w) :: rest, c, v =>
    if c < a then (c, v) :: (a, w) :: rest
    else if c = a then (c, v) :: rest
    else (a, w) :: Memory.store rest c v

/-- The canonical form: addresses strictly rising and all of them cells of the chip (R61). -/
def Memory.wf (m : Memory) : Bool :=
  decide (m.Pairwise fun x y => x.1 < y.1) && m.all fun x => decide (x.1 < Config.chipSize)

/-- The cell array after the presented address `a` was written with `v`: R64 with CELL (R63); an address that selects no
cell changes none. -/
def Memory.writeAt (m : Memory) (a : Word) (v : Byte) : Memory :=
  match Config.cell a with
  | some c => Memory.store m c v
  | none => m

/-- The byte the chip delivers for the presented address `a`: the selected cell, or the draw `draw` (R64, R65). -/
def Memory.readAt (m : Memory) (a : Word) (draw : Byte) : Byte :=
  match Config.cell a with
  | some c => Memory.cell m c
  | none => draw

/-- `MemRead(AL, 1)`: what the chip drives while no write is in flight (R64). While AL selects no cell the spec makes each such
read a draw under no law (R65); that it is one and the same drawn byte until the draw counter advances, even if AL moves to
another such address, is a DESIGN CHOICE (log 6). -/
def State.chipOut (s : State) : Byte := Memory.readAt s.mem s.al (Config.freeByte s.draws)

/-- The levels of D[7:0]: DOUT on lines that are OUT, the chip's output on the others (R23, R143). With every line OUT the
chip's output plays no part. -/
def State.busLevel (s : State) : Byte :=
  if s.dir = 0xFF then s.dout else (s.dir &&& s.dout) ||| (~~~s.dir &&& s.chipOut)

/-- `MemWrite(AL, 1, v)` (R64): the selected cell takes `v` and a write cycle begins there (W_BUSY, R41). -/
def State.memWrite (s : State) (v : Byte) : State :=
  { s with
    mem := Memory.writeAt s.mem s.al v
    busyAt := s.al
    busyUs := if (Config.cell s.al).isSome then Config.settleMs * 1000 else s.busyUs }

/-! ## Time -/

/-- What is left of a write cycle of `busy` microseconds after `n` more (R41); a cycle that is over stays over. -/
def runDown (busy n : Nat) : Nat := if busy = 0 then 0 else busy - n

/-- `n` microseconds pass (R40); a write cycle runs down with them (R41, U5). -/
def State.delayUs (s : State) (n : Nat) : State :=
  { s with clockUs := s.clockUs + n, busyUs := runDown s.busyUs n }

/-- `Delay_ms(n)` (R13, R40). -/
def State.delayMs (s : State) (n : Nat) : State := s.delayUs (n * 1000)

/-- `Sleep()`: one POLL_SLEEP (R13, R40). -/
def State.sleep (s : State) : State := s.delayUs Config.pollSleepUs

/-! ## Pins -/

/-- One assignment to a line, or one wait between assignments: the sub-steps of the byte operations (R11, R163). -/
inductive PinEvent where
  | ser (b : Bool)
  | sck (b : Bool)
  | rck (b : Bool)
  | weN (b : Bool)
  | dir (i : Nat) (d : Dir)
  | dout (i : Nat) (b : Bool)
  | wait (us : Nat)
deriving DecidableEq, Repr

/-- The effect of one pin event, with the edge semantics of 40_address_mux.md R123 for SCK and RCK and the write at the
rising edge of WE_N (42_byte_access.md R160, D10). -/
def State.pin (s : State) : PinEvent → State
  | .ser b => { s with ser := b }
  | .sck b =>
    { s with sck := b, sr := if !s.sck && b then (s.sr <<< 1) ||| (BitVec.ofBool s.ser).setWidth 16 else s.sr }
  | .rck b => { s with rck := b, al := if !s.rck && b then s.sr else s.al }
  | .weN b =>
    if !s.weN && b then { s.memWrite s.busLevel with weN := b } else { s with weN := b }
  | .dir i d => { s with dir := setBit s.dir i (d == .out) }
  | .dout i b => { s with dout := setBit s.dout i b }
  | .wait us => s.delayUs us

/-- The events in order (R11). -/
def State.pins (s : State) (es : List PinEvent) : State := es.foldl State.pin s

/-- The states after each event in turn: for claims about the pins inside an operation (R163). -/
def State.pinTrace (s : State) : List PinEvent → List State
  | [] => []
  | e :: es => s.pin e :: (s.pin e).pinTrace es

/-- `ShiftBit(b)` on the pins (R120). -/
def shiftBitEvents (b : Bool) : List PinEvent := [.ser b, .sck true, .sck false]

/-- Bits shifted one after the other. -/
def shiftBitsEvents (bits : List Bool) : List PinEvent := bits.flatMap shiftBitEvents

/-- `setAddress(a)` on the pins: RCK low, the shift frame, RCK high (R122, 30_encoding.md R99). -/
def setAddressEvents (a : Word) : List PinEvent :=
  .rck false :: (shiftBitsEvents (bitsMsbFirst (hiByte a)) ++ (shiftBitsEvents (bitsMsbFirst (loByte a)) ++ [.rck true]))

/-- `SetBusDir(d)` on the pins: the eight flags in ascending order (R140). -/
def setBusDirEvents (d : Dir) : List PinEvent := (List.range 8).map fun i => .dir i d

/-- `writeByte(v)` on the pins: line i to bit i (R142). -/
def writeByteEvents (v : Byte) : List PinEvent := (List.range 8).map fun i => .dout i (v.getLsbD i)

/-- `PulseWE()` on the pins (R160). -/
def pulseEvents : List PinEvent := [.weN false, .wait Config.pulseUs, .weN true]

/-- Every pin event of `writeEEPROM(a, v)`, the settle delay included (R162). -/
def writeEEPROMEvents (a : Word) (v : Byte) : List PinEvent :=
  setBusDirEvents .out ++ (setAddressEvents a ++ (writeByteEvents v ++ (pulseEvents ++ [.wait (Config.settleMs * 1000)])))

/-- `ShiftBit(b)` (R120). -/
def State.shiftBit (s : State) (b : Bool) : State := s.pins (shiftBitEvents b)

/-- `ShiftByte(v)`: most significant bit first (R121). -/
def State.shiftByte (s : State) (v : Byte) : State := s.pins (shiftBitsEvents (bitsMsbFirst v))

/-- `setAddress(a)` (R122). -/
def State.setAddress (s : State) (a : Word) : State := s.pins (setAddressEvents a)

/-- `SetBusDir(d)` (R140). -/
def State.setBusDir (s : State) (d : Dir) : State := s.pins (setBusDirEvents d)

/-- `readByte()` (R141): needs DIR all IN and no write in flight. A read that selects no cell is a draw (R65). -/
def readByte (s : State) : Host.Outcome (Byte × State) Fault Refusal :=
  if s.dir ≠ 0x00 then .refused .busDirection
  else if s.wBusy then .refused .chipBusy
  else .next (s.busLevel, { s with draws := if (Config.cell s.al).isSome then s.draws else s.draws + 1 })

/-- `writeByte(v)` (R142): needs DIR all OUT. -/
def writeByte (v : Byte) (s : State) : Host.Outcome State Fault Refusal :=
  if s.dir ≠ 0xFF then .refused .busDirection
  else .next (s.pins (writeByteEvents v))

/-- `PulseWE()` (R160): needs DIR all OUT and no write in flight. -/
def pulseWE (s : State) : Host.Outcome State Fault Refusal :=
  if s.dir ≠ 0xFF then .refused .busDirection
  else if s.wBusy then .refused .chipBusy
  else .next (s.pins pulseEvents)

/-- `readEEPROM(a)`: direction, address, sample (R161). -/
def readEEPROM (a : Word) (s : State) : Host.Outcome (Byte × State) Fault Refusal :=
  readByte ((s.setBusDir .inp).setAddress a)

/-- `writeEEPROM(a, v)`: direction, address, data, pulse, settle delay (R162). -/
def writeEEPROM (a : Word) (v : Byte) (s : State) : Host.Outcome State Fault Refusal :=
  andThen (writeByte v ((s.setBusDir .out).setAddress a)) fun s1 =>
  andThen (pulseWE s1) fun s2 =>
  .next (s2.delayMs Config.settleMs)

/-! ## Streams -/

/-- `TxText(b)`: the bytes are appended to TX (R13, R37); one byte is `TxPut`. -/
def State.txText (s : State) (b : List Byte) : State := { s with tx := s.tx ++ b }

/-- `TxFlush()`: every byte appended so far has left (R38). -/
def State.txFlush (s : State) : State := { s with txSent := s.tx.length }

/-- `RxDrain()`: every byte present is removed (R13, R187). -/
def State.rxDrain (s : State) : State := { s with rx := [] }

/-! ## Commands and sessions -/

/-- A command ends: the operand registers hold no value and CS is IDLE (R47, R182). -/
def State.endCommand (s : State) : State := { s with opA := none, opV := none, opL := none, cs := .idle }

/-- A session ends: its registers hold no value, the `P` command ends (R46, R216, R217; log 27). -/
def State.endSession (s : State) : State :=
  { s with
    start := none, maxb := none, cursor := none, idx := none, t0 := none, inWait := false
    opA := none, opV := none, opL := none, cs := .idle }

/-- The four error conditions of the block (60_exceptions.md R250). -/
inductive Condition where
  | badHexDigit
  | unknownCommand
  | chunkTimeout
  | startOutOfRange
deriving DecidableEq, Repr

/-- Raising a condition (R250 to R254, R259): nothing is saved anywhere. The two silent ones change nothing;
UnknownCommand drains RX, ChunkTimeout sends TIMEOUT_TEXT and destroys the session, and both leave CS at IDLE. There is no
return: the next command is processed normally (R260). -/
def State.raise (s : State) : Condition → State
  | .badHexDigit => s
  | .startOutOfRange => s
  | .unknownCommand => { s.rxDrain with cs := .idle }
  | .chunkTimeout => (s.txText Config.texts.timeout).endSession

/-- The digit of a byte, raising BadHexDigit when it has none (R93, R180, R251). -/
def State.takeDigit (s : State) (c : Byte) : BitVec 4 × State :=
  match hexDigit? c with
  | some d => (d, s)
  | none => (0, s.raise .badHexDigit)

/-- `ReadHexDigit()` (R180): the oldest byte of RX is taken and its digit returned; `none` while RX is empty, when the
operation must wait. -/
def State.readHexDigit (s : State) : Option (BitVec 4 × State) :=
  match s.rx with
  | [] => none
  | c :: rest => some (State.takeDigit { s with rx := rest } c)

/-- `ReadHex` with `k` digits still to read and the running value `v` (R181): the digits that are in RX are taken one by one.
The answer is the digits then still to read, the running value and the state. -/
def State.readHex (s : State) : Nat → Word → Nat × Word × State
  | 0, v => (0, v, s)
  | k + 1, v =>
    match s.readHexDigit with
    | none => (k + 1, v, s)
    | some (d, s1) => s1.readHex k (v * 16 + d.setWidth 16)

/-- The acknowledgement byte, sent and flushed (R98, R214). -/
def State.sendAck (s : State) : State := (s.txText [Config.ackByte]).txFlush

/-- Completion of a session (R216). -/
def State.complete (s : State) : State := (s.txText Config.texts.done).endSession

/-! ## Reset -/

/-- The reset event (70_reset_and_hazards.md R290, R292): the boot sequence leaves every field as `State.reset` has it,
but for the chip's cells, which survive (R45), and the model's own draw counter and script. -/
def State.restart (s : State) (m : Memory) (rest : List EnvMove) : State :=
  { State.reset with mem := m, draws := s.draws + 2, script := rest }

/-- Complete writes in order. -/
def Memory.writeAll (m : Memory) (ws : List (Word × Byte)) : Memory :=
  ws.foldl (fun m w => Memory.writeAt m w.1 w.2) m

/-- The chip's cells when a reset falls here (R290, U12): the cell whose write cycle is going on, and the cell under a pulse
that is still low, are draws; every other cell is as it is. -/
def State.memAtReset (s : State) : Memory :=
  let m := if s.wBusy then Memory.writeAt s.mem s.busyAt (Config.freeByte s.draws) else s.mem
  if s.weN then m else Memory.writeAt m s.al (Config.freeByte (s.draws + 1))

end Sys2Proof.Machine
end

