-- ==== Sys2Proof/Machine/AddrMux.lean ====
section
/-!
DEFINITION. The meanings of the address multiplexer's operations (40_address_mux.md).
-/
namespace Sys2Proof.Machine

/-- `ShiftBit(b)` (R120). -/
def execShiftBit (b : Bool) (s : State) : Host.Outcome State Fault Refusal := .next (s.shiftBit b)

/-- `ShiftByte(v)` (R121). -/
def execShiftByte (v : Byte) (s : State) : Host.Outcome State Fault Refusal := .next (s.shiftByte v)

/-- `setAddress(a)` (R122). -/
def execSetAddress (a : Word) (s : State) : Host.Outcome State Fault Refusal := .next (s.setAddress a)

end Sys2Proof.Machine
end

