-- ==== Sys2Proof/Machine/Bulk.lean ====
section
/-!
DEFINITION. The meanings of the bulk-program frame handler: the frames CHUNK and ACK and the steps of the session
(44_bulk_program.md). A session register that holds no value faults when it is read (U11).
-/
namespace Sys2Proof.Machine

/-- Write the bytes of a chunk to `cur + k` upwards, each with its inter-byte delay (R213). -/
def writeCells : List Byte → Nat → Nat → State → Host.Outcome State Fault Refusal
  | [], _, _, s => .next s
  | b :: bs, k, cur, s =>
    andThen (writeEEPROM (trunc16 (cur + k)) b { s with idx := some k }) fun s1 =>
    writeCells bs (k + 1) cur (s1.delayUs Config.interByteUs)

/-- Pop `n` bytes off RX one by one and write each to `cur + k` upwards (R213, D13). -/
def popAndWriteCells : Nat → Nat → Nat → State → Host.Outcome State Fault Refusal
  | 0, _, _, s => .next s
  | n + 1, k, cur, s =>
    match s.rx with
    | [] => .fault .rxEmpty
    | b :: rest =>
      andThen (writeEEPROM (trunc16 (cur + k)) b { s with rx := rest, idx := some k }) fun s1 =>
      popAndWriteCells n (k + 1) cur (s1.delayUs Config.interByteUs)

/-- CHUNK: the frame's bytes, taken off RX by the fetch, are written from CURSOR upwards (R97, R213). -/
def execChunk (bytes : List Byte) (s : State) : Host.Outcome State Fault Refusal :=
  match s.cursor with
  | none => .fault (.noValue .cursor)
  | some cur =>
    andThen (writeCells bytes 0 cur s) fun s1 => .next { s1 with idx := none, cs := .bpAck }

/-- ACK: the acknowledgement frame leaves the block (R98). -/
def execAck (s : State) : Host.Outcome State Fault Refusal := .next s.sendAck

/-- `BP.Init`: open the session, banner, flush (R211). A start at or beyond the chip's end is StartOutOfRange, which
changes nothing (R254). -/
def execBpInit (s : State) : Host.Outcome State Fault Refusal :=
  match s.opA with
  | none => .fault (.noValue .opA)
  | some a =>
    let s1 := if Config.chipSize ≤ a.toNat then s.raise .startOutOfRange else s
    .next ((({ s1 with
      start := some a
      maxb := some (maxbOf a)
      cursor := some a.toNat
      cs := .bpAwait
      inWait := false }).txText Config.texts.banner).txFlush)

/-- T0 is taken on entry to the wait, and kept while it lasts (R32, R212). -/
def State.enterWait (s : State) : State :=
  if s.inWait then s else { s with t0 := some s.nowMs, inWait := true }

/-- `BP.AwaitChunk`: one poll, availability first, then the window, then a sleep (R212, D12). -/
def execBpAwaitChunk (s : State) : Host.Outcome State Fault Refusal :=
  match s.enterWait.t0 with
  | none => .fault (.noValue .t0)
  | some t0 =>
    if s.enterWait.chunkAvailable then .next { s.enterWait with cs := .bpWrite, inWait := false }
    else if s.enterWait.timeoutExpired t0 then .next (s.enterWait.raise .chunkTimeout)
    else .next s.enterWait.sleep

/-- `BP.WriteChunk`: consume and write sixteen bytes (R213). -/
def execBpWriteChunk (s : State) : Host.Outcome State Fault Refusal :=
  match s.cursor with
  | none => .fault (.noValue .cursor)
  | some cur =>
    andThen (popAndWriteCells Config.chunkSize 0 cur s) fun s1 => .next { s1 with idx := none, cs := .bpAck }

/-- `BP.Ack`: acknowledge the chunk (R214). -/
def execBpAck (s : State) : Host.Outcome State Fault Refusal := .next { s.sendAck with cs := .bpAdvance }

/-- `BP.Advance`: move the cursor and decide (R215). -/
def execBpAdvance (s : State) : Host.Outcome State Fault Refusal :=
  match s.cursor with
  | none => .fault (.noValue .cursor)
  | some cur =>
    let s1 : State := { s with cursor := some (cur + Config.chunkSize) }
    if Config.chipSize < cur + Config.chunkSize then .next s1.complete
    else match s.start, s.maxb with
      | none, _ => .fault (.noValue .start)
      | some _, none => .fault (.noValue .maxb)
      | some st, some mb =>
        if cur + Config.chunkSize < st.toNat + mb then .next { s1 with cs := .bpAwait, inWait := false }
        else .next s1.complete

/-- `BP.Complete`: report completion and end the session (R216). -/
def execBpComplete (s : State) : Host.Outcome State Fault Refusal := .next s.complete

/-- `BP.Timeout`: ChunkTimeout is raised (R217, R253). -/
def execBpTimeout (s : State) : Host.Outcome State Fault Refusal := .next (s.raise .chunkTimeout)

end Sys2Proof.Machine
end

