-- ==== Sys2Proof/Machine/ByteAccess.lean ====
section
/-!
DEFINITION. The meanings of the byte-level EEPROM access (42_byte_access.md).
-/
namespace Sys2Proof.Machine

/-- `PulseWE()` (R160). -/
def execPulseWE (s : State) : Host.Outcome State Fault Refusal := pulseWE s

/-- `readEEPROM(a)` (R161). -/
def execReadEEPROM (a : Word) (s : State) : Host.Outcome State Fault Refusal :=
  andThen (readEEPROM a s) fun r => .next { r.2 with ret := some (r.1.setWidth 16) }

/-- `writeEEPROM(a, v)` (R162). -/
def execWriteEEPROM (a : Word) (v : Byte) (s : State) : Host.Outcome State Fault Refusal := writeEEPROM a v s

end Sys2Proof.Machine
end

