-- ==== Sys2Proof/Machine/DataBus.lean ====
section
/-!
DEFINITION. The meanings of the data-bus transceiver's operations (41_data_bus.md). A value an operation returns to its
caller is kept in `ret` when the operation is run by itself (log 21).
-/
namespace Sys2Proof.Machine

/-- `SetBusDir(d)` (R140). -/
def execSetBusDir (d : Dir) (s : State) : Host.Outcome State Fault Refusal := .next (s.setBusDir d)

/-- `readByte()` (R141). -/
def execReadByte (s : State) : Host.Outcome State Fault Refusal :=
  andThen (readByte s) fun r => .next { r.2 with ret := some (r.1.setWidth 16) }

/-- `writeByte(v)` (R142). -/
def execWriteByte (v : Byte) (s : State) : Host.Outcome State Fault Refusal := writeByte v s

end Sys2Proof.Machine
end

