-- ==== Sys2Proof/Machine/LineProtocol.lean ====
section
/-!
DEFINITION. The meanings of the operand readers and of the commands R, W, D, P and RESYNC (43_line_protocol.md). The
fetch takes a command's bytes off RX (Machine/Fetch.lean); a command's meaning starts with its operands assembled.
-/
namespace Sys2Proof.Machine

/-- `ReadHexDigit()` (R180): it sleeps while RX is empty. -/
def execReadHexDigit (s : State) : Host.Outcome State Fault Refusal :=
  match s.readHexDigit with
  | none => .next s.sleep
  | some (d, s1) => .next { s1 with ret := some (d.setWidth 16) }

/-- `ReadHex(n)` (R181): it takes each byte as it comes and sleeps while digits are missing; when it is run again it goes on
where it waits (log 25). -/
def execReadHex (n : Nat) (s : State) : Host.Outcome State Fault Refusal :=
  match s.readHex (s.reading.getD (n, 0)).1 (s.reading.getD (n, 0)).2 with
  | (0, v, s1) => .next { s1 with reading := none, ret := some v }
  | (k + 1, v, s1) => .next { s1.sleep with reading := some (k + 1, v) }

/-- `R`: read one byte and report it (R183). -/
def execR (a : Word) (s : State) : Host.Outcome State Fault Refusal :=
  andThen (readEEPROM a { s with opA := some a, cs := .exec .r }) fun r =>
  .next ((r.2.txText (readResponse a r.1)).endCommand)

/-- `W`: write one byte and confirm, after the settle delay (R184). -/
def execW (a : Word) (v : Byte) (s : State) : Host.Outcome State Fault Refusal :=
  andThen (writeEEPROM a v { s with opA := some a, opV := some v, cs := .exec .w }) fun s1 =>
  .next ((s1.txText (wroteResponse a v)).endCommand)

/-- Read `n` cells from `a` upwards, the address wrapping at 2^16 (R185, D22). -/
def readCells : Nat → Word → State → Host.Outcome (List Byte × State) Fault Refusal
  | 0, _, s => .next ([], s)
  | n + 1, a, s =>
    andThen (readEEPROM a s) fun r =>
    andThen (readCells n (a + 1) r.2) fun q =>
    .next (r.1 :: q.1, q.2)

/-- The lines of a dump: `k` lines, `left` bytes still to dump, from address `a` (R185). -/
def dumpLines : Nat → Nat → Word → State → Host.Outcome State Fault Refusal
  | 0, _, _, s => .next s
  | k + 1, left, a, s =>
    andThen (readCells (min Config.dumpLineSize left) a s) fun q =>
    dumpLines k (left - Config.dumpLineSize) (a + 16) (q.2.txText (dumpLine a q.1))

/-- `D`: hex dump of `len` bytes from `a`, 0 treated as 16 (R185, R95). -/
def execD (a len : Word) (s : State) : Host.Outcome State Fault Refusal :=
  andThen (dumpLines ((dumpCount len + 15) / 16) (dumpCount len) a
    { s with opA := some a, opL := some len, cs := .exec .d }) fun s1 =>
  .next s1.endCommand

/-- `P`: enter the bulk-program controller with the operand in OP_A (R186). -/
def execP (a : Word) (s : State) : Host.Outcome State Fault Refusal :=
  .next { s with opA := some a, cs := .bpInit }

/-- RESYNC: UnknownCommand is raised, which drains RX (R187, R252). -/
def execResync (s : State) : Host.Outcome State Fault Refusal := .next (s.raise .unknownCommand)

end Sys2Proof.Machine
end

