-- ==== Sys2Proof/Machine/Dispatch.lean ====
section
/-! DEFINITION. One arm per operation of the block, each one call of its meaning. -/

namespace Sys2Proof.Machine

def exec (i : Instr) (s : State) : Host.Outcome State Fault Refusal :=
  match i with
  | .r a => Sys2Proof.Machine.execR a s
  | .w a v => Sys2Proof.Machine.execW a v s
  | .d a l => Sys2Proof.Machine.execD a l s
  | .p a => Sys2Proof.Machine.execP a s
  | .resync _ => Sys2Proof.Machine.execResync s
  | .chunk bs => Sys2Proof.Machine.execChunk bs s
  | .ack => Sys2Proof.Machine.execAck s
  | .shiftBit b => Sys2Proof.Machine.execShiftBit b s
  | .shiftByte v => Sys2Proof.Machine.execShiftByte v s
  | .setAddress a => Sys2Proof.Machine.execSetAddress a s
  | .setBusDir d => Sys2Proof.Machine.execSetBusDir d s
  | .readByte => Sys2Proof.Machine.execReadByte s
  | .writeByte v => Sys2Proof.Machine.execWriteByte v s
  | .pulseWE => Sys2Proof.Machine.execPulseWE s
  | .readEEPROM a => Sys2Proof.Machine.execReadEEPROM a s
  | .writeEEPROM a v => Sys2Proof.Machine.execWriteEEPROM a v s
  | .readHexDigit => Sys2Proof.Machine.execReadHexDigit s
  | .readHex n => Sys2Proof.Machine.execReadHex n s
  | .bpInit => Sys2Proof.Machine.execBpInit s
  | .bpAwaitChunk => Sys2Proof.Machine.execBpAwaitChunk s
  | .bpWriteChunk => Sys2Proof.Machine.execBpWriteChunk s
  | .bpAck => Sys2Proof.Machine.execBpAck s
  | .bpAdvance => Sys2Proof.Machine.execBpAdvance s
  | .bpComplete => Sys2Proof.Machine.execBpComplete s
  | .bpTimeout => Sys2Proof.Machine.execBpTimeout s

end Sys2Proof.Machine
end

