-- ==== Sys2Proof/WellFormed.lean ====
section
/-!
DEFINITION. Which instructions the spec has: RESYNC on one of the 252 other bytes (30_encoding.md R92), chunks of sixteen
bytes (R97), operands of four or two digits (R181). Every other operand may have any value (R101).
-/
namespace Sys2Proof

/-- The byte of a command character, as ASCII (30_encoding.md R90, R92). -/
def Cmd.byte : Cmd → Byte
  | .r => 0x52
  | .w => 0x57
  | .d => 0x44
  | .p => 0x50

/-- The command a first byte selects, by exact comparison; `none` selects RESYNC (R92). -/
def Cmd.ofByte (c : Byte) : Option Cmd :=
  if c = Cmd.r.byte then some .r
  else if c = Cmd.w.byte then some .w
  else if c = Cmd.d.byte then some .d
  else if c = Cmd.p.byte then some .p
  else none

/-- Operand digits that follow a command character (R91, R96). -/
def Cmd.digits : Cmd → Nat
  | .r => 4
  | .w => 6
  | .d => 8
  | .p => 4

/-- The checks an instruction must pass to be one of the spec's. -/
def Instr.wf : Instr → Bool
  | .resync c => (Cmd.ofByte c).isNone
  | .chunk bs => bs.length == Config.chunkSize
  | .readHex n => n == 2 || n == 4
  | .r _ | .w _ _ | .d _ _ | .p _ | .ack | .shiftBit _ | .shiftByte _ | .setAddress _ | .setBusDir _ | .readByte
  | .writeByte _ | .pulseWE | .readEEPROM _ | .writeEEPROM _ _ | .readHexDigit | .bpInit | .bpAwaitChunk
  | .bpWriteChunk | .bpAck | .bpAdvance | .bpComplete | .bpTimeout => true

end Sys2Proof
end

