-- ==== Sys2Proof/Decode.lean ====
section
/-!
DEFINITION. The decoder of the bytes in RX and its encoder (30_encoding.md sections 2 to 5). Decoding depends on the
protocol mode (R103): commands at CS = IDLE, sixteen-byte frames in bulk-data mode. No byte string is illegal (R101); the
decoder rejects only what is not all there yet.
-/
namespace Sys2Proof

/-- The two protocol modes (60_exceptions.md R262). -/
inductive Mode where
  | command
  | bulk
deriving DecidableEq, Repr

/-- Why the decoder has no instruction yet. -/
inductive DecodeError where
  /-- Nothing is in RX. -/
  | empty
  /-- A command character whose operand digits are not all in RX; `missing` more bytes are needed. -/
  | truncated (c : Cmd) (missing : Nat)
  /-- Fewer than sixteen bytes of a chunk are in RX. -/
  | shortChunk (present : Nat)
deriving DecidableEq, Repr

open Machine in
/-- The command `c` with its operand digits `ds` (R91: address digits, then value or length digits). -/
def Cmd.assemble (c : Cmd) (ds : List Byte) : Instr :=
  match c with
  | .r => .r (hexFold ds)
  | .w => .w (hexFold (ds.take 4)) (hexFold8 (ds.drop 4))
  | .d => .d (hexFold (ds.take 4)) (hexFold (ds.drop 4))
  | .p => .p (hexFold ds)

/-- The instruction at the front of RX in the given protocol mode, and the bytes behind it. -/
def decode (m : Mode) (bs : List Byte) : Except DecodeError (Instr × List Byte) :=
  match m with
  | .command =>
    match bs with
    | [] => .error .empty
    | c :: rest =>
      match Cmd.ofByte c with
      | none => .ok (.resync c, rest)
      | some k =>
        if k.digits ≤ rest.length then .ok (k.assemble (rest.take k.digits), rest.drop k.digits)
        else .error (.truncated k (k.digits - rest.length))
  | .bulk =>
    if Config.chunkSize ≤ bs.length then .ok (.chunk (bs.take Config.chunkSize), bs.drop Config.chunkSize)
    else .error (.shortChunk bs.length)

open Machine in
/-- The bytes of an instruction on its link: the host's bytes for a command or chunk, the block's byte for ACK, none for
the internal operations, which have no encoding on the serial link (30_encoding.md R105). Digits in upper case (R104). -/
def encode : Instr → List Byte
  | .r a => Cmd.r.byte :: (nibbles16 a).map hexUpper
  | .w a v => Cmd.w.byte :: ((nibbles16 a).map hexUpper ++ (nibbles8 v).map hexUpper)
  | .d a l => Cmd.d.byte :: ((nibbles16 a).map hexUpper ++ (nibbles16 l).map hexUpper)
  | .p a => Cmd.p.byte :: (nibbles16 a).map hexUpper
  | .resync c => [c]
  | .chunk bs => bs
  | .ack => [Config.ackByte]
  | .shiftBit _ | .shiftByte _ | .setAddress _ | .setBusDir _ | .readByte | .writeByte _ | .pulseWE | .readEEPROM _
  | .writeEEPROM _ _ | .readHexDigit | .readHex _ | .bpInit | .bpAwaitChunk | .bpWriteChunk | .bpAck | .bpAdvance
  | .bpComplete | .bpTimeout => []

/-- The protocol mode in which the host sends an instruction; `none` for what the host never sends. -/
def Instr.mode? : Instr → Option Mode
  | .r _ | .w _ _ | .d _ _ | .p _ | .resync _ => some .command
  | .chunk _ => some .bulk
  | .ack | .shiftBit _ | .shiftByte _ | .setAddress _ | .setBusDir _ | .readByte | .writeByte _ | .pulseWE
  | .readEEPROM _ | .writeEEPROM _ _ | .readHexDigit | .readHex _ | .bpInit | .bpAwaitChunk | .bpWriteChunk | .bpAck
  | .bpAdvance | .bpComplete | .bpTimeout => none

open Machine in
/-- The pin-level encoding of `setAddress` (30_encoding.md R99) and of the shorter shifts it is made of (R120, R121): the
levels of SER at the SCK pulses, first to last. -/
def encodePins : Instr → List Bool
  | .shiftBit b => [b]
  | .shiftByte v => bitsMsbFirst v
  | .setAddress a => shiftFrame a
  | .r _ | .w _ _ | .d _ _ | .p _ | .resync _ | .chunk _ | .ack | .setBusDir _ | .readByte | .writeByte _ | .pulseWE
  | .readEEPROM _ | .writeEEPROM _ _ | .readHexDigit | .readHex _ | .bpInit | .bpAwaitChunk | .bpWriteChunk | .bpAck
  | .bpAdvance | .bpComplete | .bpTimeout => []

/-- The sixteen-bit word that a bit string shifted in most significant bit first leaves in the chain (R21, R66). -/
def decodePins (bits : List Bool) : Word :=
  bits.foldl (fun v b => (v <<< 1) ||| (BitVec.ofBool b).setWidth 16) 0

/-- The first `n` bytes of a number, byte 0 the least significant. -/
def bytesOf (w : Nat) : Nat → List Byte
  | 0 => []
  | n + 1 => BitVec.ofNat 8 w :: bytesOf (w / 256) n

/-- Bytes a command occupies in RX, by its first byte alone (R96); a RESYNC byte occupies one. -/
def commandLength (c : Byte) : Nat :=
  match Cmd.ofByte c with
  | some k => 1 + k.digits
  | none => 1

/-- The bytes the table's word `w` of `nbits` bits stands for: its own bytes, and zeros up to the command's length; nothing
for a row without bits, which has no encoding. -/
def tableBytes (nbits w : Nat) : List Byte :=
  if nbits = 0 then []
  else bytesOf (w % 2 ^ nbits) (max (nbits / 8) (commandLength (BitVec.ofNat 8 (w % 2 ^ nbits))))

/-- The mode in which a table word is sent: a chunk has 128 bits, every other word is a command's (log 22). -/
def tableMode (nbits : Nat) : Mode := if nbits = 128 then .bulk else .command

/-- The instruction the decoder reads from a word numbered as spec/opcode_table.json numbers it; none for a row without
an encoding (no bits). -/
def decodeTableWord (nbits w : Nat) : Option Instr :=
  match decode (tableMode nbits) (tableBytes nbits w) with
  | .ok (i, _) => some i
  | .error _ => none

end Sys2Proof
end

