-- ==== Sys2Proof/Machine/Fetch.lean ====
section
/-!
DEFINITION. What the control thread does next by its control state (10_state.md R33, 43_line_protocol.md R182), and what the
world outside it does at the start of a step (log 12, log 24).
-/
namespace Sys2Proof.Machine

/-- What the control thread does in a step. -/
inductive Fetched where
  /-- It runs `i`, its bytes taken off RX. -/
  | run (i : Instr) (s : State)
  /-- It takes a command character or an operand digit, or sleeps because RX is empty. -/
  | stay (s : State)
  /-- It reads a register that holds no value, or RX that is empty. -/
  | stop (f : Fault)
deriving DecidableEq, Repr

/-- The protocol mode in which RX is read (60_exceptions.md R262, 30_encoding.md R103). -/
def Control.mode (c : Control) : Mode := if c.isBulk then .bulk else .command

/-- Digits of a command's second operand, 0 if it has none (R91). -/
def Cmd.tailDigits : Cmd → Nat
  | .r => 0
  | .w => 2
  | .d => 4
  | .p => 0

/-- `ReadHex` returns `v` inside the command `c`: the operand register takes it, and the next operand or the body follows (R33,
R47, R183 to R186). The first operand is the one read while OP_A holds no value. -/
def State.operandRead (s : State) (c : Cmd) (v : Word) : State :=
  match c with
  | .r => { s with opA := some v, cs := .exec .r }
  | .w =>
    if s.opA.isNone then { s with opA := some v, cs := .operands .w (Cmd.tailDigits .w) 0 }
    else { s with opV := some (v.setWidth 8), cs := .exec .w }
  | .d =>
    if s.opA.isNone then { s with opA := some v, cs := .operands .d (Cmd.tailDigits .d) 0 }
    else { s with opL := some v, cs := .exec .d }
  | .p => { s with opA := some v, cs := .bpInit }

/-- Go on with the value of an operand register, or stop because it holds none (U11). -/
def Fetched.need {α : Type} (r : Reg) (o : Option α) (k : α → Fetched) : Fetched :=
  match o with
  | some a => k a
  | none => .stop (.noValue r)

/-- The command whose body is to run, from the operand registers (R47). -/
def State.bodyOf (s : State) (c : Cmd) : Fetched :=
  match c with
  | .r => .need .opA s.opA fun a => .run (.r a) s
  | .w => .need .opA s.opA fun a => .need .opV s.opV fun v => .run (.w a v) s
  | .d => .need .opA s.opA fun a => .need .opL s.opL fun l => .run (.d a l) s
  | .p => .need .opA s.opA fun a => .run (.p a) s

/-- One activation of the control thread (R33, R182, R210). A command whose bytes are all in RX is taken whole; one that is
cut short is taken byte by byte as it arrives (log 20). -/
def State.fetch (s : State) : Fetched :=
  match s.cs with
  | .idle =>
    match decode .command s.rx with
    | .ok (i, rest) => .run i { s with rx := rest }
    | .error (.truncated c _) => .stay { s with rx := s.rx.drop 1, cs := .operands c 4 0 }
    | .error _ => .stay s.sleep
  | .operands c 0 v => .stay (s.operandRead c v)
  | .operands c (k + 1) v =>
    match s.readHexDigit with
    | none => .stay s.sleep
    | some (d, s1) => .stay { s1 with cs := .operands c k (v * 16 + d.setWidth 16) }
  | .exec c => s.bodyOf c
  | .bpInit => .run .bpInit s
  | .bpAwait => .run .bpAwaitChunk s
  | .bpWrite =>
    match decode .bulk s.rx with
    | .ok (i, rest) => .run i { s with rx := rest }
    | .error _ => .stop .rxEmpty
  | .bpAck => .run .bpAck s
  | .bpAdvance => .run .bpAdvance s

/-- The writes the thread's next activation makes to the chip: presented address and byte, in order (R184, R213). -/
def State.writesAhead (s : State) : List (Word × Byte) :=
  match s.fetch with
  | .run (.w a v) _ => [(a, v)]
  | .run (.chunk bs) s1 =>
    match s1.cursor with
    | some cur => bs.zipIdx.map fun x => (trunc16 (cur + x.2), x.1)
    | none => []
  | _ => []

/-- The line writes and waits of the writes the thread's next activation makes, in order, each byte followed by the inter-byte
delay (R162, R213): what a reset can fall into (R290). After a `W` that last wait makes no difference. -/
def State.eventsAhead (s : State) : List PinEvent :=
  s.writesAhead.flatMap fun w => writeEEPROMEvents w.1 w.2 ++ [.wait Config.interByteUs]

/-- What the world outside the control thread has made of the state at the start of a step. -/
inductive Env where
  /-- The control thread goes on from here; the bytes of `meanwhile` land while it acts. -/
  | go (s : State) (meanwhile : List (List Byte))
  /-- A reset happened: this is the state after boot (R290). -/
  | restarted (s : State)
  /-- The host sent more than RX can hold (R302, U9). -/
  | overrun
deriving DecidableEq, Repr

/-- `us` microseconds pass, bytes land in RX, pending bytes leave (R15, R36, R37, R40). -/
def State.pass (s : State) (us : Nat) (arrive : List Byte) (leave : Nat) (rest : List EnvMove) : State :=
  { s.delayUs us with
    rx := s.rx ++ arrive
    txSent := min (s.txSent + leave) s.tx.length
    script := rest }

/-- Has RX room for the bytes `arrive` behind those it holds (R302)? -/
def State.hasRoom (s : State) (arrive : List Byte) : Bool :=
  arrive.isEmpty || decide (s.rx.length + arrive.length ≤ Config.rxCapacity)

/-- The chip's cells when a reset falls after the first `events` events of the thread's next activation (R290, R70). -/
def State.memCut (s : State) (events : Nat) : Memory := (s.pins (s.eventsAhead.take events)).memAtReset

/-- The outside world's next move. When the script is over the host is silent, and the surplus of time and the bytes that
leave are free values (log 12). -/
def State.environment (s : State) : Env :=
  match s.script with
  | [] => .go { s.pass (Config.slackUs s.draws) [] (Config.leaving s.draws) [] with draws := s.draws + 1 } []
  | .pass us bs n meanwhile :: rest => if s.hasRoom bs then .go (s.pass us bs n rest) meanwhile else .overrun
  | .reset :: rest => .restarted (s.restart s.memAtReset rest)
  | .resetWithin us bs events :: rest =>
    if s.hasRoom bs then .restarted (s.restart ((s.pass us bs 0 rest).memCut events) rest) else .overrun

/-- The bytes in RX, those that land meanwhile aside, while the `k`-th byte of the activation from `s` to `t` is written: a
chunk's bytes are popped one before each write (R213), every other operation has then popped what it takes (R188). -/
def State.occupancy (s t : State) (k : Nat) : Nat :=
  if s.cs = .bpWrite then max (s.rx.length - (k + 1)) t.rx.length else t.rx.length

/-- Is the thread's next activation a RESYNC, which drains RX (R187)? -/
def State.drainAhead (s : State) : Bool :=
  match s.fetch with
  | .run (.resync _) _ => true
  | _ => false

/-- The bytes of `meanwhile` that a RESYNC drains: they land between its `RxPop` and its `RxDrain` (R187, D27). -/
def State.drained (s : State) (meanwhile : List (List Byte)) : List Byte :=
  if s.drainAhead then meanwhile.headD [] else []

/-- The bytes of `meanwhile` that are kept: all but those a RESYNC drains (R187, D27). -/
def State.kept (s : State) (meanwhile : List (List Byte)) : List (List Byte) :=
  if s.drainAhead then meanwhile.drop 1 else meanwhile

/-- Did the bytes of `meanwhile` find room when they came (R302)? Those a RESYNC drains came when it had taken its own byte. -/
def State.fits (s : State) (meanwhile : List (List Byte)) (t : State) : Bool :=
  ((s.drained meanwhile).isEmpty ||
    decide (s.rx.length - 1 + (s.drained meanwhile).length ≤ Config.rxCapacity)) &&
  ((s.kept meanwhile).flatten.isEmpty || (List.range (s.kept meanwhile).length).all fun k =>
    decide (s.occupancy t k + ((s.kept meanwhile).take (k + 1)).flatten.length ≤ Config.rxCapacity))

/-- The activation from `s` to `t` while the bytes of `meanwhile` land: those that are kept stand behind what it left in RX,
unless a byte did not fit when it came (R36, R302, D25). -/
def State.land (s : State) (meanwhile : List (List Byte)) (t : State) : Host.Outcome State Fault Refusal :=
  if s.fits meanwhile t then .next { t with rx := t.rx ++ (s.kept meanwhile).flatten }
  else .refused .inputOverrun

end Sys2Proof.Machine
end

