-- ==== Sys2Proof/Machine/Step.lean ====
section
/-!
DEFINITION. One step of the machine: the outside world's move, then one activation of the control thread.
-/
namespace Sys2Proof.Machine

/-- One activation of the control thread from `s`. -/
def State.thread (s : State) : Host.Outcome State Fault Refusal :=
  match s.fetch with
  | .run i s1 => exec i s1
  | .stay s1 => .next s1
  | .stop f => .fault f

/-- One step (R15, R33, R182, R257): what the host, time or a reset does, then what the control thread does, while more bytes
may land. -/
def step (s : State) : Host.Outcome State Fault Refusal :=
  match s.environment with
  | .go s1 meanwhile => andThen s1.thread (s1.land meanwhile)
  | .restarted s1 => .next s1
  | .overrun => .refused .inputOverrun

/-- `s` with the bytes of a table word as all of RX, the control thread about to take them, and the outside world making
one move in which no time passes and nothing arrives: at CS = IDLE for a command, inside a session for a chunk (log 22). -/
def State.withFetchWord (s : State) (nbits w : Nat) : State :=
  match tableMode nbits with
  | .command => { s with rx := tableBytes nbits w, cs := .idle, script := [.pass 0 [] 0 []] }
  | .bulk =>
    { s with
      rx := tableBytes nbits w, cs := .bpWrite, script := [.pass 0 [] 0 []], inWait := false
      opA := some (s.opA.getD 0), start := some (s.start.getD 0), maxb := some (s.maxb.getD (maxbOf 0))
      cursor := some (s.cursor.getD 0), t0 := some (s.t0.getD 0) }

end Sys2Proof.Machine
end

