-- ==== Sys2Proof/Safety.lean ====
section
/-!
DEFINITION. What a good state is, and the terms in which claims about the machine are made.
-/
namespace Sys2Proof.Machine

/-! ## The state between two steps of a reachable machine -/

/-- The pins as every operation leaves them: SCK low, RCK high, WE_N high, DIR all IN or all OUT, no write cycle going on
(10_state.md R24, R26, R41; 40_address_mux.md R125). -/
def State.pinsAtRest (s : State) : Bool :=
  !s.sck && s.rck && s.weN && s.busyUs == 0 && (s.dir == 0x00 || s.dir == 0xFF)

/-- No session register holds a value (R46). -/
def State.noSession (s : State) : Bool :=
  s.start.isNone && s.maxb.isNone && s.cursor.isNone && s.idx.isNone && s.t0.isNone && !s.inWait

/-- No operand register holds a value (R47). -/
def State.noOperands (s : State) : Bool := s.opA.isNone && s.opV.isNone && s.opL.isNone

/-- The registers of an open session between its steps: MAXB by R29; CURSOR a whole number of chunks above START and, but
for the first chunk, inside the chip (R215). -/
def State.sessionOpen (s : State) : Bool :=
  s.idx.isNone && s.opA == s.start && s.opV.isNone && s.opL.isNone &&
  match s.start, s.maxb, s.cursor with
  | some st, some mb, some cur =>
    mb == maxbOf st && decide (st.toNat ≤ cur) && decide ((cur - st.toNat) % Config.chunkSize = 0) &&
    (decide (cur = st.toNat) || decide (cur < Config.chipSize))
  | _, _, _ => false

/-- Digits of the operand of `c` that is being read: the address while OP_A holds no value, else the second one (R91). -/
def State.operandDigits (s : State) (c : Cmd) : Nat := if s.opA.isNone then 4 else Cmd.tailDigits c

/-- Which registers hold a value in each control state (R33, R46, R47, R210). -/
def State.controlOk (s : State) : Bool :=
  match s.cs with
  | .idle => s.noOperands && s.noSession
  | .operands c k v =>
    s.noSession && s.opV.isNone && s.opL.isNone && (s.opA.isNone || decide (0 < Cmd.tailDigits c)) &&
    decide (k ≤ s.operandDigits c) && decide (v.toNat < 16 ^ (s.operandDigits c - k))
  | .exec .r => s.noSession && s.opA.isSome && s.opV.isNone && s.opL.isNone
  | .exec .w => s.noSession && s.opA.isSome && s.opV.isSome && s.opL.isNone
  | .exec .d => s.noSession && s.opA.isSome && s.opV.isNone && s.opL.isSome
  | .exec .p => false
  | .bpInit => s.noSession && s.opA.isSome && s.opV.isNone && s.opL.isNone
  | .bpAwait => s.sessionOpen && (!s.inWait || s.t0.isSome)
  | .bpWrite => s.sessionOpen && s.t0.isSome && !s.inWait && s.chunkAvailable
  | .bpAck => s.sessionOpen && s.t0.isSome && !s.inWait
  | .bpAdvance => s.sessionOpen && s.t0.isSome && !s.inWait

/-- The invariant of the machine between steps. -/
def Inv (s : State) : Prop :=
  s.pinsAtRest = true ∧ s.controlOk = true ∧ Memory.wf s.mem = true ∧
  s.txSent ≤ s.tx.length ∧ s.rx.length ≤ Config.rxCapacity

/-- A move in which the host sends nothing. -/
def EnvMove.silent : EnvMove → Bool
  | .pass _ arrive _ meanwhile => arrive.isEmpty && meanwhile.flatten.isEmpty
  | .reset => true
  | .resetWithin _ arrive _ => arrive.isEmpty

/-- A run is over (43_line_protocol.md R190): IDLE, nothing to read, the host will send nothing more, all output delivered, no
write cycle going on. -/
def State.quiescent (s : State) : Prop :=
  s.cs = .idle ∧ s.rx = [] ∧ s.script.all EnvMove.silent = true ∧ s.txSent = s.tx.length ∧ s.wBusy = false

/-! ## Terms of claims -/

/-- `s` after a `setAddress(a)`: all five pieces of ADDRMUX (R122, R125). -/
def State.pointedAt (s : State) (a : Word) : State :=
  { s with ser := a.getLsbD 0, sck := false, rck := true, sr := a, al := a }

/-- The text of a whole dump of the bytes `bs` from address `a`: lines of sixteen, the last possibly shorter (R185). -/
def dumpText (a : Word) (bs : List Byte) : List Byte :=
  (List.range ((bs.length + 15) / 16)).flatMap fun l =>
    dumpLine (a + BitVec.ofNat 16 (16 * l)) ((bs.drop (16 * l)).take 16)

/-- The writes of a chunk: byte k to `trunc_16(cur + k)` (20_memory.md R68). -/
def chunkWrites (cur : Nat) (bs : List Byte) : List (Word × Byte) :=
  bs.zipIdx.map fun x => (trunc16 (cur + x.2), x.1)

/-- How many bytes 0x06 are in a byte string (R98). -/
def ackCount (bs : List Byte) : Nat := bs.count Config.ackByte

/-- The operations that present an address: they call `setAddress` (43_line_protocol.md R191). -/
def presentsAddress : Instr → Bool
  | .r _ | .w _ _ | .d _ _ | .chunk _ | .setAddress _ | .readEEPROM _ | .writeEEPROM _ _ | .bpWriteChunk => true
  | .p _ | .resync _ | .ack | .shiftBit _ | .shiftByte _ | .setBusDir _ | .readByte | .writeByte _ | .pulseWE
  | .readHexDigit | .readHex _ | .bpInit | .bpAwaitChunk | .bpAck | .bpAdvance | .bpComplete | .bpTimeout => false

/-- The operations that pulse WE_N: the only ones that reach the chip's cells (20_memory.md R61). -/
def pulsesWE : Instr → Bool
  | .w _ _ | .chunk _ | .pulseWE | .writeEEPROM _ _ | .bpWriteChunk => true
  | .r _ | .d _ _ | .p _ | .resync _ | .ack | .shiftBit _ | .shiftByte _ | .setAddress _ | .setBusDir _ | .readByte
  | .writeByte _ | .readEEPROM _ | .readHexDigit | .readHex _ | .bpInit | .bpAwaitChunk | .bpAck | .bpAdvance
  | .bpComplete | .bpTimeout => false

/-- A read or a write of one cell by itself. -/
inductive Access where
  | read (a : Word)
  | write (a : Word) (v : Byte)
deriving DecidableEq, Repr

/-- The presented address of an access. -/
def Access.addr : Access → Word
  | .read a => a
  | .write a _ => a

/-- An access as an operation of the block. -/
def Access.instr : Access → Instr
  | .read a => .readEEPROM a
  | .write a v => .writeEEPROM a v

/-- Operations one after the other, stopping at the first that does not answer. -/
def execAll : List Instr → State → Host.Outcome State Fault Refusal
  | [], s => .next s
  | i :: is, s => andThen (exec i s) (execAll is)

/-- The addresses the operation `i` run from `s` stores to (20_memory.md R61, R68; 44_bulk_program.md R213). -/
def storesTo (i : Instr) (s : State) : List Word :=
  match i with
  | .w a _ | .writeEEPROM a _ => [a]
  | .pulseWE => [s.al]
  | .chunk bs => s.cursor.toList.flatMap fun cur => (List.range bs.length).map fun k => trunc16 (cur + k)
  | .bpWriteChunk => s.cursor.toList.flatMap fun cur => (List.range Config.chunkSize).map fun k => trunc16 (cur + k)
  | .r _ | .d _ _ | .p _ | .resync _ | .ack | .shiftBit _ | .shiftByte _ | .setAddress _ | .setBusDir _ | .readByte
  | .writeByte _ | .readEEPROM _ | .readHexDigit | .readHex _ | .bpInit | .bpAwaitChunk | .bpAck | .bpAdvance
  | .bpComplete | .bpTimeout => []

/-- No operation of the list, run one after the other from `s`, stores in cell `c` (42_byte_access.md R165). -/
def Undisturbed (c : Nat) : List Instr → State → Prop
  | [], _ => True
  | i :: is, s => (∀ a ∈ storesTo i s, Config.cell a ≠ some c) ∧ ∀ t, exec i s = .next t → Undisturbed c is t

/-- Activations of a command taken digit by digit, from behind its letter: one a digit, one an operand, one for the body; the
body of `P` is its session (43_line_protocol.md R181 to R186). -/
def Cmd.slowSteps : Cmd → Nat
  | .r => 4 + 1 + 1
  | .w => 6 + 2 + 1
  | .d => 8 + 2 + 1
  | .p => 4 + 1

/-- A host that sends each chunk while the block waits for it and nothing at any other time (44_bulk_program.md R224):
four steps a chunk, with whatever time and departures. -/
def StopAndWait : List (List Byte) → List EnvMove → Prop
  | [], m => m = []
  | c :: cs, .pass _ b _ [] :: .pass _ [] _ [] :: .pass _ [] _ [] :: .pass _ [] _ [] :: m =>
    b = c ∧ c.length = Config.chunkSize ∧ StopAndWait cs m
  | _ :: _, _ => False

/-- A move of the outside world in which no time passes and nothing arrives or leaves. -/
def EnvMove.quiet : EnvMove := .pass 0 [] 0 []

end Sys2Proof.Machine
end

