-- ==== Sys2Proof/Certificates/Slice0/Obligations.lean ====
section
/-!
DEFINITION. The statements about the machine, for the provers.
-/
open Sys2Proof Sys2Proof.Machine

/-! ## Encodings -/

/-- Decoding what the encoder writes gives the instruction back, whatever follows it in RX: for every well-formed
instruction the host can send, in the protocol mode it is sent in (30_encoding.md sections 2 to 5). The upper-case
digits of the encoder are those of the source's examples. -/
def Obligations.DecodeEncodeRoundTrip : Prop :=
  ∀ (i : Instr) (m : Mode) (rest : List Byte), i.wf = true → i.mode? = some m →
    decode m (encode i ++ rest) = .ok (i, rest)

/-- The bytes of RX in command mode: the first byte alone decides how many bytes the command takes, 5 for `R` and `P`,
7 for `W`, 9 for `D`, and 1 before the drain for any other byte; if they are there a well-formed instruction is
decoded, whatever the operand bytes are, and exactly they are taken; if not, the decoder waits (30_encoding.md
sections 4 and 7). A command character followed by its digit bytes, whatever they are, decodes to that command with
the operands these bytes stand for (30_encoding.md sections 2 and 3). -/
def Obligations.CommandLengthByFirstByte : Prop :=
  commandLength 0x52 = 5 ∧ commandLength 0x50 = 5 ∧ commandLength 0x57 = 7 ∧ commandLength 0x44 = 9 ∧
  (∀ c : Byte, c ≠ 0x52 → c ≠ 0x50 → c ≠ 0x57 → c ≠ 0x44 → commandLength c = 1) ∧
  (∀ (c : Byte) (rest : List Byte),
    (commandLength c ≤ rest.length + 1 →
      ∃ i : Instr, i.wf = true ∧ decode .command (c :: rest) = .ok (i, rest.drop (commandLength c - 1))) ∧
    (rest.length + 1 < commandLength c →
      ∃ k : Cmd, decode .command (c :: rest) = .error (.truncated k (commandLength c - (rest.length + 1))))) ∧
  ∀ (k : Cmd) (ds rest : List Byte), ds.length = k.digits →
    decode .command (k.byte :: (ds ++ rest)) = .ok (k.assemble ds, rest)

/-- `hexval` (30_encoding.md R93), byte by byte. Lower-case letters rest on the spec's decision D18 (HEX_LOWER, log
7). -/
def Obligations.HexDigitValues : Prop :=
  ∀ c : Byte,
    (0x30 ≤ c.toNat → c.toNat ≤ 0x39 → (hexval c).toNat = c.toNat - 0x30) ∧
    (0x41 ≤ c.toNat → c.toNat ≤ 0x46 → (hexval c).toNat = c.toNat - 0x41 + 10) ∧
    (0x61 ≤ c.toNat → c.toNat ≤ 0x66 → (hexval c).toNat = if Config.hexLower then c.toNat - 0x61 + 10 else 0) ∧
    (¬ (0x30 ≤ c.toNat ∧ c.toNat ≤ 0x39) → ¬ (0x41 ≤ c.toNat ∧ c.toNat ≤ 0x46) →
      ¬ (0x61 ≤ c.toNat ∧ c.toNat ≤ 0x66) → hexval c = 0)

/-- An operand of four or two digits (30_encoding.md R94): exactly its bytes are taken off RX, whatever they are,
nothing else changes, and its value is the sum of the digit values times powers of 16. -/
def Obligations.OperandValueAndBytesTaken : Prop :=
  (∀ (s : State) (d3 d2 d1 d0 : Byte) (rest : List Byte), s.rx = d3 :: d2 :: d1 :: d0 :: rest →
    ∃ v : Word, s.readHex 4 0 = (0, v, { s with rx := rest }) ∧
      v.toNat = (hexval d3).toNat * 4096 + (hexval d2).toNat * 256 + (hexval d1).toNat * 16 + (hexval d0).toNat) ∧
  (∀ (s : State) (d1 d0 : Byte) (rest : List Byte), s.rx = d1 :: d0 :: rest →
    ∃ v : Word, s.readHex 2 0 = (0, v, { s with rx := rest }) ∧
      v.toNat = (hexval d1).toNat * 16 + (hexval d0).toNat)

/-- The length operand of `D` (30_encoding.md R95). The range is the spec's own inference in R95. -/
def Obligations.DumpCountOfLength : Prop :=
  ∀ len : Word, dumpCount len = (if len = 0 then 16 else len.toNat) ∧ 1 ≤ dumpCount len ∧ dumpCount len ≤ 65535

/-- Words written out from the encoding tables decode to the commands they stand for (30_encoding.md R92, R104; a
sanity statement): `R00FF`, `W123455`, `D00050020`, `P1FE0`, a line feed, and a chunk of sixteen bytes. -/
def Obligations.SampleWordsDecode : Prop :=
  decode .command [0x52, 0x30, 0x30, 0x46, 0x46] = .ok (.r 0x00FF, []) ∧
  decode .command [0x57, 0x31, 0x32, 0x33, 0x34, 0x35, 0x35] = .ok (.w 0x1234 0x55, []) ∧
  decode .command [0x44, 0x30, 0x30, 0x30, 0x35, 0x30, 0x30, 0x32, 0x30] = .ok (.d 0x0005 0x0020, []) ∧
  decode .command [0x50, 0x31, 0x46, 0x45, 0x30] = .ok (.p 0x1FE0, []) ∧
  decode .command [0x0A, 0x52] = .ok (.resync 0x0A, [0x52]) ∧
  decode .bulk [0x52, 1, 2, 3, 4, 5, 6, 7, 8, 9, 10, 11, 12, 13, 14, 15, 0x57] =
    .ok (.chunk [0x52, 1, 2, 3, 4, 5, 6, 7, 8, 9, 10, 11, 12, 13, 14, 15], [0x57])

/-! ## Address multiplexer -/

/-- `ShiftBit(b)` completes from every state (40_address_mux.md R120): SER takes the bit, SCK is low, the bit enters
SR at the low end if SCK was low before (if it was high there is no edge and no shift), and nothing else changes. R120
is the spec's own expansion of "shift out" (decision D3). -/
def Obligations.ShiftBitMovesTheChain : Prop :=
  ∀ (s : State) (b : Bool),
    exec (.shiftBit b) s = .next { s with
      ser := b, sck := false
      sr := if s.sck then s.sr else (s.sr <<< 1) ||| (BitVec.ofBool b).setWidth 16 }

/-- `ShiftByte(v)` completes whenever SCK is low (40_address_mux.md R121): the low half of SR moves up, the byte takes
its place, SER is left at its bit 0, and nothing else changes. It is the eight bits one after the other, most
significant first, from every state, and eight pulses are issued whatever the byte is. -/
def Obligations.ShiftByteMovesEightBits : Prop :=
  (∀ (s : State) (v : Byte), s.sck = false →
    exec (.shiftByte v) s = .next { s with
      ser := v.getLsbD 0, sck := false, sr := (s.sr <<< 8) ||| v.setWidth 16 }) ∧
  (∀ (s : State) (v : Byte), exec (.shiftByte v) s = .next (s.pins (shiftBitsEvents (bitsMsbFirst v)))) ∧
  ∀ v : Byte, (shiftBitsEvents (bitsMsbFirst v)).count (.sck true) = 8

/-- `setAddress(a)` completes whenever SCK is low, for every address and whatever SR, AL and RCK held
(40_address_mux.md R122): SR and AL hold the address, RCK is high, SCK low, SER at the address's bit 0, and nothing
else changes. The full frame of 50 line writes is issued whatever AL held. The count of 50 line writes is R127, the
spec's own inference from R120 to R122, with its decision D3 behind R120. -/
def Obligations.SetAddressPresentsAddress : Prop :=
  ∀ (s : State) (a : Word), s.sck = false →
    exec (.setAddress a) s = .next { s with ser := a.getLsbD 0, sck := false, rck := true, sr := a, al := a } ∧
    s.setAddress a = s.pins (setAddressEvents a) ∧ (setAddressEvents a).length = 50

/-- The shift frame (30_encoding.md R99): RCK falls, the sixteen bits a15 to a0 go out on SER, each with one SCK
pulse, RCK rises. So the bits on SER, shifted in, give the address back. That the bits give the address back is R66,
the spec's own inference, over the chain numbering of its decision D4. -/
def Obligations.ShiftFrameOrder : Prop :=
  ∀ a : Word,
    setAddressEvents a =
      .rck false :: ((List.range 16).flatMap fun k => [.ser (a.getLsbD (15 - k)), .sck true, .sck false]) ++ [.rck true] ∧
    decodePins (encodePins (.setAddress a)) = a

/-- The address lines do not ripple (40_address_mux.md R126): in every state of a `setAddress` but the last AL still
holds the old address; in the last it holds the new one; WE_N, DIR, DOUT and the cells are the same throughout. R126
is the spec's decision D5; the rest is R122. -/
def Obligations.AddressLatchHoldsWhileShifting : Prop :=
  ∀ (s : State) (a : Word), s.sck = false →
    (∀ u ∈ (s.pinTrace (setAddressEvents a)).dropLast, u.al = s.al) ∧
    (∀ u ∈ (s.pinTrace (setAddressEvents a)).getLast?, u.al = a) ∧
    (∀ u ∈ s.pinTrace (setAddressEvents a), u.weN = s.weN ∧ u.dir = s.dir ∧ u.dout = s.dout ∧ u.mem = s.mem)

/-- After `setAddress(a)` AL = SR = a, RCK is high and SCK low (40_address_mux.md R125), and no operation but those
that call `setAddress` changes AL or RCK, nor, but for the bit shifts it is made of, SCK. R125 is the spec's own
inference from R120, R122, R123. -/
def Obligations.AddressStaysUntilNextSetAddress : Prop :=
  (∀ (s : State) (a : Word), s.sck = false →
    ∃ t, exec (.setAddress a) s = .next t ∧ t.al = a ∧ t.sr = a ∧ t.rck = true ∧ t.sck = false) ∧
  ∀ (i : Instr) (s t : State), presentsAddress i = false → exec i s = .next t →
    t.al = s.al ∧ t.rck = s.rck ∧
    ((∀ b, i ≠ .shiftBit b) → (∀ v, i ≠ .shiftByte v) → t.sck = s.sck ∧ t.ser = s.ser ∧ t.sr = s.sr)

/-! ## Data bus -/

/-- `SetBusDir(d)` completes from every state (41_data_bus.md R140): all eight flags, DOUT and everything else
unchanged. Whole-bus effect only: the order of the eight lines (D7) is not observable. -/
def Obligations.SetBusDirSetsAllLines : Prop :=
  ∀ s : State,
    exec (.setBusDir .inp) s = .next { s with dir := 0x00 } ∧
    exec (.setBusDir .out) s = .next { s with dir := 0xFF }

/-- `readByte()` completes when all lines are IN and no write cycle is going on (41_data_bus.md section 2,
20_memory.md section 1): it returns the selected cell, or any byte if AL selects none, and changes nothing else but
the draw counter in that last case. With a line OUT it has no meaning and refuses, and so it does while a write cycle
is going on. The refusals are the spec's D8 and U5 (log 16), the free byte its U1 (log 5, log 6), `ret` is the model's
(log 21). -/
def Obligations.ReadByteSamplesTheChip : Prop :=
  ∀ s : State,
    (s.dir = 0x00 → s.wBusy = false →
      ∃ v : Byte, (∀ c, Config.cell s.al = some c → v = Memory.cell s.mem c) ∧
        exec .readByte s = .next { s with
          ret := some (v.setWidth 16), draws := if (Config.cell s.al).isSome then s.draws else s.draws + 1 }) ∧
    (s.dir ≠ 0x00 → exec .readByte s = .refused .busDirection) ∧
    (s.dir = 0x00 → s.wBusy = true → exec .readByte s = .refused .chipBusy)

/-- `writeByte(v)` completes when all lines are OUT (41_data_bus.md R142): DOUT and with it the bus hold the value and
nothing else changes, no cell in particular; otherwise it has no meaning and refuses. The refusal is the spec's
decision D8 (log 16). -/
def Obligations.WriteByteDrivesTheLines : Prop :=
  ∀ (s : State) (v : Byte),
    (s.dir = 0xFF → exec (.writeByte v) s = .next { s with dout := v } ∧ ({ s with dout := v } : State).busLevel = v) ∧
    (s.dir ≠ 0xFF → exec (.writeByte v) s = .refused .busDirection)

/-- The level of each data line (41_data_bus.md section 1): DOUT's bit on a line that is OUT, the chip's on one that
is IN. No level of a contended line is meant: premise U3 (log 17). -/
def Obligations.LineLevelByDirection : Prop :=
  ∀ (s : State) (i : Nat), i < 8 →
    s.busLevel.getLsbD i = if s.dir.getLsbD i then s.dout.getLsbD i else s.chipOut.getLsbD i

/-! ## Byte access -/

/-- `PulseWE()` completes when all lines are OUT and no write cycle is going on (42_byte_access.md): WE_N is high, at
least a microsecond has passed, the selected cell holds DOUT and W_BUSY is true; if AL selects no cell, none changes
and no write cycle begins. Every other cell is as before, and nothing else changes. Otherwise it refuses. The refusals
are the spec's D8 and U5 (log 16); the instant of the write its D10; an address that selects no cell U1 (log 5). That
exactly a microsecond passes is the model's (log 13): the spec gives a lower bound. `busyAt` is the model's own field
(log 24). -/
def Obligations.PulseWEWritesTheSelectedCell : Prop :=
  ∀ s : State,
    (s.dir = 0xFF → s.wBusy = false → ∃ t, exec .pulseWE s = .next t ∧
      t = { s with weN := true, clockUs := s.clockUs + 1, mem := t.mem, busyUs := t.busyUs, busyAt := s.al } ∧
      t.wBusy = (Config.cell s.al).isSome ∧
      ∀ d, Memory.cell t.mem d = if Config.cell s.al = some d then s.dout else Memory.cell s.mem d) ∧
    (s.dir ≠ 0xFF → exec .pulseWE s = .refused .busDirection) ∧
    (s.dir = 0xFF → s.wBusy = true → exec .pulseWE s = .refused .chipBusy)

/-- `readEEPROM(a)` completes from every state with SCK low and no write cycle going on (42_byte_access.md): all lines
IN, ADDRMUX at the address; it returns the selected cell (no draw is made), or any byte if there is none (one draw);
no time passes, and nothing else changes: DOUT, WE_N and every cell are as before. The free byte is U1 (log 5, log 6),
`ret` is the model's (log 21), that no time passes its log 13. -/
def Obligations.ReadEEPROMLoadsOneByte : Prop :=
  ∀ (s : State) (a : Word), s.sck = false → s.wBusy = false →
    ∃ v : Byte, (∀ c, Config.cell a = some c → v = Memory.cell s.mem c) ∧
      exec (.readEEPROM a) s = .next { s with
        ser := a.getLsbD 0, sck := false, rck := true, sr := a, al := a, dir := 0x00
        ret := some (v.setWidth 16), draws := if (Config.cell a).isSome then s.draws else s.draws + 1 }

/-- `writeEEPROM(a, v)` completes from every state with SCK low and no write cycle going on (42_byte_access.md): all
lines OUT with DOUT = v, ADDRMUX at the address, WE_N high, W_BUSY false, 10.001 ms passed, the selected cell, if any,
written and every other cell as before, and nothing else changed. An address that selects no cell is U1 (log 5); the
delays are taken at their lower bounds (log 13). `busyAt` is the model's own field (log 24). -/
def Obligations.WriteEEPROMStoresOneByte : Prop :=
  ∀ (s : State) (a : Word) (v : Byte), s.sck = false → s.wBusy = false →
    ∃ m : Memory, (∀ d, Memory.cell m d = if Config.cell a = some d then v else Memory.cell s.mem d) ∧
      exec (.writeEEPROM a v) s = .next { s with
        ser := a.getLsbD 0, sck := false, rck := true, sr := a, al := a, dir := 0xFF, dout := v, weN := true
        busyUs := 0, busyAt := a, clockUs := s.clockUs + 10001, mem := m }

/-- The round trip (42_byte_access.md R165): a byte written to a cell of the chip is read back after any operations
that store nothing in that cell, as long as no write cycle is going on at the read; and such a run always completes
where the operations in between are reads and writes of other cells by themselves. R165 is the spec's own inference;
the source states the immediate form of it. -/
def Obligations.WrittenByteReadsBack : Prop :=
  (∀ (s t u : State) (a : Word) (v : Byte) (others : List Instr),
    a.toNat < 8192 → s.sck = false → s.wBusy = false →
    exec (.writeEEPROM a v) s = .next t → Undisturbed a.toNat others t → execAll others t = .next u → u.wBusy = false →
    ∃ w, exec (.readEEPROM a) u = .next w ∧ w.ret = some (v.setWidth 16)) ∧
  ∀ (s : State) (a : Word) (v : Byte) (others : List Access),
    a.toNat < 8192 → s.sck = false → s.wBusy = false →
    (∀ x ∈ others, x.addr.toNat < 8192 ∧ x.addr ≠ a) →
    ∃ t, execAll ((.writeEEPROM a v :: others.map Access.instr) ++ [.readEEPROM a]) s = .next t ∧
      t.ret = some (v.setWidth 16)

/-- Inside a `writeEEPROM` (70_reset_and_hazards.md section 3): the operation is its pin events in order, and in every
state of them in which WE_N is low the lines are OUT and carry the new byte and AL holds the new address: the stale
byte of an earlier write and the old address are never strobed. -/
def Obligations.StrobeOnlyOverSettledLines : Prop :=
  ∀ (s : State) (a : Word) (v : Byte), s.sck = false → s.wBusy = false → s.weN = true →
    exec (.writeEEPROM a v) s = .next (s.pins (writeEEPROMEvents a v)) ∧
    ∀ u ∈ s.pinTrace (writeEEPROMEvents a v), u.weN = false → u.dir = 0xFF ∧ u.busLevel = v ∧ u.al = a

/-- The cells change only by a write pulse (20_memory.md section 1): an operation that pulses WE_N nowhere leaves them
all as they are. -/
def Obligations.CellsChangeOnlyByWritePulse : Prop :=
  ∀ (i : Instr) (s t : State), pulsesWE i = false → exec i s = .next t → t.mem = s.mem

/-- Where the storing operations store (20_memory.md sections 1 and 2): `W` and `writeEEPROM` to the cell their
address selects, `PulseWE` to the cell AL selects, a chunk's byte k to the cell that `trunc_16(CURSOR + k)` selects;
every other cell reads as before. That byte k goes to CURSOR + k is the spec's decision D14. -/
def Obligations.StoresTouchOnlyTheirCells : Prop :=
  ∀ s t : State, s.sck = false →
    (∀ a v, exec (.writeEEPROM a v) s = .next t → ∀ d, Config.cell a ≠ some d → Memory.cell t.mem d = Memory.cell s.mem d) ∧
    (∀ a v, exec (.w a v) s = .next t → ∀ d, Config.cell a ≠ some d → Memory.cell t.mem d = Memory.cell s.mem d) ∧
    (exec .pulseWE s = .next t → ∀ d, Config.cell s.al ≠ some d → Memory.cell t.mem d = Memory.cell s.mem d) ∧
    (∀ bs cur, s.cursor = some cur → exec (.chunk bs) s = .next t →
      ∀ d, (∀ k, k < bs.length → Config.cell (trunc16 (cur + k)) ≠ some d) → Memory.cell t.mem d = Memory.cell s.mem d) ∧
    (∀ cur, s.cursor = some cur → exec .bpWriteChunk s = .next t →
      ∀ d, (∀ k, k < 16 → Config.cell (trunc16 (cur + k)) ≠ some d) → Memory.cell t.mem d = Memory.cell s.mem d)

/-! ## Operand readers and commands -/

/-- `ReadHexDigit()` completes whenever a byte is in RX (43_line_protocol.md R180): the oldest byte is taken and its
digit returned, 0 for a byte that is none, and nothing else changes. With RX empty it sleeps, without any timeout:
only time passes. `ret` is the model's (log 21), and so is the length of the sleep of one activation (log 11). -/
def Obligations.ReadHexDigitTakesOneByte : Prop :=
  (∀ (s : State) (c : Byte) (rest : List Byte), s.rx = c :: rest →
    exec .readHexDigit s = .next { s with rx := rest, ret := some ((hexval c).setWidth 16) }) ∧
  ∀ s : State, s.rx = [] → exec .readHexDigit s = .next s.sleep

/-- `ReadHex(n)`, n = 2 or 4, from its start or where it waits with k digits still to read and the value v so far
(43_line_protocol.md section 1): it completes whenever those k bytes are in RX; exactly they are taken, whatever they
are, and the value returned; nothing else changes. With fewer it takes each byte that is there and sleeps, without any
timeout. What it holds while it waits is the model's field `reading` (log 25), what it returns `ret` (log 21). -/
def Obligations.ReadHexTakesItsDigits : Prop :=
  ∀ (s : State) (n k : Nat) (v : Word), n = 2 ∨ n = 4 →
    (s.reading = none ∧ k = n ∧ v = 0) ∨ s.reading = some (k, v) →
    (k ≤ s.rx.length →
      exec (.readHex n) s = .next { s with
        rx := s.rx.drop k, reading := none, ret := some ((s.rx.take k).foldl hexPush v) }) ∧
    (s.rx.length < k →
      exec (.readHex n) s = .next { s.sleep with
        rx := [], reading := some (k - s.rx.length, s.rx.foldl hexPush v) })

/-- `R` completes from every state with SCK low and no write cycle going on, for every address (43_line_protocol.md
section 3): `readEEPROM` of the address, the response with the parsed address and the byte, CS = IDLE, the operand
registers without a value; no cell, no byte of RX and nothing else changes. The free byte is U1 (log 5, log 6). -/
def Obligations.CommandRReadsAndReports : Prop :=
  ∀ (s : State) (a : Word), s.sck = false → s.wBusy = false →
    ∃ v : Byte, (∀ c, Config.cell a = some c → v = Memory.cell s.mem c) ∧
      exec (.r a) s = .next { s with
        ser := a.getLsbD 0, sck := false, rck := true, sr := a, al := a, dir := 0x00
        draws := if (Config.cell a).isSome then s.draws else s.draws + 1
        tx := s.tx ++ readResponse a v, opA := none, opV := none, opL := none, cs := .idle }

/-- `W` completes from every state with SCK low and no write cycle going on, for every address and byte
(43_line_protocol.md section 3): `writeEEPROM`, then the confirmation with the parsed operands, after at least 10.001
ms; the selected cell holds the byte, every other cell is as before, and nothing else changes. An address that selects
no cell is U1 (log 5); the delays are taken at their lower bounds (log 13). `busyAt` is the model's own field (log
24). -/
def Obligations.CommandWWritesAndConfirms : Prop :=
  ∀ (s : State) (a : Word) (v : Byte), s.sck = false → s.wBusy = false →
    ∃ m : Memory, (∀ d, Memory.cell m d = if Config.cell a = some d then v else Memory.cell s.mem d) ∧
      exec (.w a v) s = .next { s with
        ser := a.getLsbD 0, sck := false, rck := true, sr := a, al := a, dir := 0xFF, dout := v, weN := true
        busyUs := 0, busyAt := a, clockUs := s.clockUs + 10001, mem := m
        tx := s.tx ++ wroteResponse a v, opA := none, opV := none, opL := none, cs := .idle }

/-- `D` completes from every state with SCK low and no write cycle going on, for every address and length
(43_line_protocol.md section 3): byte j is what the cell of `(A + j) mod 65536` holds, or any byte if there is none;
TX gains the lines; ADDRMUX stands at the last address; no cell changes and nothing else but the draw counter, which
stands still if every address selects a cell. The wrap of the address is the spec's decision D22, the layout of a
short line D23 (log 8), the free bytes U1 (log 5, log 6). -/
def Obligations.CommandDDumps : Prop :=
  ∀ (s : State) (a len : Word), s.sck = false → s.wBusy = false →
    ∃ (bs : List Byte) (n : Nat), bs.length = dumpCount len ∧
      (∀ j c, j < dumpCount len → Config.cell (a + BitVec.ofNat 16 j) = some c → bs[j]? = some (Memory.cell s.mem c)) ∧
      ((∀ j, j < dumpCount len → (Config.cell (a + BitVec.ofNat 16 j)).isSome = true) → n = s.draws) ∧
      exec (.d a len) s = .next { s with
        ser := (a + BitVec.ofNat 16 (dumpCount len - 1)).getLsbD 0, sck := false, rck := true
        sr := a + BitVec.ofNat 16 (dumpCount len - 1), al := a + BitVec.ofNat 16 (dumpCount len - 1), dir := 0x00
        draws := n, tx := s.tx ++ dumpText a bs, opA := none, opV := none, opL := none, cs := .idle }

/-- `P` completes from every state (43_line_protocol.md section 3): OP_A holds the start address, any 16-bit value,
and CS is BP_INIT; nothing else changes. -/
def Obligations.CommandPEntersTheSession : Prop :=
  ∀ (s : State) (a : Word), exec (.p a) s = .next { s with opA := some a, cs := .bpInit }

/-- UnknownCommand (60_exceptions.md R252): a byte taken at CS = IDLE that is none of the four command characters
empties RX and leaves CS at IDLE; nothing is sent, no pin moves, nothing else changes. RESYNC completes so from every
state. -/
def Obligations.UnknownByteDrainsInput : Prop :=
  (∀ (s : State) (c : Byte), exec (.resync c) s = .next { s with rx := [], cs := .idle }) ∧
  ∀ (s : State) (c : Byte) (rest : List Byte), s.cs = .idle → s.rx = c :: rest →
    c ≠ 0x52 → c ≠ 0x57 → c ≠ 0x44 → c ≠ 0x50 → s.thread = .next { s with rx := [], cs := .idle }

/-! ## Bulk session -/

/-- MAXB (10_state.md R29): `CHIP_SIZE - START` in arithmetic modulo `2^MAXB_W`, MAXB_W at least 16: in [1, 8192]
below the chip's end, 0 at it, and at least 8193 above it. Above the chip's end this is the spec's decision D15, no
claim about the device (log 9, log 26). -/
def Obligations.MaxByteCountOfStart : Prop :=
  16 ≤ Config.maxbWidth ∧
  ∀ a : Word,
    (maxbOf a : Int) = (8192 - (a.toNat : Int)) % 2 ^ Config.maxbWidth ∧
    (a.toNat < 8192 → maxbOf a = 8192 - a.toNat ∧ 1 ≤ maxbOf a ∧ maxbOf a ≤ 8192) ∧
    (a.toNat = 8192 → maxbOf a = 0) ∧
    (8192 < a.toNat → maxbOf a = 2 ^ Config.maxbWidth - (a.toNat - 8192) ∧ 8193 ≤ maxbOf a)

/-- `BP.Init` completes whenever OP_A holds a value, in range or not (44_bulk_program.md R211): START, MAXB, CURSOR
from it, the banner sent and everything sent so far delivered, CS = BP_AWAIT whatever MAXB is; nothing else changes,
no pin and no cell. That a start out of range opens it and that BP_AWAIT follows whatever MAXB is are the spec's
decisions D35 and D15; for START of 8192 or more this is no claim about the device (log 9, log 26). `inWait` is the
model's (log 14). -/
def Obligations.BpInitOpensTheSession : Prop :=
  ∀ (s : State) (a : Word), s.opA = some a →
    exec .bpInit s = .next { s with
      start := some a, maxb := some (maxbOf a), cursor := some a.toNat, cs := .bpAwait, inWait := false
      tx := s.tx ++ Config.texts.banner, txSent := (s.tx ++ Config.texts.banner).length }

/-- One poll of `BP.AwaitChunk` (44_bulk_program.md section 1). T0 is the clock at entry, or what it was taken as when
this wait began. With sixteen bytes in RX the step completes to BP_WRITE, expired window or not; else, more than 60000
ms after T0, the timeout message is sent, the session has no values and CS is IDLE, RX as it was; else it sleeps. RX
is never popped and no pin or cell changes. The order of the tests and the strict comparison are the spec's decision
D12; a poll is one instant (log 14); the operand registers end with the session (log 27). -/
def Obligations.BpAwaitChunkPolls : Prop :=
  ∀ (s : State) (t0 : Nat), (s.inWait = true → s.t0 = some t0) → (s.inWait = false → s.nowMs = t0) →
    (16 ≤ s.rx.length →
      exec .bpAwaitChunk s = .next { s with t0 := some t0, inWait := false, cs := .bpWrite }) ∧
    (s.rx.length < 16 → 60000 < s.nowMs - t0 →
      exec .bpAwaitChunk s = .next { s with
        tx := s.tx ++ Config.texts.timeout, start := none, maxb := none, cursor := none, idx := none, t0 := none
        inWait := false, opA := none, opV := none, opL := none, cs := .idle }) ∧
    (s.rx.length < 16 → s.nowMs - t0 ≤ 60000 →
      exec .bpAwaitChunk s = .next ({ s with t0 := some t0, inWait := true } : State).sleep)

/-- `BP.WriteChunk` completes whenever CURSOR holds a value, sixteen bytes are in RX, SCK is low and no write cycle is
going on (44_bulk_program.md section 1): exactly sixteen bytes are taken, byte k is written to `trunc_16(CURSOR + k)`,
16 times 10.101 ms pass, the pins are left as by the last write, CS is BP_ACK; CURSOR is not changed and nothing else
is. Addresses and delays of the sixteen bytes are the spec's decisions D13, D14; one step (log 29). That the delays
take exactly their lower bounds is the model's (log 13). `busyAt` is the model's own field (log 24). -/
def Obligations.BpWriteChunkWritesSixteen : Prop :=
  ∀ (s : State) (cur : Nat), s.cursor = some cur → 16 ≤ s.rx.length → s.sck = false → s.wBusy = false →
    exec .bpWriteChunk s = .next { s with
      rx := s.rx.drop 16, mem := Memory.writeAll s.mem (chunkWrites cur (s.rx.take 16))
      ser := (trunc16 (cur + 15)).getLsbD 0, sck := false, rck := true
      sr := trunc16 (cur + 15), al := trunc16 (cur + 15), dir := 0xFF, dout := s.rx.getD 15 0, weN := true
      busyUs := 0, busyAt := trunc16 (cur + 15), clockUs := s.clockUs + 161616, idx := none, cs := .bpAck }

/-- The frame CHUNK completes whenever CURSOR holds a value, SCK is low and no write cycle is going on (30_encoding.md
section 5, 44_bulk_program.md section 1): its sixteen bytes are written as `BP.WriteChunk` writes them. A frame as an
instruction of its own is log 22; D13, D14 as for `BP.WriteChunk`. That the delays take exactly their lower bounds is
the model's (log 13). `busyAt` is the model's own field (log 24). -/
def Obligations.ChunkFrameIsWritten : Prop :=
  ∀ (s : State) (cur : Nat) (bs : List Byte), s.cursor = some cur → bs.length = 16 → s.sck = false → s.wBusy = false →
    exec (.chunk bs) s = .next { s with
      mem := Memory.writeAll s.mem (chunkWrites cur bs)
      ser := (trunc16 (cur + 15)).getLsbD 0, sck := false, rck := true
      sr := trunc16 (cur + 15), al := trunc16 (cur + 15), dir := 0xFF, dout := bs.getD 15 0, weN := true
      busyUs := 0, busyAt := trunc16 (cur + 15), clockUs := s.clockUs + 161616, idx := none, cs := .bpAck }

/-- Popping the bytes one by one or taking the frame whole comes to the same from every state with sixteen bytes in
RX, stops included (44_bulk_program.md section 1, 30_encoding.md section 5). The two are the model's two readings of
one chunk (log 22, log 29). -/
def Obligations.PoppedChunkEqualsFrame : Prop :=
  ∀ s : State, 16 ≤ s.rx.length →
    exec .bpWriteChunk s = exec (.chunk (s.rx.take 16)) { s with rx := s.rx.drop 16 }

/-- What an in-range chunk leaves in the chip (20_memory.md section 2): byte k in cell CURSOR + k, every other cell as
before. That byte k goes to CURSOR + k is the spec's decision D14. -/
def Obligations.ChunkLandsContiguously : Prop :=
  ∀ (s t : State) (cur : Nat) (bs : List Byte), s.cursor = some cur → bs.length = 16 → cur + 16 ≤ 8192 →
    s.sck = false → exec (.chunk bs) s = .next t →
    (∀ k, k < 16 → some (Memory.cell t.mem (cur + k)) = bs[k]?) ∧
    (∀ c, c < cur ∨ cur + 16 ≤ c → Memory.cell t.mem c = Memory.cell s.mem c)

/-- `BP.Ack` completes from every state (44_bulk_program.md R214): one byte 0x06 is sent, everything sent is
delivered, CS is BP_ADVANCE, nothing else changes. The frame ACK by itself is that byte, sent and delivered
(30_encoding.md section 5). The frame ACK as an instruction of its own, sent and flushed, is log 22. -/
def Obligations.BpAckSendsOneByte : Prop :=
  encode .ack = [0x06] ∧
  ∀ s : State,
    exec .bpAck s = .next { s with tx := s.tx ++ [0x06], txSent := s.tx.length + 1, cs := .bpAdvance } ∧
    exec .ack s = .next { s with tx := s.tx ++ [0x06], txSent := s.tx.length + 1 }

/-- `BP.Advance` completes whenever START, MAXB and CURSOR hold values (44_bulk_program.md section 1): CURSOR moves by
16 without wrapping; beyond the chip's end the session completes; else it goes on while CURSOR is below START + MAXB;
else it completes. Completing sends the completion text and leaves no session; RX, pins and cells are as before. The
operand registers end with the session (log 27). -/
def Obligations.BpAdvanceDecides : Prop :=
  ∀ (s : State) (st : Word) (mb cur : Nat), s.start = some st → s.maxb = some mb → s.cursor = some cur →
    (cur + 16 ≤ 8192 → cur + 16 < st.toNat + mb →
      exec .bpAdvance s = .next { s with cursor := some (cur + 16), cs := .bpAwait, inWait := false }) ∧
    (8192 < cur + 16 ∨ st.toNat + mb ≤ cur + 16 →
      exec .bpAdvance s = .next { s with
        tx := s.tx ++ Config.texts.done, start := none, maxb := none, cursor := none, idx := none, t0 := none
        inWait := false, opA := none, opV := none, opL := none, cs := .idle })

/-- After a chunk of a session with an in-range start the session goes on exactly below the chip's end; a start at or
beyond it completes after its first chunk (44_bulk_program.md R215 corner cases, R221: the last is the spec's decision
D15, D35, no claim about the device). See log 26. -/
def Obligations.SessionEndsAtTheChipsEnd : Prop :=
  ∀ (s t : State) (st : Word) (cur : Nat), s.start = some st → s.maxb = some (maxbOf st) → s.cursor = some cur →
    st.toNat ≤ cur → exec .bpAdvance s = .next t →
    (st.toNat < 8192 → (t.cs = .bpAwait ↔ cur + 16 < 8192)) ∧
    (8192 ≤ st.toNat → t.cs = .idle ∧ t.tx = s.tx ++ Config.texts.done) ∧
    (t.cs = .bpAwait ∨ t.cs = .idle)

/-- `BP.Complete` completes from every state (44_bulk_program.md section 1): the completion text, no session, CS =
IDLE; RX, pins and cells as before. The operand registers end with the session (log 27). -/
def Obligations.BpCompleteEndsTheSession : Prop :=
  ∀ s : State, exec .bpComplete s = .next { s with
    tx := s.tx ++ Config.texts.done, start := none, maxb := none, cursor := none, idx := none, t0 := none
    inWait := false, opA := none, opV := none, opL := none, cs := .idle }

/-- `BP.Timeout` completes from every state (44_bulk_program.md section 1): the timeout text, no session, CS = IDLE;
RX keeps the partial chunk, pins and cells are as before. The operand registers end with the session (log 27). -/
def Obligations.BpTimeoutEndsTheSession : Prop :=
  ∀ s : State, exec .bpTimeout s = .next { s with
    tx := s.tx ++ Config.texts.timeout, start := none, maxb := none, cursor := none, idx := none, t0 := none
    inWait := false, opA := none, opV := none, opL := none, cs := .idle }

/-! ## The machine -/

/-- What reset leaves, for the values R45 gives (10_state.md section 8): WE_N and RCK high, SCK low, all lines IN, CS
= IDLE, no operand and no session register with a value, RX empty, TX the startup text, W_BUSY false. The table is the
spec's decision D26. -/
def Obligations.ResetLeavesTheGivenValues : Prop :=
  State.reset.weN = true ∧ State.reset.rck = true ∧ State.reset.sck = false ∧ State.reset.dir = 0x00 ∧
  State.reset.cs = .idle ∧ State.reset.opA = none ∧ State.reset.opV = none ∧ State.reset.opL = none ∧
  State.reset.start = none ∧ State.reset.maxb = none ∧ State.reset.cursor = none ∧ State.reset.idx = none ∧
  State.reset.t0 = none ∧ State.reset.rx = [] ∧ State.reset.tx = Config.texts.startup ∧ State.reset.wBusy = false

/-- The invariant holds right after reset. The invariant is the model's own definition `Inv`. -/
def Obligations.ResetMeetsTheInvariant : Prop := Inv State.reset

/-- Every step keeps the invariant: the pins at rest, the registers that hold a value those of the control state,
CURSOR inside the session, the cells in canonical form, TX_SENT within TX, RX within its capacity. The invariant is
the model's own definition `Inv`; it leans on logs 15, 20, 27, 28, 30. -/
def Obligations.StepKeepsTheInvariant : Prop :=
  ∀ s t : State, Inv s → step s = .next t → Inv t

/-- From every state that meets the invariant a step answers, but for a host that sends more than RX can hold: no
register without a value is read, the bus direction is always right, the chip is never touched during a write cycle
(93_implementation_defined.md U5, U10, U11; 70_reset_and_hazards.md R295, R297). The refusal of an overrun is the
spec's decision D25 (log 10). -/
def Obligations.StepStopsOnlyOnOverrun : Prop :=
  ∀ s : State, Inv s → (∃ t, step s = .next t) ∨ step s = .refused .inputOverrun

/-- A step runs the decoded instruction. The outside world's move comes first: time passes, bytes land behind those in
RX, pending bytes leave. Then, at CS = IDLE, the command decoded from RX is run with its bytes taken off; at BP_WRITE
the chunk. If nothing lands meanwhile the step is that; bytes that land meanwhile and find room stand behind what the
instruction leaves in RX. At a RESYNC (43_line_protocol.md R187) those of the first entry land between its RxPop and
its RxDrain and are drained with the rest of RX; only the later ones are kept. R187 rests on the spec's decision D27.
That a command whose bytes are all there is one step is log 20; where the outside world's move lands log 12, what
lands meanwhile log 29. -/
def Obligations.StepRunsTheDecodedInstruction : Prop :=
  ∀ (s s1 : State) (us n : Nat) (bs : List Byte) (w : List (List Byte)) (later : List EnvMove) (i : Instr)
    (rest : List Byte),
    s.script = .pass us bs n w :: later → s.rx.length + bs.length ≤ Config.rxCapacity →
    (s.cs = .idle ∧ decode .command (s.rx ++ bs) = .ok (i, rest) ∨
      s.cs = .bpWrite ∧ decode .bulk (s.rx ++ bs) = .ok (i, rest)) →
    s1 = { s with
      clockUs := s.clockUs + us, busyUs := s.busyUs - us, txSent := min (s.txSent + n) s.tx.length
      script := later, rx := rest } →
    (w = [] → step s = exec i s1) ∧
    (∀ t, exec i s1 = .next t → (∀ c, i ≠ .resync c) →
      (∀ k, k < w.length →
        (if s.cs = .bpWrite then max (s.rx.length + bs.length - (k + 1)) t.rx.length else t.rx.length) +
          (w.take (k + 1)).flatten.length ≤ Config.rxCapacity) →
      step s = .next { t with rx := t.rx ++ w.flatten }) ∧
    ∀ (c : Byte) (d : List Byte) (e : List (List Byte)), i = .resync c → w = d :: e →
      rest.length + d.length ≤ Config.rxCapacity → e.flatten.length ≤ Config.rxCapacity →
      step s = .next { s1 with rx := e.flatten }

/-- What the control thread does in each state of a session and of a command body (44_bulk_program.md section 1,
10_state.md section 4): it runs the step, or the command with the operands that its registers hold. At CS = IDLE
(43_line_protocol.md section 2) it sleeps while RX is empty, without any timeout; a command letter whose digits are
not all there is taken and the address operand is next, its four digits still to read. That k counts the digits of the
current operand is log 20; the length of a sleep log 11. -/
def Obligations.ThreadFollowsTheControlState : Prop :=
  ∀ s : State,
    (s.cs = .idle → s.rx = [] → s.thread = .next s.sleep) ∧
    (∀ (c : Cmd) (rest : List Byte), s.cs = .idle → s.rx = c.byte :: rest → rest.length < c.digits →
      s.thread = .next { s with rx := rest, cs := .operands c 4 0 }) ∧
    (s.cs = .bpInit → s.thread = exec .bpInit s) ∧
    (s.cs = .bpAwait → s.thread = exec .bpAwaitChunk s) ∧
    (s.cs = .bpWrite → 16 ≤ s.rx.length → s.thread = exec .bpWriteChunk s) ∧
    (s.cs = .bpAck → s.thread = exec .bpAck s) ∧
    (s.cs = .bpAdvance → s.thread = exec .bpAdvance s) ∧
    (∀ a, s.cs = .exec .r → s.opA = some a → s.thread = exec (.r a) s) ∧
    (∀ a v, s.cs = .exec .w → s.opA = some a → s.opV = some v → s.thread = exec (.w a v) s) ∧
    (∀ a l, s.cs = .exec .d → s.opA = some a → s.opL = some l → s.thread = exec (.d a l) s)

/-- An operand byte is a digit whatever it is, and the wait for one has no timeout (43_line_protocol.md sections 1 and
2, 70_reset_and_hazards.md section 3): with a byte in RX the oldest is taken, k falls by one and the value so far
takes the digit; with RX empty only time passes. With no digit left the operand register takes the value: the address
first, then the second operand of `W` (two digits) and `D` (four), then the body is next, BP_INIT for `P`. Nothing
else changes. That the value so far stands beside k, and the end of an operand is a step of its own, is log 20. -/
def Obligations.OperandByteIsADigit : Prop :=
  (∀ (s : State) (c : Cmd) (k : Nat) (v : Word), s.cs = .operands c (k + 1) v →
    (∀ b rest, s.rx = b :: rest →
      s.thread = .next { s with rx := rest, cs := .operands c k (v * 16 + (hexval b).setWidth 16) }) ∧
    (s.rx = [] → s.thread = .next s.sleep)) ∧
  ∀ (s : State) (v : Word),
    (s.cs = .operands .r 0 v → s.thread = .next { s with opA := some v, cs := .exec .r }) ∧
    (s.cs = .operands .p 0 v → s.thread = .next { s with opA := some v, cs := .bpInit }) ∧
    (s.cs = .operands .w 0 v →
      (s.opA = none → s.thread = .next { s with opA := some v, cs := .operands .w 2 0 }) ∧
      (s.opA ≠ none → s.thread = .next { s with opV := some (v.setWidth 8), cs := .exec .w })) ∧
    (s.cs = .operands .d 0 v →
      (s.opA = none → s.thread = .next { s with opA := some v, cs := .operands .d 4 0 }) ∧
      (s.opA ≠ none → s.thread = .next { s with opL := some v, cs := .exec .d }))

/-- Reading a command digit by digit as it stands in RX comes to the same as taking it whole, from every state whose
OP_A holds no value and whose TX_SENT lies within TX, for every command and all digit bytes (43_line_protocol.md
sections 1 and 2): with a world that makes only quiet moves, the steps from behind the command letter end as the
command run at once. It justifies the model's choice of log 20; where the outside world's moves land is log 12. -/
def Obligations.DigitByDigitEqualsWhole : Prop :=
  ∀ (s : State) (c : Cmd) (ds rest : List Byte) (later : List EnvMove),
    ds.length = c.digits → s.txSent ≤ s.tx.length → s.opA = none → s.cs = .operands c 4 0 → s.rx = ds ++ rest →
    s.script = List.replicate (Cmd.slowSteps c) .quiet ++ later →
    Host.Core.run core (Cmd.slowSteps c) s = exec (c.assemble ds) { s with rx := rest, script := later }

/-- TX gains exactly one byte 0x06 in a step at BP_ACK and none in any other step that is no reset (30_encoding.md
section 5, 43_line_protocol.md section 3): no response, banner or message and no dump holds one, so the host can count
chunks. That no text holds 0x06 is the spec's decision D17 (log 8). -/
def Obligations.AckBytesCountChunks : Prop :=
  ∀ (s s1 t : State) (w : List (List Byte)), s.environment = .go s1 w → step s = .next t →
    ackCount t.tx = ackCount s.tx + if s.cs = .bpAck then 1 else 0

/-- A stop-and-wait session (44_bulk_program.md section 3). From a session that awaits its next chunk at CURSOR with
RX empty and an in-range start, a host that supplies K chunks, K at most the N = ceil((8192 - CURSOR) / 16) still
needed, brings exactly K ACKs in 4K steps, byte k of the data written to `trunc_16(CURSOR + k)`; if K = N the
completion text follows and the session is over, else the session awaits the next chunk. The count is the spec's own
inference in R219; the host is the model's script (log 12). -/
def Obligations.StopAndWaitSession : Prop :=
  ∀ (s : State) (st : Word) (cur : Nat) (chunks : List (List Byte)),
    Inv s → s.cs = .bpAwait → s.start = some st → st.toNat < 8192 → s.cursor = some cur → s.rx = [] →
    StopAndWait chunks s.script → chunks.length ≤ (8192 - cur + 15) / 16 →
    ∃ t, Host.Core.run core (4 * chunks.length) s = .next t ∧ t.rx = [] ∧
      t.mem = Memory.writeAll s.mem (chunkWrites cur chunks.flatten) ∧
      (chunks.length = (8192 - cur + 15) / 16 → t.cs = .idle ∧ t.start = none ∧ t.cursor = none ∧
        t.tx = s.tx ++ List.replicate chunks.length 0x06 ++ Config.texts.done) ∧
      (chunks.length < (8192 - cur + 15) / 16 → t.cs = .bpAwait ∧ t.start = some st ∧
        t.cursor = some (cur + 16 * chunks.length) ∧ t.tx = s.tx ++ List.replicate chunks.length 0x06)

/-- A host that falls silent before the sixteenth byte is timed out (44_bulk_program.md sections 1 and 3): whatever
time the steps take, the session ends with exactly the timeout text, no ACK, RX and all cells and pins as they were.
The bound counts polls of at least a microsecond (log 11) of a host that is silent (log 12). -/
def Obligations.SilentHostIsTimedOut : Prop :=
  ∀ s : State, s.cs = .bpAwait → s.rx.length < 16 → s.script = [] →
    (s.inWait = true → ∃ t0, s.t0 = some t0 ∧ t0 ≤ s.nowMs) →
    ∃ n t, n ≤ 60001001 ∧ Host.Core.run core n s = .next t ∧ t.cs = .idle ∧ t.start = none ∧ t.cursor = none ∧
      t.tx = s.tx ++ Config.texts.timeout ∧ t.rx = s.rx ∧ t.mem = s.mem ∧ t.al = s.al ∧ t.dir = s.dir ∧
      t.dout = s.dout ∧ t.weN = s.weN ∧ t.rck = s.rck ∧ t.sck = s.sck ∧ t.ser = s.ser ∧ t.sr = s.sr

/-- Bulk-data mode is left only by completion or timeout (60_exceptions.md section 5, 44_bulk_program.md R223):
whatever the host sends, a step that is no reset and ends outside the session is the advance, with the completion
text, or the wait, with the timeout text and fewer than sixteen bytes in RX; it takes nothing off RX, and the cells
are as they were. Reset aside (log 24); what lands meanwhile is log 29. -/
def Obligations.BulkModeLeftOnlyByItsTwoOutcomes : Prop :=
  ∀ (s s1 t : State) (w : List (List Byte)), s.environment = .go s1 w → step s = .next t →
    s.cs.isBulk = true → t.cs.isBulk = false →
    t.rx = s1.rx ++ w.flatten ∧ t.mem = s.mem ∧ t.cs = .idle ∧
    (s.cs = .bpAdvance ∧ t.tx = s.tx ++ Config.texts.done ∨
      s.cs = .bpAwait ∧ t.tx = s.tx ++ Config.texts.timeout ∧ s1.rx.length < 16)

/-- Bulk-data mode is entered only by a completed `P` operand (60_exceptions.md section 5): from a state of the
invariant a step that is no reset and ends inside a session took a whole `P` command off RX at CS = IDLE, or was the
end of the operand of a `P` whose digits have all been read. CS is BP_INIT, OP_A holds that operand, and nothing is
sent or written. Reset aside (log 24); the two ways of reading an operand are log 20, what lands meanwhile log 29. -/
def Obligations.BulkModeEnteredOnlyByP : Prop :=
  ∀ (s s1 t : State) (w : List (List Byte)), Inv s → s.environment = .go s1 w → step s = .next t →
    s.cs.isBulk = false → t.cs.isBulk = true →
    (s.cs = .idle ∧ (∃ a rest, decode .command s1.rx = .ok (.p a, rest) ∧ t.opA = some a ∧ t.rx = rest ++ w.flatten) ∨
      ∃ v, s.cs = .operands .p 0 v ∧ t.opA = some v ∧ t.rx = s1.rx ++ w.flatten) ∧
    t.cs = .bpInit ∧ t.tx = s.tx ∧ t.mem = s.mem

/-- The streams and the clock (10_state.md section 7): a step that is no reset takes bytes off the front of RX only,
after the host's new bytes were put behind; those that land meanwhile stand behind the rest, but for those of the
first entry at a RESYNC, which it drains (43_line_protocol.md R187, the spec's decision D27); it never takes back a
byte of TX, and never turns the clock back. No wrap of the clock: premise U6 (log 3, log 19). Reset aside (log 24);
what lands meanwhile is log 29. -/
def Obligations.StreamsAndClockMoveForward : Prop :=
  ∀ (s s1 t : State) (w : List (List Byte)), s.environment = .go s1 w → step s = .next t →
    s.rx <+: s1.rx ∧
    ((∃ r, r <:+ s1.rx ∧ t.rx = r ++ w.flatten) ∨
      s1.cs = .idle ∧ (∃ c rest, decode .command s1.rx = .ok (.resync c, rest)) ∧ t.rx = (w.drop 1).flatten) ∧
    s.tx <+: t.tx ∧ s.clockUs ≤ t.clockUs

/-- More bytes than RX can hold (70_reset_and_hazards.md R302): the step has no meaning and refuses, if they come at
its start, before a reset too, or if they come while a chunk is written: with byte k on its way into the chip RX has
lost k + 1 bytes, and what has landed by then must fit; or if they come at a RESYNC, before its drain or after it.
R302 is the spec's decision D25 (log 10); where bytes land inside a chunk or a RESYNC is log 29. -/
def Obligations.OverrunIsRefused : Prop :=
  (∀ (s : State) (us n : Nat) (bs : List Byte) (w : List (List Byte)) (later : List EnvMove),
    s.script = .pass us bs n w :: later ∨ s.script = .resetWithin us bs n :: later →
    bs ≠ [] → Config.rxCapacity < s.rx.length + bs.length → step s = .refused .inputOverrun) ∧
  (∀ (s : State) (us n k cur : Nat) (bs : List Byte) (w : List (List Byte)) (later : List EnvMove),
    s.script = .pass us bs n w :: later → s.rx.length + bs.length ≤ Config.rxCapacity →
    s.cs = .bpWrite → s.cursor = some cur → 16 ≤ s.rx.length + bs.length → s.sck = false → s.wBusy = false →
    k < 16 → k < w.length →
    Config.rxCapacity < s.rx.length + bs.length - (k + 1) + (w.take (k + 1)).flatten.length →
    step s = .refused .inputOverrun) ∧
  ∀ (s : State) (us n : Nat) (c : Byte) (bs rest d : List Byte) (e : List (List Byte)) (later : List EnvMove),
    s.script = .pass us bs n (d :: e) :: later → s.rx.length + bs.length ≤ Config.rxCapacity →
    s.cs = .idle → decode .command (s.rx ++ bs) = .ok (.resync c, rest) →
    (d ≠ [] ∧ Config.rxCapacity < rest.length + d.length ∨ Config.rxCapacity < e.flatten.length) →
    step s = .refused .inputOverrun

/-- A reset between operations (70_reset_and_hazards.md sections 1 and 2): whatever the block was doing, the state is
that after boot, and every cell of the chip is as it was. The state after boot holds the values of logs 1, 2, 3; the
reset event is a move of the script (log 24). -/
def Obligations.ResetKeepsTheChip : Prop :=
  ∀ (s : State) (later : List EnvMove), s.script = .reset :: later → s.weN = true → s.wBusy = false →
    ∃ n, step s = .next { State.reset with mem := s.mem, script := later, draws := n }

/-- A reset inside a chunk or a `W` (70_reset_and_hazards.md R290, 20_memory.md R70), after the first e of the line
writes and waits of which each byte has 71: 66 up to the pulse, its three, the settle delay, the inter-byte delay. Of
a chunk the first e / 71 bytes are in their cells; the next cell is as before if its pulse had not begun, any byte
inside the pulse and the settle delay, and holds its byte after that; every other cell is as before. A `W` leaves its
cell in the same way. The block is in the state after boot. R290 is the spec's decision D26; the reset event is a move
of the script (log 24), and the state after boot holds the values of logs 1, 2, 3. -/
def Obligations.ResetInsideChunkLeavesAPrefix : Prop :=
  (∀ (s : State) (cur us e : Nat) (bs : List Byte) (later : List EnvMove),
    s.script = .resetWithin us bs e :: later → s.rx.length + bs.length ≤ Config.rxCapacity → e < 16 * 71 →
    s.cs = .bpWrite → s.cursor = some cur → 16 ≤ s.rx.length + bs.length → cur + 16 ≤ 8192 →
    s.sck = false → s.weN = true → s.wBusy = false →
    ∃ t, step s = .next t ∧ t = { State.reset with mem := t.mem, script := later, draws := t.draws } ∧
      (∀ k, k < e / 71 → some (Memory.cell t.mem (cur + k)) = (s.rx ++ bs)[k]?) ∧
      (e % 71 ≤ 66 → Memory.cell t.mem (cur + e / 71) = Memory.cell s.mem (cur + e / 71)) ∧
      (e % 71 = 70 → some (Memory.cell t.mem (cur + e / 71)) = (s.rx ++ bs)[e / 71]?) ∧
      (∀ c, c < cur ∨ cur + e / 71 < c → Memory.cell t.mem c = Memory.cell s.mem c)) ∧
  ∀ (s : State) (a : Word) (v : Byte) (c us e : Nat) (bs rest : List Byte) (later : List EnvMove),
    s.script = .resetWithin us bs e :: later → s.rx.length + bs.length ≤ Config.rxCapacity →
    (s.cs = .idle ∧ decode .command (s.rx ++ bs) = .ok (.w a v, rest) ∨
      s.cs = .exec .w ∧ s.opA = some a ∧ s.opV = some v) →
    Config.cell a = some c → s.sck = false → s.weN = true → s.wBusy = false →
    ∃ t, step s = .next t ∧ t = { State.reset with mem := t.mem, script := later, draws := t.draws } ∧
      (e ≤ 66 → Memory.cell t.mem c = Memory.cell s.mem c) ∧ (70 ≤ e → Memory.cell t.mem c = v) ∧
      ∀ d, d ≠ c → Memory.cell t.mem d = Memory.cell s.mem d

/-- The end of a run (43_line_protocol.md R190): once over it stays over until a reset; the block goes on polling,
sends nothing and changes no cell. An idle block with nothing to read and a host that is silent for good gets there:
all pending output leaves by itself (10_state.md section 7), and a write cycle runs out. The end of a run is the
spec's decision D31, eventual delivery its D29; the silent host is log 12, the write cycle log 15, the length of a
sleep log 11. -/
def Obligations.QuiescentStaysQuiescent : Prop :=
  (∀ (s s1 : State) (w : List (List Byte)), s.quiescent → s.environment = .go s1 w →
    ∃ t, step s = .next t ∧ t.quiescent ∧ t.tx = s.tx ∧ t.mem = s.mem) ∧
  ∀ s : State, s.cs = .idle → s.rx = [] → s.script = [] → s.txSent ≤ s.tx.length →
    ∃ n t, Host.Core.run core n s = .next t ∧ t.quiescent ∧ t.tx = s.tx ∧ t.mem = s.mem
end

