-- ==== Sys2Proof/Laws/Memory.lean ====
section
/-!
SUPPORT. The laws of the cell array: read after write, and the canonical form, kept by every memory operation.
-/
namespace Sys2Proof.Machine

theorem Memory.written_store (m : Memory) (c d : Nat) (v : Byte) :
    Memory.written (Memory.store m c v) d = if c = d then some v else Memory.written m d := by
  induction m with
  | nil => simp [Memory.store, Memory.written]
  | cons x m ih =>
    obtain ⟨a, w⟩ := x
    simp only [Memory.store]
    split
    · simp [Memory.written]
    · split
      · next h => subst h; simp only [Memory.written]; split <;> simp_all
      · simp only [Memory.written, ih]
        split <;> split <;> simp_all

/-- A cell reads as the byte stored to it, every other cell as before (20_memory.md R62). -/
theorem Memory.cell_store (m : Memory) (c d : Nat) (v : Byte) :
    Memory.cell (Memory.store m c v) d = if c = d then v else Memory.cell m d := by
  unfold Memory.cell
  rw [Memory.written_store]
  split <;> simp

theorem Memory.wf_iff (m : Memory) :
    Memory.wf m = true ↔ m.Pairwise (fun x y => x.1 < y.1) ∧ ∀ x ∈ m, x.1 < Config.chipSize := by
  simp [Memory.wf]

theorem Memory.mem_store_addr {m : Memory} {c : Nat} {v : Byte} {x : Host.Cell} (h : x ∈ Memory.store m c v) :
    x.1 = c ∨ x ∈ m := by
  induction m with
  | nil => simp_all [Memory.store]
  | cons y m ih =>
    obtain ⟨a, w⟩ := y
    simp only [Memory.store] at h
    split at h
    · simp at h; rcases h with h | h | h <;> simp [h]
    · split at h
      · simp at h; rcases h with h | h <;> simp [h]
      · simp at h; rcases h with h | h
        · simp [h]
        · rcases ih h with h | h <;> simp [h]

/-- Storing to a cell of the chip keeps the canonical form. -/
theorem Memory.store_wf {m : Memory} {c : Nat} (v : Byte) (hm : Memory.wf m = true) (hc : c < Config.chipSize) :
    Memory.wf (Memory.store m c v) = true := by
  rw [Memory.wf_iff] at *
  obtain ⟨hp, hb⟩ := hm
  refine ⟨?_, fun x hx => (Memory.mem_store_addr hx).elim (fun h => h ▸ hc) (hb x)⟩
  clear hb hc
  induction m with
  | nil => simp [Memory.store]
  | cons y m ih =>
    obtain ⟨a, w⟩ := y
    rw [List.pairwise_cons] at hp
    simp only [Memory.store]
    split
    · next h =>
      refine List.pairwise_cons.2 ⟨fun x hx => ?_, List.pairwise_cons.2 hp⟩
      rcases List.mem_cons.1 hx with rfl | hx
      · exact h
      · exact lt_trans h (hp.1 x hx)
    · split
      · next h => exact List.pairwise_cons.2 ⟨fun x hx => h ▸ hp.1 x hx, hp.2⟩
      · next h1 h2 =>
        refine List.pairwise_cons.2 ⟨fun x hx => ?_, ih hp.2⟩
        rcases Memory.mem_store_addr hx with h | h
        · simp only [h]; omega
        · exact hp.1 x h

/-- CELL answers cells of the chip only (20_memory.md R63). -/
theorem Config.cell_lt {a : Word} {c : Nat} (h : Config.cell a = some c) : c < Config.chipSize := by
  unfold Config.cell at h
  split at h
  · simp_all
  · obtain ⟨f, -, rfl⟩ := Option.map_eq_some_iff.1 h
    exact f.isLt

/-- An address below the chip's end selects the cell of that number (20_memory.md R63). -/
theorem Config.cell_of_lt {a : Word} (h : a.toNat < Config.chipSize) : Config.cell a = some a.toNat := by
  simp [Config.cell, h]

theorem Memory.writeAt_of_cell {a : Word} {c : Nat} (h : Config.cell a = some c) (m : Memory) (v : Byte) :
    Memory.writeAt m a v = Memory.store m c v := by
  simp [Memory.writeAt, h]

theorem Memory.writeAt_of_none {a : Word} (h : Config.cell a = none) (m : Memory) (v : Byte) :
    Memory.writeAt m a v = m := by
  simp [Memory.writeAt, h]

/-- Every cell reads as before a write, but for the one the presented address selects (R62, R64). -/
theorem Memory.cell_writeAt (m : Memory) (a : Word) (v : Byte) (d : Nat) :
    Memory.cell (Memory.writeAt m a v) d = if Config.cell a = some d then v else Memory.cell m d := by
  cases h : Config.cell a with
  | none => simp [Memory.writeAt_of_none h]
  | some c => simp [Memory.writeAt_of_cell h, Memory.cell_store]

theorem Memory.writeAt_wf {m : Memory} (a : Word) (v : Byte) (hm : Memory.wf m = true) :
    Memory.wf (Memory.writeAt m a v) = true := by
  cases h : Config.cell a with
  | none => rwa [Memory.writeAt_of_none h]
  | some c => rw [Memory.writeAt_of_cell h]; exact Memory.store_wf v hm (Config.cell_lt h)

theorem Memory.writeAll_wf {m : Memory} (ws : List (Word × Byte)) (hm : Memory.wf m = true) :
    Memory.wf (Memory.writeAll m ws) = true := by
  induction ws generalizing m with
  | nil => exact hm
  | cons w ws ih => exact ih (Memory.writeAt_wf w.1 w.2 hm)

/-- A run of writes leaves every cell that none of them selects (R62, R64). -/
theorem Memory.cell_writeAll (m : Memory) (ws : List (Word × Byte)) (d : Nat) (h : ∀ w ∈ ws, Config.cell w.1 ≠ some d) :
    Memory.cell (Memory.writeAll m ws) d = Memory.cell m d := by
  induction ws generalizing m with
  | nil => rfl
  | cons w ws ih =>
    have h1 := ih (Memory.writeAt m w.1 w.2) fun x hx => h x (by simp [hx])
    simp only [Memory.writeAll, List.foldl_cons] at h1 ⊢
    rw [h1, Memory.cell_writeAt, if_neg (h w (by simp))]

theorem State.memAtReset_wf {s : State} (hm : Memory.wf s.mem = true) : Memory.wf s.memAtReset = true := by
  unfold State.memAtReset
  split <;> split <;> simp only [Memory.writeAt_wf, hm]

/-- What a reset leaves in a cell that no write is under way in (R290). -/
theorem State.cell_memAtReset {s : State} {d : Nat} (hb : s.wBusy = true → Config.cell s.busyAt ≠ some d)
    (hw : s.weN = false → Config.cell s.al ≠ some d) : Memory.cell s.memAtReset d = Memory.cell s.mem d := by
  unfold State.memAtReset
  cases h1 : s.wBusy <;> cases h2 : s.weN <;> simp_all [Memory.cell_writeAt]

theorem State.pin_mem_wf {s : State} (e : PinEvent) (hm : Memory.wf s.mem = true) : Memory.wf (s.pin e).mem = true := by
  cases e with
  | weN b =>
    simp only [State.pin]
    split
    · exact Memory.writeAt_wf _ _ hm
    · exact hm
  | _ => exact hm

theorem State.pins_mem_wf {s : State} (es : List PinEvent) (hm : Memory.wf s.mem = true) :
    Memory.wf (s.pins es).mem = true := by
  induction es generalizing s with
  | nil => exact hm
  | cons e es ih => exact ih (State.pin_mem_wf e hm)

/-- The cell array that a reset in the middle of an operation leaves has the canonical form. -/
theorem State.memCut_wf {s : State} (n : Nat) (hm : Memory.wf s.mem = true) : Memory.wf (s.memCut n) = true :=
  State.memAtReset_wf (State.pins_mem_wf _ hm)

/-- The cell array after reset has the canonical form. -/
theorem State.reset_mem_wf : Memory.wf State.reset.mem = true := rfl

theorem Memory.written_of_lt {m : Memory} {c : Nat} (h : ∀ x ∈ m, c < x.1) : Memory.written m c = none := by
  induction m with
  | nil => rfl
  | cons y m ih =>
    obtain ⟨a, w⟩ := y
    have h1 := h (a, w) (by simp)
    simp only [Memory.written]
    rw [if_neg (by simp at h1; omega)]
    exact ih fun x hx => h x (by simp [hx])

/-- Equal cell arrays are equal data: canonical forms that record the same bytes are the same list. -/
theorem Memory.ext_of_wf {m₁ m₂ : Memory} (h₁ : Memory.wf m₁ = true) (h₂ : Memory.wf m₂ = true)
    (h : ∀ c, Memory.written m₁ c = Memory.written m₂ c) : m₁ = m₂ := by
  replace h₁ := ((Memory.wf_iff _).1 h₁).1
  replace h₂ := ((Memory.wf_iff _).1 h₂).1
  induction m₁ generalizing m₂ with
  | nil =>
    cases m₂ with
    | nil => rfl
    | cons y m₂ => have := h y.1; simp [Memory.written] at this
  | cons x m₁ ih =>
    cases m₂ with
    | nil => have := h x.1; simp [Memory.written] at this
    | cons y m₂ =>
      obtain ⟨a, v⟩ := x
      obtain ⟨b, w⟩ := y
      rw [List.pairwise_cons] at h₁ h₂
      have ha := h a
      have hb := h b
      simp only [Memory.written, if_true] at ha hb
      have hab : a = b := by
        rcases lt_trichotomy a b with hlt | heq | hgt
        · rw [if_neg (by omega), Memory.written_of_lt fun x hx => lt_trans hlt (h₂.1 x hx)] at ha
          simp at ha
        · exact heq
        · rw [if_neg (by omega), Memory.written_of_lt fun x hx => lt_trans hgt (h₁.1 x hx)] at hb
          simp at hb
      subst hab
      simp only [if_true, Option.some.injEq] at ha
      subst ha
      congr 1
      refine ih ?_ h₁.2 h₂.2
      intro c
      have hc := h c
      simp only [Memory.written] at hc
      by_cases hac : a = c
      · subst hac
        rw [Memory.written_of_lt fun x hx => h₁.1 x hx, Memory.written_of_lt fun x hx => h₂.1 x hx]
      · simpa [hac] using hc

end Sys2Proof.Machine
end

