-- ==== Sys2Proof/Laws/State.lean ====
section
/-!
SUPPORT. One lemma per field per update of the state: what each named update leaves in each field, true by unfolding.
-/
namespace Sys2Proof.Machine

/-! ### After `Delay_us` -/

@[simp] theorem State.delayUs_ser (s : State) (n : Nat) : (s.delayUs n).ser = s.ser := rfl
@[simp] theorem State.delayUs_sck (s : State) (n : Nat) : (s.delayUs n).sck = s.sck := rfl
@[simp] theorem State.delayUs_rck (s : State) (n : Nat) : (s.delayUs n).rck = s.rck := rfl
@[simp] theorem State.delayUs_sr (s : State) (n : Nat) : (s.delayUs n).sr = s.sr := rfl
@[simp] theorem State.delayUs_al (s : State) (n : Nat) : (s.delayUs n).al = s.al := rfl
@[simp] theorem State.delayUs_dir (s : State) (n : Nat) : (s.delayUs n).dir = s.dir := rfl
@[simp] theorem State.delayUs_dout (s : State) (n : Nat) : (s.delayUs n).dout = s.dout := rfl
@[simp] theorem State.delayUs_weN (s : State) (n : Nat) : (s.delayUs n).weN = s.weN := rfl
@[simp] theorem State.delayUs_opA (s : State) (n : Nat) : (s.delayUs n).opA = s.opA := rfl
@[simp] theorem State.delayUs_opV (s : State) (n : Nat) : (s.delayUs n).opV = s.opV := rfl
@[simp] theorem State.delayUs_opL (s : State) (n : Nat) : (s.delayUs n).opL = s.opL := rfl
@[simp] theorem State.delayUs_start (s : State) (n : Nat) : (s.delayUs n).start = s.start := rfl
@[simp] theorem State.delayUs_maxb (s : State) (n : Nat) : (s.delayUs n).maxb = s.maxb := rfl
@[simp] theorem State.delayUs_cursor (s : State) (n : Nat) : (s.delayUs n).cursor = s.cursor := rfl
@[simp] theorem State.delayUs_idx (s : State) (n : Nat) : (s.delayUs n).idx = s.idx := rfl
@[simp] theorem State.delayUs_t0 (s : State) (n : Nat) : (s.delayUs n).t0 = s.t0 := rfl
@[simp] theorem State.delayUs_cs (s : State) (n : Nat) : (s.delayUs n).cs = s.cs := rfl
@[simp] theorem State.delayUs_rx (s : State) (n : Nat) : (s.delayUs n).rx = s.rx := rfl
@[simp] theorem State.delayUs_tx (s : State) (n : Nat) : (s.delayUs n).tx = s.tx := rfl
@[simp] theorem State.delayUs_txSent (s : State) (n : Nat) : (s.delayUs n).txSent = s.txSent := rfl
@[simp] theorem State.delayUs_clockUs (s : State) (n : Nat) : (s.delayUs n).clockUs = s.clockUs + n := rfl
@[simp] theorem State.delayUs_mem (s : State) (n : Nat) : (s.delayUs n).mem = s.mem := rfl
@[simp] theorem State.delayUs_busyUs (s : State) (n : Nat) : (s.delayUs n).busyUs = runDown s.busyUs n := rfl
@[simp] theorem State.delayUs_busyAt (s : State) (n : Nat) : (s.delayUs n).busyAt = s.busyAt := rfl
@[simp] theorem State.delayUs_inWait (s : State) (n : Nat) : (s.delayUs n).inWait = s.inWait := rfl
@[simp] theorem State.delayUs_ret (s : State) (n : Nat) : (s.delayUs n).ret = s.ret := rfl
@[simp] theorem State.delayUs_reading (s : State) (n : Nat) : (s.delayUs n).reading = s.reading := rfl
@[simp] theorem State.delayUs_draws (s : State) (n : Nat) : (s.delayUs n).draws = s.draws := rfl
@[simp] theorem State.delayUs_script (s : State) (n : Nat) : (s.delayUs n).script = s.script := rfl

/-! ### After `Delay_ms` -/

@[simp] theorem State.delayMs_ser (s : State) (n : Nat) : (s.delayMs n).ser = s.ser := rfl
@[simp] theorem State.delayMs_sck (s : State) (n : Nat) : (s.delayMs n).sck = s.sck := rfl
@[simp] theorem State.delayMs_rck (s : State) (n : Nat) : (s.delayMs n).rck = s.rck := rfl
@[simp] theorem State.delayMs_sr (s : State) (n : Nat) : (s.delayMs n).sr = s.sr := rfl
@[simp] theorem State.delayMs_al (s : State) (n : Nat) : (s.delayMs n).al = s.al := rfl
@[simp] theorem State.delayMs_dir (s : State) (n : Nat) : (s.delayMs n).dir = s.dir := rfl
@[simp] theorem State.delayMs_dout (s : State) (n : Nat) : (s.delayMs n).dout = s.dout := rfl
@[simp] theorem State.delayMs_weN (s : State) (n : Nat) : (s.delayMs n).weN = s.weN := rfl
@[simp] theorem State.delayMs_opA (s : State) (n : Nat) : (s.delayMs n).opA = s.opA := rfl
@[simp] theorem State.delayMs_opV (s : State) (n : Nat) : (s.delayMs n).opV = s.opV := rfl
@[simp] theorem State.delayMs_opL (s : State) (n : Nat) : (s.delayMs n).opL = s.opL := rfl
@[simp] theorem State.delayMs_start (s : State) (n : Nat) : (s.delayMs n).start = s.start := rfl
@[simp] theorem State.delayMs_maxb (s : State) (n : Nat) : (s.delayMs n).maxb = s.maxb := rfl
@[simp] theorem State.delayMs_cursor (s : State) (n : Nat) : (s.delayMs n).cursor = s.cursor := rfl
@[simp] theorem State.delayMs_idx (s : State) (n : Nat) : (s.delayMs n).idx = s.idx := rfl
@[simp] theorem State.delayMs_t0 (s : State) (n : Nat) : (s.delayMs n).t0 = s.t0 := rfl
@[simp] theorem State.delayMs_cs (s : State) (n : Nat) : (s.delayMs n).cs = s.cs := rfl
@[simp] theorem State.delayMs_rx (s : State) (n : Nat) : (s.delayMs n).rx = s.rx := rfl
@[simp] theorem State.delayMs_tx (s : State) (n : Nat) : (s.delayMs n).tx = s.tx := rfl
@[simp] theorem State.delayMs_txSent (s : State) (n : Nat) : (s.delayMs n).txSent = s.txSent := rfl
@[simp] theorem State.delayMs_clockUs (s : State) (n : Nat) : (s.delayMs n).clockUs = s.clockUs + n * 1000 := rfl
@[simp] theorem State.delayMs_mem (s : State) (n : Nat) : (s.delayMs n).mem = s.mem := rfl
@[simp] theorem State.delayMs_busyUs (s : State) (n : Nat) : (s.delayMs n).busyUs = runDown s.busyUs (n * 1000) := rfl
@[simp] theorem State.delayMs_busyAt (s : State) (n : Nat) : (s.delayMs n).busyAt = s.busyAt := rfl
@[simp] theorem State.delayMs_inWait (s : State) (n : Nat) : (s.delayMs n).inWait = s.inWait := rfl
@[simp] theorem State.delayMs_ret (s : State) (n : Nat) : (s.delayMs n).ret = s.ret := rfl
@[simp] theorem State.delayMs_reading (s : State) (n : Nat) : (s.delayMs n).reading = s.reading := rfl
@[simp] theorem State.delayMs_draws (s : State) (n : Nat) : (s.delayMs n).draws = s.draws := rfl
@[simp] theorem State.delayMs_script (s : State) (n : Nat) : (s.delayMs n).script = s.script := rfl

/-! ### After `Sleep` -/

@[simp] theorem State.sleep_ser (s : State) : s.sleep.ser = s.ser := rfl
@[simp] theorem State.sleep_sck (s : State) : s.sleep.sck = s.sck := rfl
@[simp] theorem State.sleep_rck (s : State) : s.sleep.rck = s.rck := rfl
@[simp] theorem State.sleep_sr (s : State) : s.sleep.sr = s.sr := rfl
@[simp] theorem State.sleep_al (s : State) : s.sleep.al = s.al := rfl
@[simp] theorem State.sleep_dir (s : State) : s.sleep.dir = s.dir := rfl
@[simp] theorem State.sleep_dout (s : State) : s.sleep.dout = s.dout := rfl
@[simp] theorem State.sleep_weN (s : State) : s.sleep.weN = s.weN := rfl
@[simp] theorem State.sleep_opA (s : State) : s.sleep.opA = s.opA := rfl
@[simp] theorem State.sleep_opV (s : State) : s.sleep.opV = s.opV := rfl
@[simp] theorem State.sleep_opL (s : State) : s.sleep.opL = s.opL := rfl
@[simp] theorem State.sleep_start (s : State) : s.sleep.start = s.start := rfl
@[simp] theorem State.sleep_maxb (s : State) : s.sleep.maxb = s.maxb := rfl
@[simp] theorem State.sleep_cursor (s : State) : s.sleep.cursor = s.cursor := rfl
@[simp] theorem State.sleep_idx (s : State) : s.sleep.idx = s.idx := rfl
@[simp] theorem State.sleep_t0 (s : State) : s.sleep.t0 = s.t0 := rfl
@[simp] theorem State.sleep_cs (s : State) : s.sleep.cs = s.cs := rfl
@[simp] theorem State.sleep_rx (s : State) : s.sleep.rx = s.rx := rfl
@[simp] theorem State.sleep_tx (s : State) : s.sleep.tx = s.tx := rfl
@[simp] theorem State.sleep_txSent (s : State) : s.sleep.txSent = s.txSent := rfl
@[simp] theorem State.sleep_clockUs (s : State) : s.sleep.clockUs = s.clockUs + Config.pollSleepUs := rfl
@[simp] theorem State.sleep_mem (s : State) : s.sleep.mem = s.mem := rfl
@[simp] theorem State.sleep_busyUs (s : State) : s.sleep.busyUs = runDown s.busyUs Config.pollSleepUs := rfl
@[simp] theorem State.sleep_busyAt (s : State) : s.sleep.busyAt = s.busyAt := rfl
@[simp] theorem State.sleep_inWait (s : State) : s.sleep.inWait = s.inWait := rfl
@[simp] theorem State.sleep_ret (s : State) : s.sleep.ret = s.ret := rfl
@[simp] theorem State.sleep_reading (s : State) : s.sleep.reading = s.reading := rfl
@[simp] theorem State.sleep_draws (s : State) : s.sleep.draws = s.draws := rfl
@[simp] theorem State.sleep_script (s : State) : s.sleep.script = s.script := rfl

/-! ### After `TxText` -/

@[simp] theorem State.txText_ser (s : State) (b : List Byte) : (s.txText b).ser = s.ser := rfl
@[simp] theorem State.txText_sck (s : State) (b : List Byte) : (s.txText b).sck = s.sck := rfl
@[simp] theorem State.txText_rck (s : State) (b : List Byte) : (s.txText b).rck = s.rck := rfl
@[simp] theorem State.txText_sr (s : State) (b : List Byte) : (s.txText b).sr = s.sr := rfl
@[simp] theorem State.txText_al (s : State) (b : List Byte) : (s.txText b).al = s.al := rfl
@[simp] theorem State.txText_dir (s : State) (b : List Byte) : (s.txText b).dir = s.dir := rfl
@[simp] theorem State.txText_dout (s : State) (b : List Byte) : (s.txText b).dout = s.dout := rfl
@[simp] theorem State.txText_weN (s : State) (b : List Byte) : (s.txText b).weN = s.weN := rfl
@[simp] theorem State.txText_opA (s : State) (b : List Byte) : (s.txText b).opA = s.opA := rfl
@[simp] theorem State.txText_opV (s : State) (b : List Byte) : (s.txText b).opV = s.opV := rfl
@[simp] theorem State.txText_opL (s : State) (b : List Byte) : (s.txText b).opL = s.opL := rfl
@[simp] theorem State.txText_start (s : State) (b : List Byte) : (s.txText b).start = s.start := rfl
@[simp] theorem State.txText_maxb (s : State) (b : List Byte) : (s.txText b).maxb = s.maxb := rfl
@[simp] theorem State.txText_cursor (s : State) (b : List Byte) : (s.txText b).cursor = s.cursor := rfl
@[simp] theorem State.txText_idx (s : State) (b : List Byte) : (s.txText b).idx = s.idx := rfl
@[simp] theorem State.txText_t0 (s : State) (b : List Byte) : (s.txText b).t0 = s.t0 := rfl
@[simp] theorem State.txText_cs (s : State) (b : List Byte) : (s.txText b).cs = s.cs := rfl
@[simp] theorem State.txText_rx (s : State) (b : List Byte) : (s.txText b).rx = s.rx := rfl
@[simp] theorem State.txText_tx (s : State) (b : List Byte) : (s.txText b).tx = s.tx ++ b := rfl
@[simp] theorem State.txText_txSent (s : State) (b : List Byte) : (s.txText b).txSent = s.txSent := rfl
@[simp] theorem State.txText_clockUs (s : State) (b : List Byte) : (s.txText b).clockUs = s.clockUs := rfl
@[simp] theorem State.txText_mem (s : State) (b : List Byte) : (s.txText b).mem = s.mem := rfl
@[simp] theorem State.txText_busyUs (s : State) (b : List Byte) : (s.txText b).busyUs = s.busyUs := rfl
@[simp] theorem State.txText_busyAt (s : State) (b : List Byte) : (s.txText b).busyAt = s.busyAt := rfl
@[simp] theorem State.txText_inWait (s : State) (b : List Byte) : (s.txText b).inWait = s.inWait := rfl
@[simp] theorem State.txText_ret (s : State) (b : List Byte) : (s.txText b).ret = s.ret := rfl
@[simp] theorem State.txText_reading (s : State) (b : List Byte) : (s.txText b).reading = s.reading := rfl
@[simp] theorem State.txText_draws (s : State) (b : List Byte) : (s.txText b).draws = s.draws := rfl
@[simp] theorem State.txText_script (s : State) (b : List Byte) : (s.txText b).script = s.script := rfl

/-! ### After `TxFlush` -/

@[simp] theorem State.txFlush_ser (s : State) : s.txFlush.ser = s.ser := rfl
@[simp] theorem State.txFlush_sck (s : State) : s.txFlush.sck = s.sck := rfl
@[simp] theorem State.txFlush_rck (s : State) : s.txFlush.rck = s.rck := rfl
@[simp] theorem State.txFlush_sr (s : State) : s.txFlush.sr = s.sr := rfl
@[simp] theorem State.txFlush_al (s : State) : s.txFlush.al = s.al := rfl
@[simp] theorem State.txFlush_dir (s : State) : s.txFlush.dir = s.dir := rfl
@[simp] theorem State.txFlush_dout (s : State) : s.txFlush.dout = s.dout := rfl
@[simp] theorem State.txFlush_weN (s : State) : s.txFlush.weN = s.weN := rfl
@[simp] theorem State.txFlush_opA (s : State) : s.txFlush.opA = s.opA := rfl
@[simp] theorem State.txFlush_opV (s : State) : s.txFlush.opV = s.opV := rfl
@[simp] theorem State.txFlush_opL (s : State) : s.txFlush.opL = s.opL := rfl
@[simp] theorem State.txFlush_start (s : State) : s.txFlush.start = s.start := rfl
@[simp] theorem State.txFlush_maxb (s : State) : s.txFlush.maxb = s.maxb := rfl
@[simp] theorem State.txFlush_cursor (s : State) : s.txFlush.cursor = s.cursor := rfl
@[simp] theorem State.txFlush_idx (s : State) : s.txFlush.idx = s.idx := rfl
@[simp] theorem State.txFlush_t0 (s : State) : s.txFlush.t0 = s.t0 := rfl
@[simp] theorem State.txFlush_cs (s : State) : s.txFlush.cs = s.cs := rfl
@[simp] theorem State.txFlush_rx (s : State) : s.txFlush.rx = s.rx := rfl
@[simp] theorem State.txFlush_tx (s : State) : s.txFlush.tx = s.tx := rfl
@[simp] theorem State.txFlush_txSent (s : State) : s.txFlush.txSent = s.tx.length := rfl
@[simp] theorem State.txFlush_clockUs (s : State) : s.txFlush.clockUs = s.clockUs := rfl
@[simp] theorem State.txFlush_mem (s : State) : s.txFlush.mem = s.mem := rfl
@[simp] theorem State.txFlush_busyUs (s : State) : s.txFlush.busyUs = s.busyUs := rfl
@[simp] theorem State.txFlush_busyAt (s : State) : s.txFlush.busyAt = s.busyAt := rfl
@[simp] theorem State.txFlush_inWait (s : State) : s.txFlush.inWait = s.inWait := rfl
@[simp] theorem State.txFlush_ret (s : State) : s.txFlush.ret = s.ret := rfl
@[simp] theorem State.txFlush_reading (s : State) : s.txFlush.reading = s.reading := rfl
@[simp] theorem State.txFlush_draws (s : State) : s.txFlush.draws = s.draws := rfl
@[simp] theorem State.txFlush_script (s : State) : s.txFlush.script = s.script := rfl

/-! ### After `RxDrain` -/

@[simp] theorem State.rxDrain_ser (s : State) : s.rxDrain.ser = s.ser := rfl
@[simp] theorem State.rxDrain_sck (s : State) : s.rxDrain.sck = s.sck := rfl
@[simp] theorem State.rxDrain_rck (s : State) : s.rxDrain.rck = s.rck := rfl
@[simp] theorem State.rxDrain_sr (s : State) : s.rxDrain.sr = s.sr := rfl
@[simp] theorem State.rxDrain_al (s : State) : s.rxDrain.al = s.al := rfl
@[simp] theorem State.rxDrain_dir (s : State) : s.rxDrain.dir = s.dir := rfl
@[simp] theorem State.rxDrain_dout (s : State) : s.rxDrain.dout = s.dout := rfl
@[simp] theorem State.rxDrain_weN (s : State) : s.rxDrain.weN = s.weN := rfl
@[simp] theorem State.rxDrain_opA (s : State) : s.rxDrain.opA = s.opA := rfl
@[simp] theorem State.rxDrain_opV (s : State) : s.rxDrain.opV = s.opV := rfl
@[simp] theorem State.rxDrain_opL (s : State) : s.rxDrain.opL = s.opL := rfl
@[simp] theorem State.rxDrain_start (s : State) : s.rxDrain.start = s.start := rfl
@[simp] theorem State.rxDrain_maxb (s : State) : s.rxDrain.maxb = s.maxb := rfl
@[simp] theorem State.rxDrain_cursor (s : State) : s.rxDrain.cursor = s.cursor := rfl
@[simp] theorem State.rxDrain_idx (s : State) : s.rxDrain.idx = s.idx := rfl
@[simp] theorem State.rxDrain_t0 (s : State) : s.rxDrain.t0 = s.t0 := rfl
@[simp] theorem State.rxDrain_cs (s : State) : s.rxDrain.cs = s.cs := rfl
@[simp] theorem State.rxDrain_rx (s : State) : s.rxDrain.rx = [] := rfl
@[simp] theorem State.rxDrain_tx (s : State) : s.rxDrain.tx = s.tx := rfl
@[simp] theorem State.rxDrain_txSent (s : State) : s.rxDrain.txSent = s.txSent := rfl
@[simp] theorem State.rxDrain_clockUs (s : State) : s.rxDrain.clockUs = s.clockUs := rfl
@[simp] theorem State.rxDrain_mem (s : State) : s.rxDrain.mem = s.mem := rfl
@[simp] theorem State.rxDrain_busyUs (s : State) : s.rxDrain.busyUs = s.busyUs := rfl
@[simp] theorem State.rxDrain_busyAt (s : State) : s.rxDrain.busyAt = s.busyAt := rfl
@[simp] theorem State.rxDrain_inWait (s : State) : s.rxDrain.inWait = s.inWait := rfl
@[simp] theorem State.rxDrain_ret (s : State) : s.rxDrain.ret = s.ret := rfl
@[simp] theorem State.rxDrain_reading (s : State) : s.rxDrain.reading = s.reading := rfl
@[simp] theorem State.rxDrain_draws (s : State) : s.rxDrain.draws = s.draws := rfl
@[simp] theorem State.rxDrain_script (s : State) : s.rxDrain.script = s.script := rfl

/-! ### After the acknowledgement -/

@[simp] theorem State.sendAck_ser (s : State) : s.sendAck.ser = s.ser := rfl
@[simp] theorem State.sendAck_sck (s : State) : s.sendAck.sck = s.sck := rfl
@[simp] theorem State.sendAck_rck (s : State) : s.sendAck.rck = s.rck := rfl
@[simp] theorem State.sendAck_sr (s : State) : s.sendAck.sr = s.sr := rfl
@[simp] theorem State.sendAck_al (s : State) : s.sendAck.al = s.al := rfl
@[simp] theorem State.sendAck_dir (s : State) : s.sendAck.dir = s.dir := rfl
@[simp] theorem State.sendAck_dout (s : State) : s.sendAck.dout = s.dout := rfl
@[simp] theorem State.sendAck_weN (s : State) : s.sendAck.weN = s.weN := rfl
@[simp] theorem State.sendAck_opA (s : State) : s.sendAck.opA = s.opA := rfl
@[simp] theorem State.sendAck_opV (s : State) : s.sendAck.opV = s.opV := rfl
@[simp] theorem State.sendAck_opL (s : State) : s.sendAck.opL = s.opL := rfl
@[simp] theorem State.sendAck_start (s : State) : s.sendAck.start = s.start := rfl
@[simp] theorem State.sendAck_maxb (s : State) : s.sendAck.maxb = s.maxb := rfl
@[simp] theorem State.sendAck_cursor (s : State) : s.sendAck.cursor = s.cursor := rfl
@[simp] theorem State.sendAck_idx (s : State) : s.sendAck.idx = s.idx := rfl
@[simp] theorem State.sendAck_t0 (s : State) : s.sendAck.t0 = s.t0 := rfl
@[simp] theorem State.sendAck_cs (s : State) : s.sendAck.cs = s.cs := rfl
@[simp] theorem State.sendAck_rx (s : State) : s.sendAck.rx = s.rx := rfl
@[simp] theorem State.sendAck_tx (s : State) : s.sendAck.tx = s.tx ++ [Config.ackByte] := rfl
@[simp] theorem State.sendAck_txSent (s : State) : s.sendAck.txSent = (s.tx ++ [Config.ackByte]).length := rfl
@[simp] theorem State.sendAck_clockUs (s : State) : s.sendAck.clockUs = s.clockUs := rfl
@[simp] theorem State.sendAck_mem (s : State) : s.sendAck.mem = s.mem := rfl
@[simp] theorem State.sendAck_busyUs (s : State) : s.sendAck.busyUs = s.busyUs := rfl
@[simp] theorem State.sendAck_busyAt (s : State) : s.sendAck.busyAt = s.busyAt := rfl
@[simp] theorem State.sendAck_inWait (s : State) : s.sendAck.inWait = s.inWait := rfl
@[simp] theorem State.sendAck_ret (s : State) : s.sendAck.ret = s.ret := rfl
@[simp] theorem State.sendAck_reading (s : State) : s.sendAck.reading = s.reading := rfl
@[simp] theorem State.sendAck_draws (s : State) : s.sendAck.draws = s.draws := rfl
@[simp] theorem State.sendAck_script (s : State) : s.sendAck.script = s.script := rfl

/-! ### After the end of a command -/

@[simp] theorem State.endCommand_ser (s : State) : s.endCommand.ser = s.ser := rfl
@[simp] theorem State.endCommand_sck (s : State) : s.endCommand.sck = s.sck := rfl
@[simp] theorem State.endCommand_rck (s : State) : s.endCommand.rck = s.rck := rfl
@[simp] theorem State.endCommand_sr (s : State) : s.endCommand.sr = s.sr := rfl
@[simp] theorem State.endCommand_al (s : State) : s.endCommand.al = s.al := rfl
@[simp] theorem State.endCommand_dir (s : State) : s.endCommand.dir = s.dir := rfl
@[simp] theorem State.endCommand_dout (s : State) : s.endCommand.dout = s.dout := rfl
@[simp] theorem State.endCommand_weN (s : State) : s.endCommand.weN = s.weN := rfl
@[simp] theorem State.endCommand_opA (s : State) : s.endCommand.opA = none := rfl
@[simp] theorem State.endCommand_opV (s : State) : s.endCommand.opV = none := rfl
@[simp] theorem State.endCommand_opL (s : State) : s.endCommand.opL = none := rfl
@[simp] theorem State.endCommand_start (s : State) : s.endCommand.start = s.start := rfl
@[simp] theorem State.endCommand_maxb (s : State) : s.endCommand.maxb = s.maxb := rfl
@[simp] theorem State.endCommand_cursor (s : State) : s.endCommand.cursor = s.cursor := rfl
@[simp] theorem State.endCommand_idx (s : State) : s.endCommand.idx = s.idx := rfl
@[simp] theorem State.endCommand_t0 (s : State) : s.endCommand.t0 = s.t0 := rfl
@[simp] theorem State.endCommand_cs (s : State) : s.endCommand.cs = .idle := rfl
@[simp] theorem State.endCommand_rx (s : State) : s.endCommand.rx = s.rx := rfl
@[simp] theorem State.endCommand_tx (s : State) : s.endCommand.tx = s.tx := rfl
@[simp] theorem State.endCommand_txSent (s : State) : s.endCommand.txSent = s.txSent := rfl
@[simp] theorem State.endCommand_clockUs (s : State) : s.endCommand.clockUs = s.clockUs := rfl
@[simp] theorem State.endCommand_mem (s : State) : s.endCommand.mem = s.mem := rfl
@[simp] theorem State.endCommand_busyUs (s : State) : s.endCommand.busyUs = s.busyUs := rfl
@[simp] theorem State.endCommand_busyAt (s : State) : s.endCommand.busyAt = s.busyAt := rfl
@[simp] theorem State.endCommand_inWait (s : State) : s.endCommand.inWait = s.inWait := rfl
@[simp] theorem State.endCommand_ret (s : State) : s.endCommand.ret = s.ret := rfl
@[simp] theorem State.endCommand_reading (s : State) : s.endCommand.reading = s.reading := rfl
@[simp] theorem State.endCommand_draws (s : State) : s.endCommand.draws = s.draws := rfl
@[simp] theorem State.endCommand_script (s : State) : s.endCommand.script = s.script := rfl

/-! ### After the end of a session -/

@[simp] theorem State.endSession_ser (s : State) : s.endSession.ser = s.ser := rfl
@[simp] theorem State.endSession_sck (s : State) : s.endSession.sck = s.sck := rfl
@[simp] theorem State.endSession_rck (s : State) : s.endSession.rck = s.rck := rfl
@[simp] theorem State.endSession_sr (s : State) : s.endSession.sr = s.sr := rfl
@[simp] theorem State.endSession_al (s : State) : s.endSession.al = s.al := rfl
@[simp] theorem State.endSession_dir (s : State) : s.endSession.dir = s.dir := rfl
@[simp] theorem State.endSession_dout (s : State) : s.endSession.dout = s.dout := rfl
@[simp] theorem State.endSession_weN (s : State) : s.endSession.weN = s.weN := rfl
@[simp] theorem State.endSession_opA (s : State) : s.endSession.opA = none := rfl
@[simp] theorem State.endSession_opV (s : State) : s.endSession.opV = none := rfl
@[simp] theorem State.endSession_opL (s : State) : s.endSession.opL = none := rfl
@[simp] theorem State.endSession_start (s : State) : s.endSession.start = none := rfl
@[simp] theorem State.endSession_maxb (s : State) : s.endSession.maxb = none := rfl
@[simp] theorem State.endSession_cursor (s : State) : s.endSession.cursor = none := rfl
@[simp] theorem State.endSession_idx (s : State) : s.endSession.idx = none := rfl
@[simp] theorem State.endSession_t0 (s : State) : s.endSession.t0 = none := rfl
@[simp] theorem State.endSession_cs (s : State) : s.endSession.cs = .idle := rfl
@[simp] theorem State.endSession_rx (s : State) : s.endSession.rx = s.rx := rfl
@[simp] theorem State.endSession_tx (s : State) : s.endSession.tx = s.tx := rfl
@[simp] theorem State.endSession_txSent (s : State) : s.endSession.txSent = s.txSent := rfl
@[simp] theorem State.endSession_clockUs (s : State) : s.endSession.clockUs = s.clockUs := rfl
@[simp] theorem State.endSession_mem (s : State) : s.endSession.mem = s.mem := rfl
@[simp] theorem State.endSession_busyUs (s : State) : s.endSession.busyUs = s.busyUs := rfl
@[simp] theorem State.endSession_busyAt (s : State) : s.endSession.busyAt = s.busyAt := rfl
@[simp] theorem State.endSession_inWait (s : State) : s.endSession.inWait = false := rfl
@[simp] theorem State.endSession_ret (s : State) : s.endSession.ret = s.ret := rfl
@[simp] theorem State.endSession_reading (s : State) : s.endSession.reading = s.reading := rfl
@[simp] theorem State.endSession_draws (s : State) : s.endSession.draws = s.draws := rfl
@[simp] theorem State.endSession_script (s : State) : s.endSession.script = s.script := rfl

/-! ### After `MemWrite` -/

@[simp] theorem State.memWrite_ser (s : State) (v : Byte) : (s.memWrite v).ser = s.ser := rfl
@[simp] theorem State.memWrite_sck (s : State) (v : Byte) : (s.memWrite v).sck = s.sck := rfl
@[simp] theorem State.memWrite_rck (s : State) (v : Byte) : (s.memWrite v).rck = s.rck := rfl
@[simp] theorem State.memWrite_sr (s : State) (v : Byte) : (s.memWrite v).sr = s.sr := rfl
@[simp] theorem State.memWrite_al (s : State) (v : Byte) : (s.memWrite v).al = s.al := rfl
@[simp] theorem State.memWrite_dir (s : State) (v : Byte) : (s.memWrite v).dir = s.dir := rfl
@[simp] theorem State.memWrite_dout (s : State) (v : Byte) : (s.memWrite v).dout = s.dout := rfl
@[simp] theorem State.memWrite_weN (s : State) (v : Byte) : (s.memWrite v).weN = s.weN := rfl
@[simp] theorem State.memWrite_opA (s : State) (v : Byte) : (s.memWrite v).opA = s.opA := rfl
@[simp] theorem State.memWrite_opV (s : State) (v : Byte) : (s.memWrite v).opV = s.opV := rfl
@[simp] theorem State.memWrite_opL (s : State) (v : Byte) : (s.memWrite v).opL = s.opL := rfl
@[simp] theorem State.memWrite_start (s : State) (v : Byte) : (s.memWrite v).start = s.start := rfl
@[simp] theorem State.memWrite_maxb (s : State) (v : Byte) : (s.memWrite v).maxb = s.maxb := rfl
@[simp] theorem State.memWrite_cursor (s : State) (v : Byte) : (s.memWrite v).cursor = s.cursor := rfl
@[simp] theorem State.memWrite_idx (s : State) (v : Byte) : (s.memWrite v).idx = s.idx := rfl
@[simp] theorem State.memWrite_t0 (s : State) (v : Byte) : (s.memWrite v).t0 = s.t0 := rfl
@[simp] theorem State.memWrite_cs (s : State) (v : Byte) : (s.memWrite v).cs = s.cs := rfl
@[simp] theorem State.memWrite_rx (s : State) (v : Byte) : (s.memWrite v).rx = s.rx := rfl
@[simp] theorem State.memWrite_tx (s : State) (v : Byte) : (s.memWrite v).tx = s.tx := rfl
@[simp] theorem State.memWrite_txSent (s : State) (v : Byte) : (s.memWrite v).txSent = s.txSent := rfl
@[simp] theorem State.memWrite_clockUs (s : State) (v : Byte) : (s.memWrite v).clockUs = s.clockUs := rfl
@[simp] theorem State.memWrite_mem (s : State) (v : Byte) : (s.memWrite v).mem = Memory.writeAt s.mem s.al v := rfl
@[simp] theorem State.memWrite_busyUs (s : State) (v : Byte) : (s.memWrite v).busyUs = if (Config.cell s.al).isSome then Config.settleMs * 1000 else s.busyUs := rfl
@[simp] theorem State.memWrite_busyAt (s : State) (v : Byte) : (s.memWrite v).busyAt = s.al := rfl
@[simp] theorem State.memWrite_inWait (s : State) (v : Byte) : (s.memWrite v).inWait = s.inWait := rfl
@[simp] theorem State.memWrite_ret (s : State) (v : Byte) : (s.memWrite v).ret = s.ret := rfl
@[simp] theorem State.memWrite_reading (s : State) (v : Byte) : (s.memWrite v).reading = s.reading := rfl
@[simp] theorem State.memWrite_draws (s : State) (v : Byte) : (s.memWrite v).draws = s.draws := rfl
@[simp] theorem State.memWrite_script (s : State) (v : Byte) : (s.memWrite v).script = s.script := rfl

/-! ### After an address presented -/

@[simp] theorem State.pointedAt_ser (s : State) (a : Word) : (s.pointedAt a).ser = a.getLsbD 0 := rfl
@[simp] theorem State.pointedAt_sck (s : State) (a : Word) : (s.pointedAt a).sck = false := rfl
@[simp] theorem State.pointedAt_rck (s : State) (a : Word) : (s.pointedAt a).rck = true := rfl
@[simp] theorem State.pointedAt_sr (s : State) (a : Word) : (s.pointedAt a).sr = a := rfl
@[simp] theorem State.pointedAt_al (s : State) (a : Word) : (s.pointedAt a).al = a := rfl
@[simp] theorem State.pointedAt_dir (s : State) (a : Word) : (s.pointedAt a).dir = s.dir := rfl
@[simp] theorem State.pointedAt_dout (s : State) (a : Word) : (s.pointedAt a).dout = s.dout := rfl
@[simp] theorem State.pointedAt_weN (s : State) (a : Word) : (s.pointedAt a).weN = s.weN := rfl
@[simp] theorem State.pointedAt_opA (s : State) (a : Word) : (s.pointedAt a).opA = s.opA := rfl
@[simp] theorem State.pointedAt_opV (s : State) (a : Word) : (s.pointedAt a).opV = s.opV := rfl
@[simp] theorem State.pointedAt_opL (s : State) (a : Word) : (s.pointedAt a).opL = s.opL := rfl
@[simp] theorem State.pointedAt_start (s : State) (a : Word) : (s.pointedAt a).start = s.start := rfl
@[simp] theorem State.pointedAt_maxb (s : State) (a : Word) : (s.pointedAt a).maxb = s.maxb := rfl
@[simp] theorem State.pointedAt_cursor (s : State) (a : Word) : (s.pointedAt a).cursor = s.cursor := rfl
@[simp] theorem State.pointedAt_idx (s : State) (a : Word) : (s.pointedAt a).idx = s.idx := rfl
@[simp] theorem State.pointedAt_t0 (s : State) (a : Word) : (s.pointedAt a).t0 = s.t0 := rfl
@[simp] theorem State.pointedAt_cs (s : State) (a : Word) : (s.pointedAt a).cs = s.cs := rfl
@[simp] theorem State.pointedAt_rx (s : State) (a : Word) : (s.pointedAt a).rx = s.rx := rfl
@[simp] theorem State.pointedAt_tx (s : State) (a : Word) : (s.pointedAt a).tx = s.tx := rfl
@[simp] theorem State.pointedAt_txSent (s : State) (a : Word) : (s.pointedAt a).txSent = s.txSent := rfl
@[simp] theorem State.pointedAt_clockUs (s : State) (a : Word) : (s.pointedAt a).clockUs = s.clockUs := rfl
@[simp] theorem State.pointedAt_mem (s : State) (a : Word) : (s.pointedAt a).mem = s.mem := rfl
@[simp] theorem State.pointedAt_busyUs (s : State) (a : Word) : (s.pointedAt a).busyUs = s.busyUs := rfl
@[simp] theorem State.pointedAt_busyAt (s : State) (a : Word) : (s.pointedAt a).busyAt = s.busyAt := rfl
@[simp] theorem State.pointedAt_inWait (s : State) (a : Word) : (s.pointedAt a).inWait = s.inWait := rfl
@[simp] theorem State.pointedAt_ret (s : State) (a : Word) : (s.pointedAt a).ret = s.ret := rfl
@[simp] theorem State.pointedAt_reading (s : State) (a : Word) : (s.pointedAt a).reading = s.reading := rfl
@[simp] theorem State.pointedAt_draws (s : State) (a : Word) : (s.pointedAt a).draws = s.draws := rfl
@[simp] theorem State.pointedAt_script (s : State) (a : Word) : (s.pointedAt a).script = s.script := rfl

/-! ### After a move of the outside world -/

@[simp] theorem State.pass_ser (s : State) (us : Nat) (bs : List Byte) (n : Nat) (rest : List EnvMove) : (s.pass us bs n rest).ser = s.ser := rfl
@[simp] theorem State.pass_sck (s : State) (us : Nat) (bs : List Byte) (n : Nat) (rest : List EnvMove) : (s.pass us bs n rest).sck = s.sck := rfl
@[simp] theorem State.pass_rck (s : State) (us : Nat) (bs : List Byte) (n : Nat) (rest : List EnvMove) : (s.pass us bs n rest).rck = s.rck := rfl
@[simp] theorem State.pass_sr (s : State) (us : Nat) (bs : List Byte) (n : Nat) (rest : List EnvMove) : (s.pass us bs n rest).sr = s.sr := rfl
@[simp] theorem State.pass_al (s : State) (us : Nat) (bs : List Byte) (n : Nat) (rest : List EnvMove) : (s.pass us bs n rest).al = s.al := rfl
@[simp] theorem State.pass_dir (s : State) (us : Nat) (bs : List Byte) (n : Nat) (rest : List EnvMove) : (s.pass us bs n rest).dir = s.dir := rfl
@[simp] theorem State.pass_dout (s : State) (us : Nat) (bs : List Byte) (n : Nat) (rest : List EnvMove) : (s.pass us bs n rest).dout = s.dout := rfl
@[simp] theorem State.pass_weN (s : State) (us : Nat) (bs : List Byte) (n : Nat) (rest : List EnvMove) : (s.pass us bs n rest).weN = s.weN := rfl
@[simp] theorem State.pass_opA (s : State) (us : Nat) (bs : List Byte) (n : Nat) (rest : List EnvMove) : (s.pass us bs n rest).opA = s.opA := rfl
@[simp] theorem State.pass_opV (s : State) (us : Nat) (bs : List Byte) (n : Nat) (rest : List EnvMove) : (s.pass us bs n rest).opV = s.opV := rfl
@[simp] theorem State.pass_opL (s : State) (us : Nat) (bs : List Byte) (n : Nat) (rest : List EnvMove) : (s.pass us bs n rest).opL = s.opL := rfl
@[simp] theorem State.pass_start (s : State) (us : Nat) (bs : List Byte) (n : Nat) (rest : List EnvMove) : (s.pass us bs n rest).start = s.start := rfl
@[simp] theorem State.pass_maxb (s : State) (us : Nat) (bs : List Byte) (n : Nat) (rest : List EnvMove) : (s.pass us bs n rest).maxb = s.maxb := rfl
@[simp] theorem State.pass_cursor (s : State) (us : Nat) (bs : List Byte) (n : Nat) (rest : List EnvMove) : (s.pass us bs n rest).cursor = s.cursor := rfl
@[simp] theorem State.pass_idx (s : State) (us : Nat) (bs : List Byte) (n : Nat) (rest : List EnvMove) : (s.pass us bs n rest).idx = s.idx := rfl
@[simp] theorem State.pass_t0 (s : State) (us : Nat) (bs : List Byte) (n : Nat) (rest : List EnvMove) : (s.pass us bs n rest).t0 = s.t0 := rfl
@[simp] theorem State.pass_cs (s : State) (us : Nat) (bs : List Byte) (n : Nat) (rest : List EnvMove) : (s.pass us bs n rest).cs = s.cs := rfl
@[simp] theorem State.pass_rx (s : State) (us : Nat) (bs : List Byte) (n : Nat) (rest : List EnvMove) : (s.pass us bs n rest).rx = s.rx ++ bs := rfl
@[simp] theorem State.pass_tx (s : State) (us : Nat) (bs : List Byte) (n : Nat) (rest : List EnvMove) : (s.pass us bs n rest).tx = s.tx := rfl
@[simp] theorem State.pass_txSent (s : State) (us : Nat) (bs : List Byte) (n : Nat) (rest : List EnvMove) : (s.pass us bs n rest).txSent = min (s.txSent + n) s.tx.length := rfl
@[simp] theorem State.pass_clockUs (s : State) (us : Nat) (bs : List Byte) (n : Nat) (rest : List EnvMove) : (s.pass us bs n rest).clockUs = s.clockUs + us := rfl
@[simp] theorem State.pass_mem (s : State) (us : Nat) (bs : List Byte) (n : Nat) (rest : List EnvMove) : (s.pass us bs n rest).mem = s.mem := rfl
@[simp] theorem State.pass_busyUs (s : State) (us : Nat) (bs : List Byte) (n : Nat) (rest : List EnvMove) : (s.pass us bs n rest).busyUs = runDown s.busyUs us := rfl
@[simp] theorem State.pass_busyAt (s : State) (us : Nat) (bs : List Byte) (n : Nat) (rest : List EnvMove) : (s.pass us bs n rest).busyAt = s.busyAt := rfl
@[simp] theorem State.pass_inWait (s : State) (us : Nat) (bs : List Byte) (n : Nat) (rest : List EnvMove) : (s.pass us bs n rest).inWait = s.inWait := rfl
@[simp] theorem State.pass_ret (s : State) (us : Nat) (bs : List Byte) (n : Nat) (rest : List EnvMove) : (s.pass us bs n rest).ret = s.ret := rfl
@[simp] theorem State.pass_reading (s : State) (us : Nat) (bs : List Byte) (n : Nat) (rest : List EnvMove) : (s.pass us bs n rest).reading = s.reading := rfl
@[simp] theorem State.pass_draws (s : State) (us : Nat) (bs : List Byte) (n : Nat) (rest : List EnvMove) : (s.pass us bs n rest).draws = s.draws := rfl
@[simp] theorem State.pass_script (s : State) (us : Nat) (bs : List Byte) (n : Nat) (rest : List EnvMove) : (s.pass us bs n rest).script = rest := rfl

end Sys2Proof.Machine
end

