-- ==== Sys2Proof/Laws/Pins.lean ====
section
/-!
SUPPORT. What the pin-level operations leave behind: the net effect of each list of pin events (40_address_mux.md R120 to
R122, 41_data_bus.md R140, R142, 42_byte_access.md R160).
-/
namespace Sys2Proof.Machine

@[simp] theorem State.pins_nil (s : State) : s.pins [] = s := rfl

@[simp] theorem State.pins_cons (s : State) (e : PinEvent) (es : List PinEvent) :
    s.pins (e :: es) = (s.pin e).pins es := rfl

theorem State.pins_append (s : State) (es fs : List PinEvent) : s.pins (es ++ fs) = (s.pins es).pins fs :=
  List.foldl_append

/-- A bit shifted into a word at its low end. -/
def shiftIn (v : Word) (b : Bool) : Word := (v <<< 1) ||| (BitVec.ofBool b).setWidth 16

/-- One bit through the chain while SCK is low (R120, R123). -/
theorem State.shiftBit_eq {s : State} (h : s.sck = false) (b : Bool) :
    s.shiftBit b = { s with ser := b, sck := false, sr := shiftIn s.sr b } := by
  simp [State.shiftBit, shiftBitEvents, State.pin, h, shiftIn]

/-- Bits through the chain, one after the other (R121). -/
theorem State.shiftBits_eq {s : State} (h : s.sck = false) (bits : List Bool) :
    s.pins (shiftBitsEvents bits) =
      { s with ser := bits.getLastD s.ser, sck := false, sr := bits.foldl shiftIn s.sr } := by
  induction bits generalizing s with
  | nil => simp only [shiftBitsEvents, List.flatMap_nil, State.pins_nil, List.getLastD_nil, List.foldl_nil, ← h]
  | cons b bits ih =>
    have h1 : s.pins (shiftBitsEvents (b :: bits)) = (s.shiftBit b).pins (shiftBitsEvents bits) := by
      rw [State.shiftBit, shiftBitsEvents, List.flatMap_cons, State.pins_append]; rfl
    rw [h1, State.shiftBit_eq h, ih rfl, List.getLastD_cons, List.foldl_cons]

/-- Eight shifts put a byte into the low half and move the low half up (R121). -/
theorem foldl_shiftIn_byte (x : Word) (v : Byte) :
    (bitsMsbFirst v).foldl shiftIn x = (x <<< 8) ||| v.setWidth 16 := by
  apply BitVec.eq_of_getLsbD_eq
  intro i hi
  simp only [bitsMsbFirst, List.foldl_cons, List.foldl_nil, shiftIn]
  simp only [BitVec.getLsbD_or, BitVec.getLsbD_shiftLeft, BitVec.getLsbD_setWidth, BitVec.getLsbD_ofBool]
  interval_cases i <;> simp

theorem State.shiftByte_eq {s : State} (h : s.sck = false) (v : Byte) :
    s.shiftByte v = { s with ser := v.getLsbD 0, sck := false, sr := (s.sr <<< 8) ||| v.setWidth 16 } := by
  rw [State.shiftByte, State.shiftBits_eq h, foldl_shiftIn_byte]
  rfl

theorem hiByte_loByte (x a : Word) :
    ((x <<< 8 ||| (hiByte a).setWidth 16) <<< 8) ||| (loByte a).setWidth 16 = a := by
  apply BitVec.eq_of_getLsbD_eq
  intro i hi
  simp only [hiByte, loByte, BitVec.getLsbD_or, BitVec.getLsbD_shiftLeft, BitVec.getLsbD_setWidth,
    BitVec.getLsbD_extractLsb']
  interval_cases i <;> simp

/-- An address presented: SR and AL hold it, whatever they held before (R122, R125). -/
theorem State.setAddress_eq {s : State} (h : s.sck = false) (a : Word) : s.setAddress a = s.pointedAt a := by
  rw [State.setAddress, setAddressEvents, State.pins_cons, State.pins_append, State.pins_append]
  have h0 : (s.pin (.rck false)) = { s with rck := false } := by simp [State.pin]
  have h1 := State.shiftBits_eq (s := { s with rck := false }) h (bitsMsbFirst (hiByte a))
  rw [h0, h1, State.shiftBits_eq rfl, foldl_shiftIn_byte, foldl_shiftIn_byte, hiByte_loByte]
  simp [State.pin, State.pointedAt, bitsMsbFirst, loByte]

theorem setBit_all (x v : Byte) :
    setBit (setBit (setBit (setBit (setBit (setBit (setBit (setBit x 0 (v.getLsbD 0)) 1 (v.getLsbD 1)) 2 (v.getLsbD 2))
      3 (v.getLsbD 3)) 4 (v.getLsbD 4)) 5 (v.getLsbD 5)) 6 (v.getLsbD 6)) 7 (v.getLsbD 7) = v := by
  have step : ∀ (y : Byte) (i j : Nat) (b : Bool), i < 8 → j < 8 →
      (setBit y i b).getLsbD j = if j = i then b else y.getLsbD j := by
    intro y i j b hi hj
    unfold setBit
    interval_cases i <;> interval_cases j <;> cases b <;> simp
  apply BitVec.eq_of_getLsbD_eq
  intro j hj
  rw [step _ _ _ _ (by omega) hj, step _ _ _ _ (by omega) hj, step _ _ _ _ (by omega) hj, step _ _ _ _ (by omega) hj,
    step _ _ _ _ (by omega) hj, step _ _ _ _ (by omega) hj, step _ _ _ _ (by omega) hj, step _ _ _ _ (by omega) hj]
  interval_cases j <;> simp

/-- The direction of all eight lines (R140). -/
theorem State.setBusDir_eq (s : State) (d : Dir) :
    s.setBusDir d = { s with dir := if d = .out then 0xFF else 0x00 } := by
  have h : ∀ (s : State) (i : Nat) (b : Dir), s.pin (.dir i b) = { s with dir := setBit s.dir i (b == .out) } :=
    fun _ _ _ => rfl
  have hin := setBit_all s.dir 0x00
  have hout := setBit_all s.dir 0xFF
  cases d
  · simp only [State.setBusDir, setBusDirEvents, List.range, List.range.loop, List.map, State.pins_cons, State.pins_nil, h]
    congr 1
  · simp only [State.setBusDir, setBusDirEvents, List.range, List.range.loop, List.map, State.pins_cons, State.pins_nil, h]
    congr 1

theorem State.setBusDir_inp (s : State) : s.setBusDir .inp = { s with dir := 0x00 } := State.setBusDir_eq s .inp

theorem State.setBusDir_out (s : State) : s.setBusDir .out = { s with dir := 0xFF } := State.setBusDir_eq s .out

/-- The levels the block drives (R142). -/
theorem State.writeByte_pins_eq (s : State) (v : Byte) : s.pins (writeByteEvents v) = { s with dout := v } := by
  have h : ∀ (s : State) (i : Nat) (b : Bool), s.pin (.dout i b) = { s with dout := setBit s.dout i b } :=
    fun _ _ _ => rfl
  simp only [writeByteEvents, List.range, List.range.loop, List.map, State.pins_cons, State.pins_nil, h]
  congr 1
  exact setBit_all s.dout v

theorem ones_and (v : Byte) : (0xFF : Byte) &&& v = v := by
  apply BitVec.eq_of_getLsbD_eq
  intro i hi
  interval_cases i <;> simp

/-- With all lines OUT the bus carries DOUT (R143). -/
theorem State.busLevel_out {s : State} (h : s.dir = 0xFF) : s.busLevel = s.dout := by
  simp [State.busLevel, h]

/-- With all lines IN the bus carries the chip's output (R143). -/
theorem State.busLevel_in {s : State} (h : s.dir = 0x00) : s.busLevel = s.chipOut := by
  have := ones_and s.chipOut
  simp_all [State.busLevel]

@[simp] theorem runDown_eq (b n : Nat) : runDown b n = b - n := by
  unfold runDown; split <;> simp_all

/-- A write pulse from WE_N high with all lines OUT (R160). -/
theorem State.pulse_pins_eq {s : State} (hd : s.dir = 0xFF) :
    s.pins pulseEvents = { s with
      weN := true, clockUs := s.clockUs + Config.pulseUs, mem := Memory.writeAt s.mem s.al s.dout, busyAt := s.al
      busyUs := if (Config.cell s.al).isSome then Config.settleMs * 1000 else s.busyUs - Config.pulseUs } := by
  have hb := ones_and s.dout
  simp_all [pulseEvents, State.pin, State.delayUs, State.memWrite, State.busLevel]

end Sys2Proof.Machine
end

