-- ==== Sys2Proof/Laws/Access.lean ====
section
/-!
SUPPORT. What the byte operations answer: one lemma each that says all they can do (42_byte_access.md, 43_line_protocol.md
R185, 44_bulk_program.md R213).
-/
namespace Sys2Proof.Machine

@[simp] theorem andThen_next {α β : Type} (a : α) (k : α → Host.Outcome β Fault Refusal) : andThen (.next a) k = k a :=
  rfl

@[simp] theorem andThen_fault {α β : Type} (f : Fault) (k : α → Host.Outcome β Fault Refusal) :
    andThen (.fault f) k = .fault f := rfl

@[simp] theorem andThen_refused {α β : Type} (r : Refusal) (k : α → Host.Outcome β Fault Refusal) :
    andThen (.refused r) k = .refused r := rfl

/-- A sequence answers only if both parts do. -/
theorem andThen_eq_next {α β : Type} {o : Host.Outcome α Fault Refusal} {k : α → Host.Outcome β Fault Refusal} {b : β}
    (h : andThen o k = .next b) : ∃ a, o = .next a ∧ k a = .next b := by
  cases o with
  | next a => exact ⟨a, rfl, h⟩
  | fault f => simp at h
  | refused r => simp at h

/-- An event on SER, SCK or RCK. -/
def PinEvent.isChain : PinEvent → Bool
  | .ser _ | .sck _ | .rck _ => true
  | .weN _ | .dir _ _ | .dout _ _ | .wait _ => false

/-- The five pieces of ADDRMUX as another state has them. -/
def State.withChain (s t : State) : State := { s with ser := t.ser, sck := t.sck, rck := t.rck, sr := t.sr, al := t.al }

/-- Events on the chain's lines change ADDRMUX only. -/
theorem State.pins_chain (s : State) (es : List PinEvent) (h : ∀ e ∈ es, e.isChain = true) :
    s.pins es = s.withChain (s.pins es) := by
  induction es generalizing s with
  | nil => rfl
  | cons e es ih =>
    have h1 : s.pin e = s.withChain (s.pin e) := by
      have := h e (by simp)
      cases e <;> simp_all [PinEvent.isChain, State.pin, State.withChain]
    have h2 := ih (s.pin e) fun x hx => h x (by simp [hx])
    rw [State.pins_cons]
    generalize (s.pin e).pins es = u at h2 ⊢
    rw [h2]
    generalize s.pin e = w at h1 ⊢
    rw [h1]
    simp [State.withChain]

theorem shiftBitsEvents_chain (bits : List Bool) : ∀ e ∈ shiftBitsEvents bits, e.isChain = true := by
  intro e he
  simp only [shiftBitsEvents, List.mem_flatMap, shiftBitEvents] at he
  obtain ⟨b, -, hb⟩ := he
  simp at hb
  rcases hb with rfl | rfl | rfl <;> rfl

theorem setAddressEvents_chain (a : Word) : ∀ e ∈ setAddressEvents a, e.isChain = true := by
  intro e he
  simp only [setAddressEvents, List.mem_cons, List.mem_append, List.not_mem_nil, or_false] at he
  rcases he with rfl | h | h | rfl
  · rfl
  · exact shiftBitsEvents_chain _ e h
  · exact shiftBitsEvents_chain _ e h
  · rfl

/-- `setAddress` changes ADDRMUX only, from any levels of its lines (R122). -/
theorem State.setAddress_frame (s : State) (a : Word) : s.setAddress a = s.withChain (s.setAddress a) :=
  State.pins_chain s _ (setAddressEvents_chain a)

theorem State.shiftBit_frame (s : State) (b : Bool) : s.shiftBit b = s.withChain (s.shiftBit b) :=
  State.pins_chain s _ (by simp [shiftBitEvents, PinEvent.isChain])

theorem State.shiftByte_frame (s : State) (v : Byte) : s.shiftByte v = s.withChain (s.shiftByte v) :=
  State.pins_chain s _ (shiftBitsEvents_chain _)

/-- The chain shifts without a commit as long as RCK is not written: AL holds (R123, R126). -/
theorem State.shiftBits_keep (s : State) (bits : List Bool) :
    (s.pins (shiftBitsEvents bits)).al = s.al ∧ (s.pins (shiftBitsEvents bits)).rck = s.rck := by
  induction bits generalizing s with
  | nil => exact ⟨rfl, rfl⟩
  | cons b bits ih =>
    have h1 : s.pins (shiftBitsEvents (b :: bits)) = (s.shiftBit b).pins (shiftBitsEvents bits) := by
      rw [State.shiftBit, shiftBitsEvents, List.flatMap_cons, State.pins_append]; rfl
    rw [h1, (ih _).1, (ih _).2]
    simp [State.shiftBit, shiftBitEvents, State.pin]

/-- Draws a read of the presented address `a` makes: one if it selects no cell (R65). -/
def drawsOf (a : Word) : Nat := if (Config.cell a).isSome then 0 else 1

/-- `readByte`, all lines IN and the chip idle: the chip's answer for AL (R141). -/
theorem readByte_eq {s : State} (hd : s.dir = 0x00) (hb : s.busyUs = 0) :
    readByte s = .next (Memory.readAt s.mem s.al (Config.freeByte s.draws), { s with draws := s.draws + drawsOf s.al }) := by
  rw [readByte, if_neg (by simp [hd]), if_neg (by simp [State.wBusy, hb]), State.busLevel_in hd, State.chipOut, drawsOf]
  split <;> rfl

/-- What `readByte` can answer (R141). -/
theorem readByte_next {s t : State} {v : Byte} (h : readByte s = .next (v, t)) :
    s.dir = 0x00 ∧ s.busyUs = 0 ∧ v = Memory.readAt s.mem s.al (Config.freeByte s.draws) ∧
      t = { s with draws := s.draws + drawsOf s.al } := by
  have hd : s.dir = 0x00 := by
    by_contra hd; rw [readByte, if_pos hd] at h; cases h
  have hb : s.busyUs = 0 := by
    by_contra hb; rw [readByte, if_neg (by simp [hd]), if_pos (by simp [State.wBusy, hb])] at h; cases h
  rw [readByte_eq hd hb] at h
  simp only [Host.Outcome.next.injEq, Prod.mk.injEq] at h
  exact ⟨hd, hb, h.1.symm, h.2.symm⟩

theorem writeByte_eq {s : State} (v : Byte) (hd : s.dir = 0xFF) : writeByte v s = .next { s with dout := v } := by
  simp [writeByte, hd, State.writeByte_pins_eq]

theorem pulseWE_eq {s : State} (hd : s.dir = 0xFF) (hb : s.busyUs = 0) :
    pulseWE s = .next { s with
      weN := true, clockUs := s.clockUs + Config.pulseUs, mem := Memory.writeAt s.mem s.al s.dout, busyAt := s.al
      busyUs := if (Config.cell s.al).isSome then Config.settleMs * 1000 else 0 } := by
  rw [pulseWE, if_neg (by simp [hd]), if_neg (by simp [State.wBusy, hb]), State.pulse_pins_eq hd]
  simp [hb]

/-- What `PulseWE` can answer (R160). -/
theorem pulseWE_next {s t : State} (h : pulseWE s = .next t) :
    s.dir = 0xFF ∧ s.busyUs = 0 ∧ t = { s with
      weN := true, clockUs := s.clockUs + Config.pulseUs, mem := Memory.writeAt s.mem s.al s.dout, busyAt := s.al
      busyUs := if (Config.cell s.al).isSome then Config.settleMs * 1000 else 0 } := by
  have hd : s.dir = 0xFF := by
    by_contra hd; rw [pulseWE, if_pos hd] at h; cases h
  have hb : s.busyUs = 0 := by
    by_contra hb; rw [pulseWE, if_neg (by simp [hd]), if_pos (by simp [State.wBusy, hb])] at h; cases h
  rw [pulseWE_eq hd hb] at h
  exact ⟨hd, hb, (Host.Outcome.next.inj h).symm⟩

/-- `readEEPROM` with SCK low and the chip idle (R161). -/
theorem readEEPROM_eq {s : State} (hs : s.sck = false) (hb : s.busyUs = 0) (a : Word) :
    readEEPROM a s = .next (Memory.readAt s.mem a (Config.freeByte s.draws),
      { s.pointedAt a with dir := 0x00, draws := s.draws + drawsOf a }) := by
  rw [readEEPROM, State.setBusDir_inp, State.setAddress_eq (s := { s with dir := 0x00 }) hs, readByte_eq (by rfl) (by exact hb)]
  rfl

/-- What `readEEPROM` can answer, from any levels of the chain's lines. -/
theorem readEEPROM_next {s t : State} {a : Word} {v : Byte} (h : readEEPROM a s = .next (v, t)) :
    s.busyUs = 0 ∧ ∃ c : State, t = { s.withChain c with dir := 0x00, draws := t.draws } ∧
      v = Memory.readAt s.mem c.al (Config.freeByte s.draws) := by
  rw [readEEPROM, State.setBusDir_inp, State.setAddress_frame] at h
  obtain ⟨-, hb, hv, ht⟩ := readByte_next h
  refine ⟨hb, (State.setAddress { s with dir := 0x00 } a), ?_, hv⟩
  subst ht
  simp [State.withChain]

/-- The settle delay outlasts the write cycle (R162, R164). -/
theorem settled (o : Option Nat) :
    (if o.isSome then Config.settleMs * 1000 else 0) - Config.settleMs * 1000 = 0 := by
  cases o <;> simp

/-- `writeEEPROM` with SCK low and the chip idle (R162). -/
theorem writeEEPROM_eq {s : State} (hs : s.sck = false) (hb : s.busyUs = 0) (a : Word) (v : Byte) :
    writeEEPROM a v s = .next { s.pointedAt a with
      dir := 0xFF, dout := v, weN := true, mem := Memory.writeAt s.mem a v, busyAt := a
      clockUs := s.clockUs + (Config.pulseUs + Config.settleMs * 1000), busyUs := 0 } := by
  rw [writeEEPROM, State.setBusDir_out, State.setAddress_eq (s := { s with dir := 0xFF }) hs, writeByte_eq v (by rfl), andThen_next, pulseWE_eq (by rfl) (by exact hb)]
  simp only [andThen_next, State.delayMs, State.delayUs, runDown_eq, State.pointedAt, Host.Outcome.next.injEq,
    State.mk.injEq, true_and, and_true, Nat.add_assoc]
  exact settled _

/-- What `writeEEPROM` can answer, from any levels of the chain's lines. -/
theorem writeEEPROM_next {s t : State} {a : Word} {v : Byte} (h : writeEEPROM a v s = .next t) :
    s.busyUs = 0 ∧ ∃ c : State, t = { s.withChain c with
      dir := 0xFF, dout := v, weN := true, mem := Memory.writeAt s.mem c.al v, busyAt := c.al
      clockUs := s.clockUs + (Config.pulseUs + Config.settleMs * 1000), busyUs := 0 } := by
  rw [writeEEPROM, State.setBusDir_out, State.setAddress_frame, writeByte_eq v (by rfl), andThen_next] at h
  obtain ⟨q, hq, ht⟩ := andThen_eq_next h
  obtain ⟨-, hb, hq⟩ := pulseWE_next hq
  refine ⟨hb, State.setAddress { s with dir := 0xFF } a, ?_⟩
  subst hq
  simp only [Host.Outcome.next.injEq] at ht
  subst ht
  simp only [State.delayMs, State.delayUs, runDown_eq, State.withChain, State.mk.injEq, true_and, and_true,
    Nat.add_assoc]
  exact settled _

/-- A read refuses exactly while a write cycle is going on (R164, U5). -/
theorem readEEPROM_busy {s : State} (hb : s.busyUs ≠ 0) (a : Word) : readEEPROM a s = .refused .chipBusy := by
  rw [readEEPROM, State.setBusDir_inp, State.setAddress_frame]
  simp [readByte, State.withChain, State.wBusy, hb]

theorem writeEEPROM_busy {s : State} (hb : s.busyUs ≠ 0) (a : Word) (v : Byte) :
    writeEEPROM a v s = .refused .chipBusy := by
  rw [writeEEPROM, State.setBusDir_out, State.setAddress_frame, writeByte_eq v (by rfl), andThen_next]
  simp [pulseWE, State.withChain, State.wBusy, hb]

/-! ## Runs of reads and writes -/

/-- The bytes `n` reads from `a` upwards return, and the draws they leave (R64, R65, R185). -/
def readValues (m : Memory) : Nat → Word → Nat → List Byte × Nat
  | 0, _, d => ([], d)
  | n + 1, a, d =>
    let q := readValues m n (a + 1) (d + drawsOf a)
    (Memory.readAt m a (Config.freeByte d) :: q.1, q.2)

theorem readValues_length (m : Memory) (n : Nat) (a : Word) (d : Nat) : (readValues m n a d).1.length = n := by
  induction n generalizing a d with
  | zero => rfl
  | succ n ih => simp [readValues, ih]

/-- A read of a cell returns its content, whatever was drawn before. -/
theorem readValues_get (m : Memory) (n : Nat) (a : Word) (d j : Nat) (hj : j < n) (c : Nat)
    (hc : Config.cell (a + BitVec.ofNat 16 j) = some c) :
    (readValues m n a d).1[j]? = some (Memory.cell m c) := by
  induction n generalizing a d j with
  | zero => omega
  | succ n ih =>
    cases j with
    | zero =>
      simp at hc
      simp [readValues, Memory.readAt, hc]
    | succ j =>
      simp only [readValues, List.getElem?_cons_succ]
      refine ih _ _ _ (by omega) ?_
      rw [← hc, BitVec.add_assoc]
      congr 2
      apply BitVec.eq_of_toNat_eq
      simp [BitVec.toNat_add]
      omega

/-- Reads that all select a cell draw nothing. -/
theorem readValues_draws (m : Memory) (n : Nat) (a : Word) (d : Nat)
    (h : ∀ j, j < n → (Config.cell (a + BitVec.ofNat 16 j)).isSome = true) : (readValues m n a d).2 = d := by
  induction n generalizing a d with
  | zero => rfl
  | succ n ih =>
    have h0 := h 0 (by omega)
    simp at h0
    rw [readValues, ih]
    · simp [drawsOf, h0]
    · intro j hj
      have h1 := h (j + 1) (by omega)
      have h2 : a + 1 + BitVec.ofNat 16 j = a + BitVec.ofNat 16 (j + 1) := by
        apply BitVec.eq_of_toNat_eq
        simp [BitVec.toNat_add]
        omega
      rw [h2]
      exact h1

/-- `n ≥ 1` reads from `a` upwards (R185): every byte of `readValues`, ADDRMUX at the last address. -/
theorem readCells_eq {s : State} (hs : s.sck = false) (hb : s.busyUs = 0) (n : Nat) (a : Word) :
    readCells (n + 1) a s = .next ((readValues s.mem (n + 1) a s.draws).1,
      { s.pointedAt (a + BitVec.ofNat 16 n) with dir := 0x00, draws := (readValues s.mem (n + 1) a s.draws).2 }) := by
  induction n generalizing s a with
  | zero => simp [readCells, readEEPROM_eq hs hb, readValues]
  | succ n ih =>
    rw [readCells, readEEPROM_eq hs hb, andThen_next, ih (by rfl) (by exact hb), andThen_next]
    have : a + 1 + BitVec.ofNat 16 n = a + BitVec.ofNat 16 (n + 1) := by
      apply BitVec.eq_of_toNat_eq
      simp [BitVec.toNat_add]
      omega
    rw [this]
    rfl

/-- The writes of a chunk's bytes (R213). -/
theorem writeCells_eq {s : State} (hs : s.sck = false) (hb : s.busyUs = 0) (b : Byte) (bs : List Byte) (k cur : Nat) :
    writeCells (b :: bs) k cur s = .next { s.pointedAt (trunc16 (cur + (k + bs.length))) with
      dir := 0xFF, dout := (b :: bs).getLastD 0, weN := true, idx := some (k + bs.length), busyUs := 0
      busyAt := trunc16 (cur + (k + bs.length))
      clockUs := s.clockUs + (Config.pulseUs + Config.settleMs * 1000 + Config.interByteUs) * (bs.length + 1)
      mem := Memory.writeAll s.mem ((b :: bs).zipIdx k |>.map fun x => (trunc16 (cur + x.2), x.1)) } := by
  induction bs generalizing s b k with
  | nil =>
    rw [writeCells, writeEEPROM_eq (by exact hs) (by exact hb), andThen_next, writeCells]
    simp [State.delayUs, State.pointedAt, Memory.writeAll, Nat.add_assoc]
  | cons c bs ih =>
    rw [writeCells, writeEEPROM_eq (by exact hs) (by exact hb), andThen_next,
      ih (by rfl) (by simp)]
    simp [State.delayUs, State.pointedAt, Memory.writeAll, Nat.add_assoc, Nat.mul_add, Nat.add_comm,
      Nat.add_left_comm]

end Sys2Proof.Machine
end

