-- ==== Sys2Proof/Laws/Commands.lean ====
section
/-!
SUPPORT. What the operations inside a command or a chunk answer: the operand readers (43_line_protocol.md R180, R181), the
lines of a dump (R185), the bytes of a chunk (44_bulk_program.md R213).
-/
namespace Sys2Proof.Machine

/-! ## Operand readers -/

/-- BadHexDigit leaves no trace: the digit is `hexval` and nothing else changes (R251). -/
@[simp] theorem State.takeDigit_eq (s : State) (c : Byte) : State.takeDigit s c = (hexval c, s) := by
  unfold State.takeDigit hexval State.raise
  split <;> simp_all

theorem State.readHexDigit_cons {s : State} {c : Byte} {rest : List Byte} (h : s.rx = c :: rest) :
    s.readHexDigit = some (hexval c, { s with rx := rest }) := by
  simp [State.readHexDigit, h]

theorem State.readHexDigit_nil {s : State} (h : s.rx = []) : s.readHexDigit = none := by
  simp [State.readHexDigit, h]

/-- `ReadHex` takes as many of its digits as RX holds, and exactly those, and folds them up (R94, R181). -/
theorem State.readHex_eq (s : State) (k : Nat) (v : Word) :
    s.readHex k v = (k - s.rx.length, (s.rx.take k).foldl hexPush v, { s with rx := s.rx.drop k }) := by
  induction k generalizing s v with
  | zero => simp [State.readHex]
  | succ k ih =>
    cases hr : s.rx with
    | nil =>
      rw [State.readHex, State.readHexDigit_nil hr]
      cases s
      subst hr
      simp
    | cons c rest =>
      rw [State.readHex, State.readHexDigit_cons hr]
      simp only
      rw [ih]
      simp [hexPush]

/-! ## Reads and writes from any state -/

/-- Cells change only at their write pulse: reading any number of them changes ADDRMUX, DIR and the draw counter only. -/
theorem readCells_next {s t : State} {n : Nat} {a : Word} {bs : List Byte} (h : readCells n a s = .next (bs, t)) :
    ∃ c : State, t = { s.withChain c with dir := t.dir, draws := t.draws } := by
  induction n generalizing s t a bs with
  | zero =>
    simp only [readCells, Host.Outcome.next.injEq, Prod.mk.injEq] at h
    exact ⟨s, by rw [← h.2]; rfl⟩
  | succ n ih =>
    obtain ⟨⟨v, u⟩, hu, h⟩ := andThen_eq_next h
    obtain ⟨⟨vs, w⟩, hw, h⟩ := andThen_eq_next h
    obtain ⟨-, c, hc, -⟩ := readEEPROM_next hu
    obtain ⟨e, he⟩ := ih hw
    simp only [Host.Outcome.next.injEq, Prod.mk.injEq] at h
    obtain ⟨-, rfl⟩ := h
    refine ⟨e, ?_⟩
    generalize w.dir = x at he
    generalize w.draws = y at he
    rw [he, hc]
    rfl

/-- The lines of a dump change ADDRMUX, DIR, the draw counter and TX only; TX only grows. -/
theorem dumpLines_next {s t : State} {k left : Nat} {a : Word} (h : dumpLines k left a s = .next t) :
    ∃ (c : State) (text : List Byte),
      t = { s.withChain c with dir := t.dir, draws := t.draws, tx := s.tx ++ text } := by
  induction k generalizing s a left with
  | zero =>
    simp only [dumpLines, Host.Outcome.next.injEq] at h
    exact ⟨s, [], by rw [← h, List.append_nil]; rfl⟩
  | succ k ih =>
    obtain ⟨⟨bs, u⟩, hu, h⟩ := andThen_eq_next h
    obtain ⟨c, hc⟩ := readCells_next hu
    obtain ⟨e, text, he⟩ := ih h
    refine ⟨e, dumpLine a bs ++ text, ?_⟩
    have h1 : u.tx = s.tx := by rw [hc]; rfl
    generalize t.dir = x at he
    generalize t.draws = y at he
    rw [he]
    simp only [State.txText, h1, List.append_assoc]
    generalize u.dir = x at hc
    generalize u.draws = y at hc
    rw [hc]
    rfl

/-- What the writes of a chunk can answer, from any levels of the chain's lines. -/
theorem writeCells_next {s t : State} {bs : List Byte} {k cur : Nat} (h : writeCells bs k cur s = .next t) :
    t = { s.withChain t with
      dir := t.dir, dout := t.dout, weN := t.weN, mem := t.mem, clockUs := t.clockUs, busyUs := t.busyUs
      busyAt := t.busyAt, idx := t.idx } ∧
    s.clockUs ≤ t.clockUs := by
  induction bs generalizing s k with
  | nil =>
    simp only [writeCells, Host.Outcome.next.injEq] at h
    subst h
    exact ⟨rfl, Nat.le_refl _⟩
  | cons b bs ih =>
    obtain ⟨u, hu, h⟩ := andThen_eq_next h
    obtain ⟨-, c, hc⟩ := writeEEPROM_next hu
    obtain ⟨h1, h2⟩ := ih h
    refine ⟨?_, ?_⟩
    · generalize t.dir = x1, t.dout = x2, t.weN = x3, t.mem = x4, t.clockUs = x5, t.busyUs = x6, t.busyAt = x8, t.idx = x7 at h1
      have h3 : (u.delayUs Config.interByteUs).withChain t = { s.withChain t with
          dir := (u.delayUs Config.interByteUs).dir, dout := (u.delayUs Config.interByteUs).dout
          weN := (u.delayUs Config.interByteUs).weN, mem := (u.delayUs Config.interByteUs).mem
          clockUs := (u.delayUs Config.interByteUs).clockUs, busyUs := (u.delayUs Config.interByteUs).busyUs
          busyAt := (u.delayUs Config.interByteUs).busyAt
          idx := (u.delayUs Config.interByteUs).idx } := by
        subst hc
        rfl
      rw [h3] at h1
      generalize s.withChain t = w at h1 ⊢
      rw [h1]
    · subst hc
      simp only [State.delayUs_clockUs] at h2
      omega

/-! ## Popping the bytes of a chunk -/

/-- No pin operation reads or changes RX. -/
theorem State.pins_rx (s : State) (es : List PinEvent) (r : List Byte) :
    ({ s with rx := r } : State).pins es = { s.pins es with rx := r } := by
  induction es generalizing s with
  | nil => rfl
  | cons e es ih =>
    have h : ({ s with rx := r } : State).pin e = { s.pin e with rx := r } := by
      cases e <;> simp only [State.pin] <;> (try split) <;> rfl
    rw [State.pins_cons, h, ih, State.pins_cons]

/-- `writeEEPROM` neither reads nor changes RX: it can be done before or after a pop. -/
theorem writeEEPROM_rx (s : State) (a : Word) (v : Byte) (r : List Byte) :
    writeEEPROM a v { s with rx := r } = andThen (writeEEPROM a v s) fun t => .next { t with rx := r } := by
  by_cases hb : s.busyUs = 0
  · have h : ({ s with rx := r, dir := 0xFF } : State).setAddress a
        = { ({ s with dir := 0xFF } : State).setAddress a with rx := r } :=
      State.pins_rx { s with dir := 0xFF } (setAddressEvents a) r
    rw [writeEEPROM, writeEEPROM, State.setBusDir_out, State.setBusDir_out, h, State.setAddress_frame,
      writeByte_eq v (by rfl), writeByte_eq v (by rfl), andThen_next, andThen_next, pulseWE_eq (by rfl) (by exact hb),
      pulseWE_eq (by rfl) (by exact hb)]
    rfl
  · rw [writeEEPROM_busy hb, writeEEPROM_busy (by exact hb)]
    rfl

/-- Bytes popped one by one are written as the same bytes taken off at once (R213, R97). -/
theorem popAndWriteCells_eq {s : State} {n : Nat} (h : n ≤ s.rx.length) (k cur : Nat) :
    popAndWriteCells n k cur s = writeCells (s.rx.take n) k cur { s with rx := s.rx.drop n } := by
  induction n generalizing s k with
  | zero => simp [popAndWriteCells, writeCells]
  | succ n ih =>
    cases hr : s.rx with
    | nil => simp [hr] at h
    | cons b rest =>
      have hl : n ≤ rest.length := by simp [hr] at h; exact h
      simp only [popAndWriteCells, hr, List.take_succ_cons, List.drop_succ_cons, writeCells]
      rw [writeEEPROM_rx { s with idx := some k } _ _ rest, writeEEPROM_rx { s with idx := some k } _ _ (rest.drop n)]
      cases hw : writeEEPROM (trunc16 (cur + k)) b { s with idx := some k } with
      | fault f => rfl
      | refused f => rfl
      | next u =>
        simp only [andThen_next]
        rw [ih (by exact hl)]
        rfl

/-! ## Lines of a dump -/

/-- Reading on: `n + p` reads are `n` reads and then `p`. -/
theorem readValues_add (m : Memory) (n p : Nat) (a : Word) (d : Nat) :
    readValues m (n + p) a d =
      ((readValues m n a d).1 ++ (readValues m p (a + BitVec.ofNat 16 n) (readValues m n a d).2).1,
        (readValues m p (a + BitVec.ofNat 16 n) (readValues m n a d).2).2) := by
  induction n generalizing a d with
  | zero => simp [readValues]
  | succ n ih =>
    have h : a + 1 + BitVec.ofNat 16 n = a + BitVec.ofNat 16 (n + 1) := by
      apply BitVec.eq_of_toNat_eq
      simp [BitVec.toNat_add]
      omega
    rw [Nat.succ_add, readValues, ih, readValues, h]
    rfl

/-- The first line of a dump and the rest. -/
theorem dumpText_cons (a : Word) {bs : List Byte} (h : bs ≠ []) :
    dumpText a bs = dumpLine a (bs.take 16) ++ dumpText (a + 16) (bs.drop 16) := by
  have hl : 0 < bs.length := List.length_pos_iff.2 h
  have hn : (bs.length + 15) / 16 = ((bs.drop 16).length + 15) / 16 + 1 := by
    rw [List.length_drop]; omega
  rw [dumpText, hn, List.range_succ_eq_map, List.flatMap_cons, List.flatMap_map]
  congr 1
  · simp
  · rw [dumpText]
    congr 1
    funext l
    have h1 : a + BitVec.ofNat 16 (16 * (l + 1)) = a + 16 + BitVec.ofNat 16 (16 * l) := by
      apply BitVec.eq_of_toNat_eq
      simp [BitVec.toNat_add]
      omega
    rw [Nat.succ_eq_add_one, h1, List.drop_drop, Nat.mul_add, Nat.add_comm]

/-- The lines of a dump of `n ≥ 1` bytes (R185, R107). -/
theorem dumpLines_eq {s : State} (hs : s.sck = false) (hb : s.busyUs = 0) (n : Nat) (a : Word) :
    dumpLines ((n + 1 + 15) / 16) (n + 1) a s = .next { s.pointedAt (a + BitVec.ofNat 16 n) with
      dir := 0x00, draws := (readValues s.mem (n + 1) a s.draws).2
      tx := s.tx ++ dumpText a (readValues s.mem (n + 1) a s.draws).1 } := by
  induction n using Nat.strongRecOn generalizing s a with
  | _ n ih =>
  by_cases hn : n < 16
  · have h1 : (n + 1 + 15) / 16 = 0 + 1 := by omega
    have h2 : min Config.dumpLineSize (n + 1) = n + 1 := by simp; omega
    have h3 := readValues_length s.mem (n + 1) a s.draws
    rw [h1, dumpLines, h2, readCells_eq hs hb, andThen_next, dumpLines,
      dumpText_cons a (by intro h; simp [h] at h3), List.take_of_length_le (by omega), List.drop_of_length_le (by omega)]
    simp [dumpText, State.txText]
  · obtain ⟨p, rfl⟩ : ∃ p, n = p + 16 := ⟨n - 16, by omega⟩
    have h1 : (p + 16 + 1 + 15) / 16 = (p + 1 + 15) / 16 + 1 := by omega
    have h2 : min Config.dumpLineSize (p + 16 + 1) = 15 + 1 := by simp only [Config.dumpLineSize]; omega
    have h3 := readValues_length s.mem 16 a s.draws
    have h4 : p + 16 + 1 - Config.dumpLineSize = p + 1 := by simp only [Config.dumpLineSize]; omega
    have h5 : p + 16 + 1 = 16 + (p + 1) := by omega
    have h6 : a + 16 + BitVec.ofNat 16 p = a + BitVec.ofNat 16 (p + 16) := by
      apply BitVec.eq_of_toNat_eq
      simp [BitVec.toNat_add]
      omega
    rw [h1, dumpLines, h2, readCells_eq hs hb, andThen_next, h4, ih p (by omega) (by rfl) (by exact hb), h5,
      readValues_add s.mem 16, dumpText_cons a (by intro h; simp at h; simp [h.1] at h3), List.take_left' h3,
      List.drop_left' h3, h6]
    simp only [State.pointedAt, State.txText, List.append_assoc]
    rfl

end Sys2Proof.Machine
end

