-- ==== Sys2Proof/Laws/PerInstr.lean ====
section
/-!
SUPPORT. The length of an encoding, instruction by instruction (30_encoding.md sections 4 and 5): a command takes the bytes
that its first byte alone announces, a chunk takes sixteen, and what the host never sends has no mode.
-/
namespace Sys2Proof.Laws.EncodedLength

/-- A well-formed instruction the host can send is encoded in as many bytes as the decoder takes for it. -/
def Statement (i : Instr) : Prop :=
  i.wf = true → ∀ m : Mode, i.mode? = some m →
    (encode i).length = match m with
      | .command => commandLength ((encode i).headD 0)
      | .bulk => Config.chunkSize

theorem r (a : Word) : Statement (.r a) := by
  intro hw m hm
  cases hm
  rfl

theorem w (a : Word) (v : Byte) : Statement (.w a v) := by
  intro hw m hm
  cases hm
  rfl

theorem d (a l : Word) : Statement (.d a l) := by
  intro hw m hm
  cases hm
  rfl

theorem p (a : Word) : Statement (.p a) := by
  intro hw m hm
  cases hm
  rfl

theorem resync (c : Byte) : Statement (.resync c) := by
  intro hw m hm
  cases hm
  have h : Cmd.ofByte c = none := Option.isNone_iff_eq_none.1 hw
  simp [encode, commandLength, h]

theorem chunk (bs : List Byte) : Statement (.chunk bs) := by
  intro hw m hm
  cases hm
  exact eq_of_beq hw

theorem ack : Statement .ack := by
  intro hw m hm
  cases hm

theorem shiftBit (b : Bool) : Statement (.shiftBit b) := by
  intro hw m hm
  cases hm

theorem shiftByte (v : Byte) : Statement (.shiftByte v) := by
  intro hw m hm
  cases hm

theorem setAddress (a : Word) : Statement (.setAddress a) := by
  intro hw m hm
  cases hm

theorem setBusDir (d : Dir) : Statement (.setBusDir d) := by
  intro hw m hm
  cases hm

theorem readByte : Statement .readByte := by
  intro hw m hm
  cases hm

theorem writeByte (v : Byte) : Statement (.writeByte v) := by
  intro hw m hm
  cases hm

theorem pulseWE : Statement .pulseWE := by
  intro hw m hm
  cases hm

theorem readEEPROM (a : Word) : Statement (.readEEPROM a) := by
  intro hw m hm
  cases hm

theorem writeEEPROM (a : Word) (v : Byte) : Statement (.writeEEPROM a v) := by
  intro hw m hm
  cases hm

theorem readHexDigit : Statement .readHexDigit := by
  intro hw m hm
  cases hm

theorem readHex (n : Nat) : Statement (.readHex n) := by
  intro hw m hm
  cases hm

theorem bpInit : Statement .bpInit := by
  intro hw m hm
  cases hm

theorem bpAwaitChunk : Statement .bpAwaitChunk := by
  intro hw m hm
  cases hm

theorem bpWriteChunk : Statement .bpWriteChunk := by
  intro hw m hm
  cases hm

theorem bpAck : Statement .bpAck := by
  intro hw m hm
  cases hm

theorem bpAdvance : Statement .bpAdvance := by
  intro hw m hm
  cases hm

theorem bpComplete : Statement .bpComplete := by
  intro hw m hm
  cases hm

theorem bpTimeout : Statement .bpTimeout := by
  intro hw m hm
  cases hm

end Sys2Proof.Laws.EncodedLength
end

