-- ==== Sys2Proof/Laws/Step.lean ====
section
/-!
SUPPORT. What the parts of a step can do: the decoder, the outside world's move, a reset, one activation of the thread.
-/
namespace Sys2Proof

/-- A first byte selects a command exactly if it is that command's character (30_encoding.md R92). -/
theorem Cmd.ofByte_eq_some {c : Byte} {k : Cmd} : Cmd.ofByte c = some k ↔ c = k.byte := by
  unfold Cmd.ofByte
  constructor
  · intro h
    split at h
    · simp_all
    split at h
    · simp_all
    split at h
    · simp_all
    split at h <;> simp_all
  · rintro rfl
    cases k <;> decide

/-- What the decoder can read in command mode: a command character with all its digits, or another byte. -/
theorem decode_command_ok {bs rest : List Byte} {i : Instr} (h : decode .command bs = .ok (i, rest)) :
    (∃ c, Cmd.ofByte c = none ∧ bs = c :: rest ∧ i = .resync c) ∨
    (∃ (k : Cmd) (ds : List Byte), ds.length = k.digits ∧ bs = k.byte :: (ds ++ rest) ∧ i = k.assemble ds) := by
  cases bs with
  | nil => simp [decode] at h
  | cons c bs =>
    simp only [decode] at h
    split at h
    · simp only [Except.ok.injEq, Prod.mk.injEq] at h
      exact .inl ⟨c, by assumption, by rw [h.2], h.1.symm⟩
    · split at h
      · rename_i k hk hl
        simp only [Except.ok.injEq, Prod.mk.injEq] at h
        refine .inr ⟨k, bs.take k.digits, by simp [hl], ?_, h.1.symm⟩
        rw [← h.2, List.take_append_drop, Cmd.ofByte_eq_some.1 hk]
      · cases h

/-- What the decoder can read in bulk-data mode: the next sixteen bytes. -/
theorem decode_bulk_ok {bs rest : List Byte} {i : Instr} (h : decode .bulk bs = .ok (i, rest)) :
    16 ≤ bs.length ∧ i = .chunk (bs.take 16) ∧ rest = bs.drop 16 := by
  simp only [decode] at h
  split at h
  · simp only [Except.ok.injEq, Prod.mk.injEq] at h
    exact ⟨by assumption, h.1.symm, h.2.symm⟩
  · cases h

theorem decode_bulk_of_length {bs : List Byte} (h : 16 ≤ bs.length) :
    decode .bulk bs = .ok (.chunk (bs.take 16), bs.drop 16) := by
  simp only [decode, if_pos h]

namespace Machine

/-- The texts meet the constraints of D17 and D23, whatever they are. -/
theorem texts_legal : Config.texts.legal = true := by
  unfold Config.texts
  split
  · assumption
  · decide

theorem rxCapacity_ge : 16 ≤ Config.rxCapacity := Nat.le_add_right _ _

theorem State.hasRoom_iff {s : State} {bs : List Byte} :
    s.hasRoom bs = true ↔ bs = [] ∨ s.rx.length + bs.length ≤ Config.rxCapacity := by
  simp [State.hasRoom]

/-- What the outside world can do at the start of a step that is no reset: time passes, bytes land, bytes leave. -/
theorem State.environment_go {s s1 : State} {w : List (List Byte)} (h : s.environment = .go s1 w) :
    ∃ (us : Nat) (bs : List Byte) (n : Nat) (rest : List EnvMove) (d : Nat),
      s1 = { s.pass us bs n rest with draws := d } ∧ (bs = [] ∨ s.rx.length + bs.length ≤ Config.rxCapacity) := by
  unfold State.environment at h
  split at h
  · cases h
    exact ⟨_, _, _, _, _, rfl, .inl rfl⟩
  · split at h
    · cases h
      exact ⟨_, _, _, _, s.draws, rfl, State.hasRoom_iff.1 (by assumption)⟩
    · cases h
  · cases h
  · split at h <;> cases h

/-- A reset leaves the chip's cells as they were but for those of writes that were under way or cut (R290). -/
theorem State.environment_restarted {s t : State} (h : s.environment = .restarted t) :
    ∃ (m : Memory) (rest : List EnvMove), t = s.restart m rest ∧ (Memory.wf s.mem = true → Memory.wf m = true) := by
  unfold State.environment at h
  split at h
  · cases h
  · split at h <;> cases h
  · cases h
    exact ⟨_, _, rfl, State.memAtReset_wf⟩
  · split at h
    · cases h
      exact ⟨_, _, rfl, fun hm => State.memCut_wf _ (by exact hm)⟩
    · cases h

/-! ## What lands while the thread acts -/

/-- The thread's next activation is a RESYNC exactly if it decodes one at CS = IDLE (R182, R187). -/
theorem State.drainAhead_iff {s : State} :
    s.drainAhead = true ↔ s.cs = .idle ∧ ∃ c rest, decode .command s.rx = .ok (.resync c, rest) := by
  unfold State.drainAhead
  constructor
  · intro h
    split at h
    · rename_i c s1 hf
      unfold State.fetch State.bodyOf at hf
      split at hf
      · split at hf
        · rename_i hd
          cases hf
          exact ⟨by assumption, c, _, hd⟩
        · cases hf
        · cases hf
      · cases hf
      · split at hf <;> cases hf
      · split at hf <;> simp only [Fetched.need] at hf <;> (repeat' split at hf) <;> cases hf
      · cases hf
      · cases hf
      · split at hf
        · rename_i hd
          cases hf
          cases (decode_bulk_ok hd).2.1
        · cases hf
      · cases hf
      · cases hf
    · cases h
  · rintro ⟨hc, c, rest, hd⟩
    simp only [State.fetch, hc, hd]

/-- Off CS = IDLE nothing is drained. -/
theorem State.drainAhead_of_cs {s : State} (h : s.cs ≠ .idle) : s.drainAhead = false :=
  Bool.eq_false_iff.2 fun hd => h (State.drainAhead_iff.1 hd).1

/-- Another command than a RESYNC, or none, drains nothing. -/
theorem State.drainAhead_of_decode {s : State} (h : ∀ c rest, decode .command s.rx ≠ .ok (.resync c, rest)) :
    s.drainAhead = false :=
  Bool.eq_false_iff.2 fun hd => by
    obtain ⟨-, c, rest, hr⟩ := State.drainAhead_iff.1 hd
    exact h c rest hr

@[simp] theorem State.drained_nil (s : State) : s.drained [] = [] := by simp [State.drained]

@[simp] theorem State.kept_nil (s : State) : s.kept [] = [] := by simp [State.kept]

/-- All bytes are kept unless the activation is a RESYNC. -/
theorem State.kept_eq {s : State} (w : List (List Byte)) (h : s.drainAhead = false) : s.kept w = w := by
  simp [State.kept, h]

/-- Nothing is drained unless the activation is a RESYNC. -/
theorem State.drained_eq {s : State} (w : List (List Byte)) (h : s.drainAhead = false) : s.drained w = [] := by
  simp [State.drained, h]

/-- The bytes that are kept are the last ones. -/
theorem State.kept_suffix (s : State) (w : List (List Byte)) : (s.kept w).flatten <:+ w.flatten := by
  unfold State.kept
  split
  · cases w with
    | nil => simp
    | cons b w => simp
  · exact List.suffix_refl _

/-- Nothing lands meanwhile: the activation is all there is. -/
@[simp] theorem State.land_nil (s t : State) : s.land [] t = .next t := by
  simp [State.land, State.fits]

/-- What landing can answer: the bytes that are kept stand behind what the activation left in RX, and each byte found room
(R187, R302). -/
theorem State.land_next {s t u : State} {w : List (List Byte)} (h : s.land w t = .next u) :
    u = { t with rx := t.rx ++ (s.kept w).flatten } ∧
    (s.drained w = [] ∨ s.rx.length - 1 + (s.drained w).length ≤ Config.rxCapacity) ∧
    ((s.kept w).flatten = [] ∨
      ∀ k, k < (s.kept w).length → s.occupancy t k + ((s.kept w).take (k + 1)).flatten.length ≤ Config.rxCapacity) := by
  unfold State.land at h
  split at h
  · rename_i hc
    refine ⟨(Host.Outcome.next.inj h).symm, ?_⟩
    simpa [State.fits, -List.flatten_eq_nil_iff] using hc
  · cases h

/-- Bytes that all find room land (R36); a RESYNC drains those that land before its drain (R187). -/
theorem State.land_eq {s t : State} {w : List (List Byte)}
    (hd : s.drained w = [] ∨ s.rx.length - 1 + (s.drained w).length ≤ Config.rxCapacity)
    (h : ∀ k, k < (s.kept w).length →
      s.occupancy t k + ((s.kept w).take (k + 1)).flatten.length ≤ Config.rxCapacity) :
    s.land w t = .next { t with rx := t.rx ++ (s.kept w).flatten } := by
  rw [State.land, if_pos]
  rw [State.fits, Bool.and_eq_true, Bool.or_eq_true, Bool.or_eq_true]
  exact ⟨by simpa using hd, .inr (by simpa [-List.length_flatten] using h)⟩

/-- Landing keeps RX within its capacity. -/
theorem State.land_rx_le {s t u : State} {w : List (List Byte)} (h : s.land w t = .next u)
    (ht : t.rx.length ≤ Config.rxCapacity) : u.rx.length ≤ Config.rxCapacity := by
  obtain ⟨rfl, -, hw | hw⟩ := State.land_next h
  · simpa [hw] using ht
  · cases hl : (s.kept w).length with
    | zero => simpa [List.length_eq_zero_iff.1 hl] using ht
    | succ n =>
      have h1 := hw n (by omega)
      rw [List.take_of_length_le (by omega)] at h1
      have h2 : t.rx.length ≤ s.occupancy t n := by unfold State.occupancy; split <;> omega
      rw [List.length_append]
      omega

/-- What a step that answers was: an activation of the thread, or a reset. -/
theorem step_next {s t : State} (h : step s = .next t) :
    (∃ s1 w u, s.environment = .go s1 w ∧ s1.thread = .next u ∧ s1.land w u = .next t) ∨
    (∃ (m : Memory) (rest : List EnvMove), t = s.restart m rest ∧ (Memory.wf s.mem = true → Memory.wf m = true)) := by
  unfold step at h
  split at h
  · obtain ⟨u, hu, h⟩ := andThen_eq_next h
    exact .inl ⟨_, _, u, by assumption, hu, h⟩
  · cases h
    exact .inr (State.environment_restarted (by assumption))
  · cases h

/-- A step with a given move of the outside world is the thread's activation from there, with what lands meanwhile. -/
theorem step_of_go {s s1 : State} {w : List (List Byte)} (h : s.environment = .go s1 w) :
    step s = andThen s1.thread (s1.land w) := by
  simp only [step, h]

/-- If nothing lands meanwhile a step is the thread's activation. -/
theorem step_of_go_nil {s s1 : State} (h : s.environment = .go s1 []) : step s = s1.thread := by
  rw [step_of_go h]
  cases s1.thread <;> simp

/-- The outside world's move when RX can hold what the host sends. -/
theorem State.environment_pass {s : State} {us n : Nat} {bs : List Byte} {w : List (List Byte)} {rest : List EnvMove}
    (h : s.script = .pass us bs n w :: rest) (hb : bs = [] ∨ s.rx.length + bs.length ≤ Config.rxCapacity) :
    s.environment = .go (s.pass us bs n rest) w := by
  simp only [State.environment, h, if_pos (State.hasRoom_iff.2 hb)]

/-! ## Which registers hold a value after a digit -/

/-- An operand that has been read moves the operand registers and CS only (R33, R47). -/
theorem State.operandRead_frame (s : State) (c : Cmd) (v : Word) :
    s.operandRead c v = { s with
      opA := (s.operandRead c v).opA, opV := (s.operandRead c v).opV, opL := (s.operandRead c v).opL
      cs := (s.operandRead c v).cs } := by
  unfold State.operandRead
  cases c <;> simp only <;> (try split) <;> rfl

/-- The value of a digit is below 16 and one round of `ReadHex` keeps the bound of its digits. -/
theorem hexPush_lt {v : Word} {c : Byte} {n : Nat} (hn : n < 4) (h : v.toNat < 16 ^ n) :
    (hexPush v c).toNat < 16 ^ (n + 1) := by
  have h1 := (hexval c).isLt
  have h2 : (hexPush v c).toNat = (v.toNat * 16 + (hexval c).toNat) % 65536 := by
    simp [hexPush, BitVec.toNat_add, BitVec.toNat_mul]
  have h3 : (16 : Nat) ^ (n + 1) ≤ 16 ^ 4 := Nat.pow_le_pow_right (by omega) (by omega)
  rw [h2, Nat.mod_eq_of_lt] <;> rw [Nat.pow_succ] at * <;> omega

end Machine

end Sys2Proof
end

