-- ==== Sys2Proof/Laws/Text.lean ====
section
/-!
SUPPORT. No text the block sends holds the byte 0x06 (43_line_protocol.md section 3, 30_encoding.md section 5).
-/
namespace Sys2Proof.Machine

@[simp] theorem ackCount_nil : ackCount [] = 0 := rfl

@[simp] theorem ackCount_append (xs ys : List Byte) : ackCount (xs ++ ys) = ackCount xs + ackCount ys :=
  List.count_append

theorem ackCount_eq_zero {xs : List Byte} : ackCount xs = 0 ↔ ∀ x ∈ xs, x ≠ Config.ackByte := by
  rw [ackCount, List.count_eq_zero]
  exact ⟨fun h x hx he => h (he ▸ hx), fun h hm => h _ hm rfl⟩

theorem ackCount_flatMap {α : Type} {xs : List α} {f : α → List Byte} (h : ∀ x ∈ xs, ackCount (f x) = 0) :
    ackCount (xs.flatMap f) = 0 := by
  rw [ackCount_eq_zero]
  intro b hb
  obtain ⟨x, hx, hb⟩ := List.mem_flatMap.1 hb
  exact ackCount_eq_zero.1 (h x hx) b hb

theorem ackCount_map {α : Type} {xs : List α} {f : α → Byte} (h : ∀ x, f x ≠ Config.ackByte) :
    ackCount (xs.map f) = 0 := by
  rw [ackCount_eq_zero]
  intro b hb
  obtain ⟨x, -, rfl⟩ := List.mem_map.1 hb
  exact h x

theorem hexOut_ne_ack (n : BitVec 4) : hexOut n ≠ Config.ackByte := by
  unfold hexOut
  cases Config.hexOutLower <;> revert n <;> decide

theorem printable_ne_ack (b : Byte) : printable b ≠ Config.ackByte := by
  revert b
  decide

@[simp] theorem ackCount_hex4 (v : Word) : ackCount (hex4 v) = 0 := ackCount_map hexOut_ne_ack

@[simp] theorem ackCount_hex2 (v : Byte) : ackCount (hex2 v) = 0 := ackCount_map hexOut_ne_ack

/-- A byte string without 0x06, as the constraint on a text says it. -/
theorem ackCount_of_not_contains {xs : List Byte} (h : xs.contains Config.ackByte = false) : ackCount xs = 0 := by
  rw [ackCount, List.count_eq_zero]
  simpa using h

/-- What the constraints on the texts come to (D17, D23). -/
theorem texts_facts :
    ackCount Config.texts.startup = 0 ∧ ackCount Config.texts.banner = 0 ∧ ackCount Config.texts.done = 0 ∧
    ackCount Config.texts.timeout = 0 ∧ ackCount Config.texts.eol = 0 ∧ Config.texts.banner ≠ [] ∧
    Config.texts.done ≠ [] ∧ Config.texts.timeout ≠ [] ∧ Config.texts.done ≠ Config.texts.timeout ∧
    (∀ b ∈ Config.texts.dumpSep, Config.isSpace b = true) ∧ (∀ b ∈ Config.texts.dumpLead, Config.isSpace b = true) := by
  have h := texts_legal
  simp only [Config.Texts.legal, Bool.and_eq_true, Bool.not_eq_true', bne_iff_ne, ne_eq, List.isEmpty_eq_false_iff,
    List.all_eq_true] at h
  obtain ⟨⟨⟨⟨⟨⟨⟨⟨⟨⟨⟨⟨⟨⟨h1, h2⟩, h3⟩, h4⟩, h5⟩, h6⟩, h7⟩, h8⟩, -⟩, -⟩, h9⟩, -⟩, h10⟩, -⟩, h11⟩ := h
  exact ⟨ackCount_of_not_contains h1, ackCount_of_not_contains h2, ackCount_of_not_contains h3,
    ackCount_of_not_contains h4, ackCount_of_not_contains h5, h6, h7, h8, h9, h10, h11⟩

@[simp] theorem ackCount_startup : ackCount Config.texts.startup = 0 := texts_facts.1
@[simp] theorem ackCount_banner : ackCount Config.texts.banner = 0 := texts_facts.2.1
@[simp] theorem ackCount_done : ackCount Config.texts.done = 0 := texts_facts.2.2.1
@[simp] theorem ackCount_timeout : ackCount Config.texts.timeout = 0 := texts_facts.2.2.2.1
@[simp] theorem ackCount_eol : ackCount Config.texts.eol = 0 := texts_facts.2.2.2.2.1

theorem ackCount_spaces {xs : List Byte} (h : ∀ b ∈ xs, Config.isSpace b = true) : ackCount xs = 0 := by
  rw [ackCount_eq_zero]
  rintro b hb rfl
  exact absurd (h _ hb) (by decide)

@[simp] theorem ackCount_dumpSep : ackCount Config.texts.dumpSep = 0 :=
  ackCount_spaces texts_facts.2.2.2.2.2.2.2.2.2.1

@[simp] theorem ackCount_dumpLead : ackCount Config.texts.dumpLead = 0 :=
  ackCount_spaces texts_facts.2.2.2.2.2.2.2.2.2.2

/-- The response of `R` holds no 0x06 (R106). -/
@[simp] theorem ackCount_readResponse (a : Word) (v : Byte) : ackCount (readResponse a v) = 0 := by
  have h1 : ackCount textReadFrom = 0 := by decide
  have h2 : ackCount textColon0x = 0 := by decide
  simp [readResponse, h1, h2]

/-- The confirmation of `W` holds no 0x06 (R106). -/
@[simp] theorem ackCount_wroteResponse (a : Word) (v : Byte) : ackCount (wroteResponse a v) = 0 := by
  have h1 : ackCount textWrote = 0 := by decide
  have h2 : ackCount textTo = 0 := by decide
  simp [wroteResponse, h1, h2]

/-- A dump line holds no 0x06, whatever the dumped bytes are (R107). -/
@[simp] theorem ackCount_dumpLine (a : Word) (bs : List Byte) : ackCount (dumpLine a bs) = 0 := by
  have h1 : ackCount ([0x30, 0x78] : List Byte) = 0 := by decide
  have h2 : ackCount ([0x3A] : List Byte) = 0 := by decide
  have h3 : ackCount (bs.flatMap fun b => Config.texts.dumpSep ++ hex2 b) = 0 := ackCount_flatMap (by simp)
  have h4 : ackCount (bs.map printable) = 0 := ackCount_map printable_ne_ack
  have h5 : ackCount (Config.shortLinePad bs.length) = 0 := by simp [ackCount_eq_zero, Config.shortLinePad]
  unfold dumpLine
  split <;> simp only [ackCount_append, ackCount_hex4, ackCount_dumpLead, ackCount_eol, ackCount_nil, h1, h2, h3, h4, h5]

/-- Dump lines add no 0x06 to TX. -/
theorem dumpLines_ackCount {s t : State} {k left : Nat} {a : Word} (h : dumpLines k left a s = .next t) :
    ackCount t.tx = ackCount s.tx := by
  induction k generalizing s a left with
  | zero =>
    simp only [dumpLines, Host.Outcome.next.injEq] at h
    rw [h]
  | succ k ih =>
    obtain ⟨⟨bs, u⟩, hu, h⟩ := andThen_eq_next h
    obtain ⟨c, hc⟩ := readCells_next hu
    have h1 : u.tx = s.tx := by rw [hc]; rfl
    rw [ih h, State.txText_tx, ackCount_append, ackCount_dumpLine, h1, Nat.add_zero]

end Sys2Proof.Machine
end

