-- ==== Sys2Proof/Tests/Slice0.lean ====
section
/-!
SUPPORT. The model's own tests: the well-formedness checks, words written out from the encoding tables, vectors of
95_test_vectors.md (their numbers stand in the names), and for every statement with hypotheses a state and operands that meet
them.
-/
namespace Sys2Proof.Tests

open Sys2Proof Sys2Proof.Machine

/-! ## Helpers -/

/-- Does an operation answer? -/
def answers (o : Host.Outcome State Fault Refusal) : Bool :=
  match o with
  | .next _ => true
  | .fault _ => false
  | .refused _ => false

theorem of_answers {o : Host.Outcome State Fault Refusal} (h : answers o = true) : ∃ t, o = .next t := by
  cases o with
  | next t => exact ⟨t, rfl⟩
  | fault f => cases h
  | refused r => cases h

/-- One thing seen of the state an operation answers with. -/
def seen {α : Type} (o : Host.Outcome State Fault Refusal) (f : State → α) : Option α :=
  match o with
  | .next t => some (f t)
  | .fault _ => none
  | .refused _ => none

/-- After an operation that answers, what was seen of its state is there to be had. -/
theorem of_seen {α : Type} {o : Host.Outcome State Fault Refusal} {f : State → α} {x : α} (h : seen o f = some x) :
    ∃ t, o = .next t ∧ f t = x := by
  cases o with
  | next t => exact ⟨t, rfl, Option.some.inj h⟩
  | fault f => cases h
  | refused r => cases h

/-- The chip with one cell written, and an outside world that makes no more moves. -/
def oneCell (c : Nat) (v : Byte) : State := { State.reset with mem := [(c, v)], script := [] }

/-- Lines OUT, address 0x0010 presented, 0x7E in the output latch (V30's start). -/
def strobeReady : State := { State.reset with dir := 0xFF, al := 0x0010, sr := 0x0010, dout := 0x7E }

/-- Sixteen data bytes. -/
def data : List Byte := [0, 1, 2, 3, 4, 5, 6, 7, 8, 9, 10, 11, 12, 13, 14, 15]

/-- The session of `P1FE0` at a control state, with given bytes in RX (PR2). -/
def session (c : Control) (rx : List Byte) : State :=
  { State.reset with
    cs := c, rx := rx, opA := some 0x1FE0, start := some 0x1FE0, maxb := some 32, cursor := some 8160, t0 := some 0
    script := [] }

/-! ## Well-formedness -/

theorem test_wf_refuses_resync_on_command : Instr.wf (.resync 0x52) = false := by decide
theorem test_wf_takes_resync_on_lower_case : Instr.wf (.resync 0x72) = true := by decide
theorem test_wf_refuses_chunk_of_fifteen : Instr.wf (.chunk (data.take 15)) = false := by decide
theorem test_wf_takes_chunk_of_sixteen : Instr.wf (.chunk data) = true := by decide
theorem test_wf_refuses_three_digits : Instr.wf (.readHex 3) = false := by decide
theorem test_wf_takes_two_digits : Instr.wf (.readHex 2) = true := by decide

/-! ## Words written out from the encoding (30_encoding.md R91 to R98) -/

/-- `R1234`: 52 31 32 33 34. -/
theorem test_decode_r : decodeTableWord 8 0x52 = some (.r 0) ∧
    decode .command [0x52, 0x31, 0x32, 0x33, 0x34] = .ok (.r 0x1234, []) := by decide
/-- `W123455` (PR1). -/
theorem test_decode_w : decode .command [0x57, 0x31, 0x32, 0x33, 0x34, 0x35, 0x35, 0x52] = .ok (.w 0x1234 0x55, [0x52]) := by
  decide
/-- `D01000010` (V47). -/
theorem test_decode_d : decode .command [0x44, 0x30, 0x31, 0x30, 0x30, 0x30, 0x30, 0x31, 0x30] =
    .ok (.d 0x0100 0x0010, []) := by decide
/-- `P1FE0` (PR2). -/
theorem test_decode_p : decode .command [0x50, 0x31, 0x46, 0x45, 0x30, 0x00] = .ok (.p 0x1FE0, [0x00]) := by decide
/-- Lower-case `r` (V57) and the ACK value (V58) at IDLE are RESYNC. -/
theorem test_decode_resync : decode .command [0x72, 0x30] = .ok (.resync 0x72, [0x30]) ∧
    decodeTableWord 8 0x06 = some (.resync 0x06) := by decide
/-- In bulk-data mode the same bytes are data (R103). -/
theorem test_decode_chunk : decode .bulk (0x52 :: data) = .ok (.chunk (0x52 :: data.take 15), [15]) := by decide
/-- `R00` and then nothing waits for two more digits (V59). -/
theorem test_decode_waits : decode .command [0x52, 0x30, 0x30] = .error (.truncated .r 2) ∧
    decode .bulk (data.take 15) = .error (.shortChunk 15) := by decide
theorem test_encode_ack : encode .ack = [0x06] := by decide
theorem test_encode_w : encode (.w 0x1A2F 0xB0) = [0x57, 0x31, 0x41, 0x32, 0x46, 0x42, 0x30] := by decide
/-- S9: the bits of `setAddress(0x1234)` on SER. -/
theorem test_encode_frame : encodePins (.setAddress 0x1234) =
    [false, false, false, true, false, false, true, false, false, false, true, true, false, true, false, false] := by decide

/-! ## The table's words as the first instruction after reset -/

theorem test_step_r : answers (step (State.reset.withFetchWord 8 0x52)) = true := by decide
set_option maxRecDepth 8000 in
theorem test_step_chunk : seen (step (State.reset.withFetchWord 128 0)) (fun t => (t.cs, t.rx, t.al)) =
    some (.bpAck, [], 15) := by decide

/-! ## Address multiplexer (95_test_vectors.md section 2.1) -/

theorem test_shiftBit_V1 : seen (exec (.shiftBit true) { State.reset with sr := 0x8001 })
    (fun t => (t.sr, t.ser, t.sck, t.al, t.rck)) = some (0x0003, true, false, 0, true) := by decide
theorem test_shiftBit_V2 : seen (exec (.shiftBit false) { State.reset with sr := 0xFFFF }) State.sr = some 0xFFFE := by
  decide
theorem test_shiftByte_V3 : seen (exec (.shiftByte 0x12) { State.reset with sr := 0xABCD }) (fun t => (t.sr, t.ser)) =
    some (0xCD12, false) := by decide
theorem test_shiftByte_V4 : seen (exec (.shiftByte 0x34) { State.reset with sr := 0xCD12 }) (fun t => (t.sr, t.ser)) =
    some (0x1234, false) := by decide
/-- V10: AL and SR after line writes 12, 48 and 50. -/
theorem test_setAddress_V10 :
    let w := ({ State.reset with sr := 0xBEEF, al := 0xBEEF } : State).pinTrace (setAddressEvents 0x1234)
    w.length = 50 ∧ (w[11]?).map (fun t => (t.ser, t.sck, t.rck, t.sr, t.al)) = some (true, true, false, 0xEEF1, 0xBEEF) ∧
      (w[47]?).map (fun t => (t.sr, t.al)) = some (0x1234, 0xBEEF) ∧
      (w[49]?).map (fun t => (t.sr, t.al, t.rck)) = some (0x1234, 0x1234, true) := by decide
/-- V9: the first address beyond the chip is presented in full. -/
theorem test_setAddress_V9 : seen (exec (.setAddress 0x2000) State.reset) (fun t => (t.al, t.sr, t.ser)) =
    some (0x2000, 0x2000, false) := by decide

/-! ## Data bus (section 2.2) -/

theorem test_setBusDir_V20 : seen (exec (.setBusDir .out) { State.reset with dout := 0x3C })
    (fun t => (t.dir, t.dout, t.busLevel)) = some (0xFF, 0x3C, 0x3C) := by decide
theorem test_setBusDir_V21 : seen (exec (.setBusDir .inp) { oneCell 0 0xA5 with dir := 0xFF, dout := 0x3C })
    (fun t => (t.dir, t.dout, t.busLevel)) = some (0x00, 0x3C, 0xA5) := by decide
theorem test_readByte_V23 : seen (exec .readByte (oneCell 0 0xA5)) (fun t => (t.ret, t.draws, t.mem)) =
    some (some 0xA5, 0, [(0, 0xA5)]) := by decide
theorem test_readByte_V27 : exec .readByte { State.reset with dir := 0xFF } = .refused .busDirection := by rfl
theorem test_writeByte_V25 : seen (exec (.writeByte 0x5A) strobeReady) (fun t => (t.dout, t.busLevel, t.mem, t.weN)) =
    some (0x5A, 0x5A, [], true) := by decide
/-- V26: the output latch after each of the eight assignments. -/
theorem test_writeByte_V26 : (({ State.reset with dir := 0xFF, dout := 0x3C } : State).pinTrace (writeByteEvents 0x55)).map
    State.dout = [0x3D, 0x3D, 0x3D, 0x35, 0x35, 0x15, 0x55, 0x55] := by decide

/-! ## Byte access (section 2.3) -/

theorem test_pulseWE_V30 : seen (exec .pulseWE strobeReady) (fun t => (t.weN, t.mem, t.wBusy, t.clockUs)) =
    some (true, [(0x10, 0x7E)], true, 1) := by decide
/-- No strobe over lines that are IN (U10), none while a write cycle is going on (U5). -/
theorem test_pulseWE_refuses : seen (exec .pulseWE State.reset) State.weN = none ∧
    seen (exec .pulseWE { strobeReady with busyUs := 1 }) State.weN = none := by decide
theorem test_readEEPROM_V31 : seen (exec (.readEEPROM 0x00FF) { oneCell 0xFF 0x3C with dir := 0xFF, al := 0x1234, dout := 1 })
    (fun t => (t.ret, t.dir, t.al, t.dout)) = some (some 0x3C, 0x00, 0x00FF, 1) := by decide
theorem test_readEEPROM_V31_lines : seen (exec (.readEEPROM 0x00FF) { oneCell 0xFF 0x3C with dir := 0xFF, al := 0x1234 })
    (fun t => (t.ser, t.rck, t.sck, t.weN)) = some (true, true, false, true) := by decide
theorem test_writeEEPROM_V32 : seen (exec (.writeEEPROM 0x1234 0x55) { State.reset with dout := 0x3C, al := 0x00FF })
    (fun t => (t.mem, t.dout, t.wBusy, t.clockUs)) = some ([(0x1234, 0x55)], 0x55, false, 10001) := by decide
/-- V35, V36: a write to another cell does not disturb a cell, the later write to it wins, and the list stays in order. -/
theorem test_writeEEPROM_V35_V36 :
    seen (execAll [.writeEEPROM 1 0x22, .writeEEPROM 0 0x33, .writeEEPROM 0 0x11, .readEEPROM 0] State.reset)
      (fun t => (t.ret, t.mem)) = some (some 0x11, [(0, 0x11), (1, 0x22)]) := by decide

/-! ## Operands and texts (section 2.4) -/

theorem test_hexval_table : [0x30, 0x39, 0x41, 0x46, 0x0A, 0x00, 0x52, 0x2F, 0x3A, 0x40, 0x47, 0x60, 0x67, 0x20, 0xFF, 0x44].map
    hexval = [0, 9, 10, 15, 0, 0, 0, 0, 0, 0, 0, 0, 0, 0, 0, 13] := by decide
/-- V40 (`1Z3F`): four bytes taken. -/
theorem test_readHex_V40 : seen (exec (.readHex 4) { State.reset with rx := [0x31, 0x5A, 0x33, 0x46, 0x52] })
    (fun t => (t.ret, t.rx)) = some (some 0x103F, [0x52]) := by decide
/-- V41 (`G7`), and the same when only `G` is there yet: it is taken, and one digit is still to read. -/
theorem test_readHex_V41 : seen (exec (.readHex 2) { State.reset with rx := [0x47, 0x37] }) State.ret = some (some 7) ∧
    seen (exec (.readHex 2) { State.reset with rx := [0x47] }) (fun t => (t.rx, t.ret, t.reading)) =
      some ([], none, some (1, 0)) := by decide
theorem test_readHexDigit : seen (exec .readHexDigit { State.reset with rx := [0x44, 0x30] }) (fun t => (t.ret, t.rx)) =
    some (some 13, [0x30]) := by decide
/-- S8. -/
theorem test_readResponse_S8 : readResponse 0x1234 0x55 =
    [0x52, 0x65, 0x61, 0x64, 0x20, 0x66, 0x72, 0x6F, 0x6D, 0x20, 0x30, 0x78, 0x31, 0x32, 0x33, 0x34, 0x3A, 0x20, 0x30, 0x78,
      0x35, 0x35] ++ Config.texts.eol := by
  simp [readResponse, textReadFrom, textColon0x, hex4, hex2, nibbles16, nibbles8, hexOut]
/-- S8. -/
theorem test_wroteResponse_S8 : wroteResponse 0x1234 0x55 =
    [0x57, 0x72, 0x6F, 0x74, 0x65, 0x20, 0x30, 0x78, 0x35, 0x35, 0x20, 0x74, 0x6F, 0x20, 0x30, 0x78, 0x31, 0x32, 0x33, 0x34] ++
      Config.texts.eol := by
  simp [wroteResponse, textWrote, textTo, hex4, hex2, nibbles16, nibbles8, hexOut]
/-- V47: the ASCII column. -/
theorem test_printable_V47 : [0x00, 0x1F, 0x20, 0x30, 0x41, 0x7E, 0x7F, 0x80, 0xFF, 0x06, 0x0A, 0x2E, 0x61].map printable =
    [0x2E, 0x2E, 0x20, 0x30, 0x41, 0x7E, 0x2E, 0x2E, 0x2E, 0x2E, 0x2E, 0x2E, 0x61] := by decide
/-- S6, V51: the dump's byte count. -/
theorem test_dumpCount_S6 : dumpCount 0 = 16 ∧ dumpCount 1 = 1 ∧ dumpCount 0xFFFF = 65535 := by decide

/-! ## Commands (section 2.4) -/

/-- V45 without its text: `R00FF` with 0x3C in the cell. -/
theorem test_r_V45 : seen (exec (.r 0x00FF) { oneCell 0xFF 0x3C with dir := 0xFF })
    (fun t => ((t.dir, t.al), (t.cs, t.opA), t.mem)) = some ((0x00, 0x00FF), (.idle, none), [(0xFF, 0x3C)]) := by decide
/-- V48: `W12G455` writes the cell of the parsed address. -/
theorem test_w_V48 : seen (step { State.reset with
    rx := [0x57, 0x31, 0x32, 0x47, 0x34, 0x35, 0x35], script := [.pass 7 [] 0 []] }) (fun t => (t.mem, t.rx, t.clockUs)) =
    some ([(0x1204, 0x55)], [], 10008) := by decide
set_option maxRecDepth 20000 in
/-- V52: `D00000011` reads 17 cells; the last address stays presented. -/
theorem test_d_V52 : seen (exec (.d 0 0x11) State.reset) (fun t => ((t.al, t.dir), t.draws, t.mem, t.cs)) =
    some ((16, 0x00), 0, [], .idle) := by decide
/-- V57: RX is emptied and nothing else happens. -/
theorem test_resync_V57 : seen (step { State.reset with rx := [0x72, 0x30, 0x30, 0x30, 0x30], script := [.quiet] })
    (fun t => (t.rx, t.cs, t.al, t.dir)) = some ([], .idle, 0, 0x00) := by decide
/-- PR2, first row. -/
theorem test_p_PR2 : seen (step { State.reset with rx := [0x50, 0x31, 0x46, 0x45, 0x30], script := [.quiet] })
    (fun t => (t.cs, t.opA, t.rx)) = some (.bpInit, some 0x1FE0, []) := by decide
/-- V59: `R00` waits for two digits. -/
theorem test_operands_V59 : seen (Host.Core.run core 3 { State.reset with
    rx := [0x52, 0x30, 0x30], script := [.quiet, .quiet, .quiet] }) (fun t => (t.cs, t.rx)) =
    some (.operands .r 2 0, []) := by decide

/-! ## Bulk session (section 2.5) -/

/-- V65, V71: MAXB in range and at the chip's end. -/
theorem test_maxb_V65_V71 : maxbOf 0x1FE0 = 32 ∧ maxbOf 0 = 8192 ∧ maxbOf 0x2000 = 0 := by decide
theorem test_bpInit_PR2 : seen (exec .bpInit { State.reset with cs := .bpInit, opA := some 0x1FE0 })
    (fun t => (t.cs, t.start, t.maxb, t.cursor)) = some (.bpAwait, some 0x1FE0, some 32, some 8160) := by decide
/-- V75: sixteen bytes there at the first poll. -/
theorem test_bpAwait_V75 : seen (exec .bpAwaitChunk (session .bpAwait data)) (fun t => (t.cs, t.rx)) =
    some (.bpWrite, data) := by decide
/-- V79, V80: the window is open at 60000 ms and over at 60001 ms; RX keeps its fifteen bytes. -/
theorem test_bpAwait_V79_V80 :
    seen (exec .bpAwaitChunk { session .bpAwait (data.take 15) with inWait := true, clockUs := 60001000 })
      (fun t => (t.cs, t.rx.length, t.start)) = some (.idle, 15, none) ∧
    seen (exec .bpAwaitChunk { session .bpAwait (data.take 15) with inWait := true, clockUs := 60000999 }) State.cs =
      some .bpAwait := by decide
set_option maxRecDepth 8000 in
/-- PR2, fourth row. -/
theorem test_bpWrite_PR2 : seen (exec .bpWriteChunk (session .bpWrite (data ++ [0x10])))
    (fun t => ((t.cs, t.rx), (t.cursor, t.al), t.mem.map Prod.snd, t.mem.map Prod.fst)) =
    some ((.bpAck, [0x10]), (some 8160, 0x1FEF), data, (List.range 16).map (· + 8160)) := by decide
set_option maxRecDepth 8000 in
theorem test_chunk_PR2 : seen (exec (.chunk data) (session .bpWrite [])) (fun t => (t.cs, t.dout, t.clockUs)) =
    some (.bpAck, 15, 161616) := by decide
theorem test_bpAck_PR2 : seen (exec .bpAck { session .bpAck [] with tx := [] }) (fun t => (t.cs, t.tx, t.txSent)) =
    some (.bpAdvance, [0x06], 1) := by decide
theorem test_ack_frame : seen (exec .ack { State.reset with tx := [0x41] }) (fun t => (t.cs, t.tx, t.txSent)) =
    some (.idle, [0x41, 0x06], 2) := by decide
/-- PR2, sixth row, and its last (exit arm 3). -/
theorem test_bpAdvance_PR2 :
    seen (exec .bpAdvance (session .bpAdvance [])) (fun t => (t.cs, t.cursor)) = some (.bpAwait, some 8176) ∧
    seen (exec .bpAdvance { session .bpAdvance [] with cursor := some 8176 }) (fun t => (t.cs, t.cursor)) =
      some (.idle, none) := by decide
/-- V66 (exit arm 1) and V71 (start at the chip's end). -/
theorem test_bpAdvance_V66_V71 :
    seen (exec .bpAdvance { session .bpAdvance [] with start := some 0x1FE1, maxb := some 31, cursor := some 8177 }) State.cs =
      some .idle ∧
    seen (exec .bpAdvance { session .bpAdvance [] with start := some 0x2000, maxb := some 0, cursor := some 8192 }) State.cs =
      some .idle := by decide
theorem test_bpComplete : seen (exec .bpComplete (session .bpAdvance [1])) (fun t => (t.cs, t.rx, t.maxb, t.opA)) =
    some (.idle, [1], none, none) := by decide
theorem test_bpTimeout : seen (exec .bpTimeout (session .bpAwait [1])) (fun t => (t.cs, t.rx, t.t0, t.opA)) =
    some (.idle, [1], none, none) := by decide

/-! ## Reset (section 2.7) -/

set_option maxRecDepth 8000 in
/-- V98: a reset in the settle delay of a write; the chip is as before but for the cell under way. -/
theorem test_reset_V98 : seen (step { oneCell 7 0x33 with
    rx := [0x57, 0x30, 0x30, 0x30, 0x30, 0x30, 0x31], script := [.resetWithin 0 [] 69] })
    (fun t => (t.cs, t.rx, t.mem.map Prod.fst, t.weN)) = some (.idle, [], [0, 7], true) := by decide
set_option maxRecDepth 8000 in
/-- R70, R290: a reset between the second and the third byte of a chunk leaves exactly a prefix. -/
theorem test_reset_between_bytes : seen (step { session .bpWrite data with script := [.resetWithin 0 [] 142] })
    (fun t => (t.cs, t.mem)) = some (.idle, [(8160, 0), (8161, 1)]) := by decide

/-! ## Witnesses: states and operands that meet the hypotheses of the statements -/

/-- The environment's move of a witness that starts a step quietly. -/
def quietly (s : State) : State := { s with script := [.quiet] }

theorem witness_DecodeEncodeRoundTrip :
    (Instr.wf (.d 0x1FFF 0) = true ∧ Instr.mode? (.d 0x1FFF 0) = some .command) ∧
    (Instr.wf (.chunk data) = true ∧ Instr.mode? (.chunk data) = some .bulk) := by decide
theorem witness_CommandLengthByFirstByte :
    (0x0A : Byte) ≠ 0x52 ∧ (0x0A : Byte) ≠ 0x50 ∧ (0x0A : Byte) ≠ 0x57 ∧ (0x0A : Byte) ≠ 0x44 ∧
    commandLength 0x57 ≤ [0x30, 0x30, 0x30, 0x30, 0x30, (0x30 : Byte)].length + 1 ∧
    [0x30, 0x30, 0x30, 0x30, (0x30 : Byte)].length + 1 < commandLength 0x57 ∧
    [0x31, 0x32, 0x33, 0x34, 0x6A, (0x0A : Byte)].length = Cmd.w.digits := by decide
theorem witness_HexDigitValues :
    (0x30 ≤ (0x39 : Byte).toNat ∧ (0x39 : Byte).toNat ≤ 0x39) ∧ (0x41 ≤ (0x46 : Byte).toNat ∧ (0x46 : Byte).toNat ≤ 0x46) ∧
    (0x61 ≤ (0x66 : Byte).toNat ∧ (0x66 : Byte).toNat ≤ 0x66) ∧
    ¬ (0x30 ≤ (0x40 : Byte).toNat ∧ (0x40 : Byte).toNat ≤ 0x39) ∧
    ¬ (0x41 ≤ (0x40 : Byte).toNat ∧ (0x40 : Byte).toNat ≤ 0x46) ∧
    ¬ (0x61 ≤ (0x40 : Byte).toNat ∧ (0x40 : Byte).toNat ≤ 0x66) := by decide
theorem witness_OperandValueAndBytesTaken :
    ({ State.reset with rx := [0x30, 0x30, 0x46, 0x46, 0x0A] } : State).rx = 0x30 :: 0x30 :: 0x46 :: 0x46 :: [0x0A] ∧
    ({ State.reset with rx := [0x46, 0x46] } : State).rx = 0x46 :: 0x46 :: [] := by decide
/-- For `ShiftByteMovesEightBits`, `SetAddressPresentsAddress`, `AddressLatchHoldsWhileShifting`, `ReadEEPROMLoadsOneByte`,
`WriteEEPROMStoresOneByte`, `CommandRReadsAndReports`, `CommandWWritesAndConfirms`, `CommandDDumps` and, with WE_N high,
`StrobeOnlyOverSettledLines`. -/
theorem witness_pins_at_rest : State.reset.sck = false ∧ State.reset.wBusy = false ∧ State.reset.weN = true ∧
    Config.cell 0x1FFF = some 0x1FFF := by decide
theorem witness_CommandDDumps_all_in_range : ∀ j, j < dumpCount 0 →
    (Config.cell ((0x1FF0 : Word) + BitVec.ofNat 16 j)).isSome = true := by decide
theorem witness_AddressStaysUntilNextSetAddress : presentsAddress (.setBusDir .out) = false ∧
    (∃ t, exec (.setBusDir .out) State.reset = .next t) ∧ (∀ b, Instr.setBusDir .out ≠ .shiftBit b) ∧
    (∀ v, Instr.setBusDir .out ≠ .shiftByte v) :=
  ⟨rfl, of_answers (by decide), fun _ => by simp, fun _ => by simp⟩
theorem witness_ReadByteSamplesTheChip :
    (State.reset.dir = 0x00 ∧ State.reset.wBusy = false ∧ Config.cell State.reset.al = some 0) ∧
    strobeReady.dir ≠ 0x00 ∧
    (({ State.reset with busyUs := 1 } : State).dir = 0x00 ∧ ({ State.reset with busyUs := 1 } : State).wBusy = true) := by
  decide
theorem witness_WriteByteDrivesTheLines : strobeReady.dir = 0xFF ∧ ({ State.reset with dir := 0x7F } : State).dir ≠ 0xFF := by
  decide
theorem witness_LineLevelByDirection : 7 < 8 := by decide
theorem witness_PulseWEWritesTheSelectedCell : (strobeReady.dir = 0xFF ∧ strobeReady.wBusy = false) ∧
    State.reset.dir ≠ 0xFF ∧
    (({ strobeReady with busyUs := 1 } : State).dir = 0xFF ∧ ({ strobeReady with busyUs := 1 } : State).wBusy = true) := by
  decide
/-- Operations of several kinds that store nothing in cell 0x1FFF. -/
def between : List Instr := [.r 0, .w 5 1, .bpAck, .setAddress 3]
theorem between_undisturbed (t : State) : Undisturbed (0x1FFF : Word).toNat between t := by
  have h : Config.cell 5 ≠ some (0x1FFF : Word).toNat := by decide
  exact ⟨by simp [storesTo], fun _ _ => ⟨List.forall_mem_singleton.2 h, fun _ _ => ⟨by simp [storesTo], fun _ _ =>
    ⟨by simp [storesTo], fun _ _ => trivial⟩⟩⟩⟩
set_option maxRecDepth 8000 in
theorem witness_WrittenByteReadsBack :
    (∃ t u, exec (.writeEEPROM 0x1FFF 0x42) (oneCell 0 1) = .next t ∧ Undisturbed (0x1FFF : Word).toNat between t ∧
      execAll between t = .next u ∧ u.wBusy = false) ∧
    (0x1FFF : Word).toNat < 8192 ∧ (oneCell 0 1).sck = false ∧ (oneCell 0 1).wBusy = false ∧
    ∀ x ∈ [Access.write 0 1, Access.read 0x1FFE], x.addr.toNat < 8192 ∧ x.addr ≠ 0x1FFF := by
  refine ⟨?_, by decide, rfl, rfl, by decide⟩
  obtain ⟨u, hu, hb⟩ := of_seen (o := execAll (.writeEEPROM 0x1FFF 0x42 :: between) (oneCell 0 1)) (f := State.wBusy)
    (x := false) (by decide)
  obtain ⟨t, ht, hu⟩ := andThen_eq_next hu
  exact ⟨t, u, ht, between_undisturbed t, hu, hb⟩
theorem witness_CellsChangeOnlyByWritePulse : pulsesWE (.d 0 1) = false ∧ ∃ t, exec (.d 0 1) State.reset = .next t :=
  ⟨rfl, of_answers (by decide)⟩
theorem witness_StoresTouchOnlyTheirCells :
    State.reset.sck = false ∧ strobeReady.sck = false ∧ (∃ t, exec (.writeEEPROM 5 1) State.reset = .next t) ∧
    (∃ t, exec (.w 5 1) State.reset = .next t) ∧ (∃ t, exec .pulseWE strobeReady = .next t) ∧
    (∃ t, exec (.chunk data) (session .bpWrite []) = .next t) ∧
    (∃ t, exec .bpWriteChunk (session .bpWrite data) = .next t) ∧ (session .bpWrite data).cursor = some 8160 ∧
    Config.cell 5 ≠ some 6 ∧ Config.cell strobeReady.al ≠ some 0x11 ∧
    (∀ k, k < 16 → Config.cell (trunc16 (8160 + k)) ≠ some 8159) :=
  ⟨rfl, rfl, of_answers (by decide), of_answers (by decide), of_answers (by decide), of_answers (by decide),
    of_answers (by decide), rfl, by decide, by decide, by decide⟩
theorem witness_ReadHexDigitTakesOneByte : ({ State.reset with rx := [0x41] } : State).rx = 0x41 :: [] ∧
    State.reset.rx = [] := by decide
/-- From its start with all four digits there and with three, and where it waits for the last of them. -/
theorem witness_ReadHexTakesItsDigits : (4 = 2 ∨ 4 = 4) ∧ (oneCell 0 1).reading = none ∧
    4 ≤ ({ oneCell 0 1 with rx := data.take 4 } : State).rx.length ∧
    ({ oneCell 0 1 with rx := data.take 3 } : State).rx.length < 4 ∧
    ({ oneCell 0 1 with rx := data.take 1, reading := some (1, 0x123) } : State).reading = some (1, 0x123) ∧
    1 ≤ ({ oneCell 0 1 with rx := data.take 1, reading := some (1, 0x123) } : State).rx.length := by decide
theorem witness_UnknownByteDrainsInput : State.reset.cs = .idle ∧
    ({ State.reset with rx := [0x51, 0x52] } : State).rx = 0x51 :: [0x52] ∧ (0x51 : Byte) ≠ 0x52 ∧ (0x51 : Byte) ≠ 0x57 ∧
    (0x51 : Byte) ≠ 0x44 ∧ (0x51 : Byte) ≠ 0x50 := by decide
theorem witness_MaxByteCountOfStart : (0x1FFF : Word).toNat < 8192 ∧ (0x2000 : Word).toNat = 8192 ∧
    8192 < (0x2001 : Word).toNat := by decide
theorem witness_BpInitOpensTheSession : (session .bpInit []).opA = some 0x1FE0 := by decide
/-- Every clause, in a wait that has begun (T0 = 0) and, for the first, at its beginning. -/
theorem witness_BpAwaitChunkPolls :
    ((session .bpAwait data).inWait = false ∧ (session .bpAwait data).nowMs = 0 ∧ 16 ≤ (session .bpAwait data).rx.length) ∧
    (({ session .bpAwait (data.take 15) with inWait := true, clockUs := 60001000 } : State).t0 = some 0 ∧
      (session .bpAwait (data.take 15)).rx.length < 16 ∧
      60000 < ({ session .bpAwait (data.take 15) with inWait := true, clockUs := 60001000 } : State).nowMs - 0) ∧
    ({ session .bpAwait (data.take 15) with inWait := true, clockUs := 60000999 } : State).nowMs - 0 ≤ 60000 := by decide
theorem witness_BpWriteChunkWritesSixteen : (session .bpWrite data).cursor = some 8160 ∧
    16 ≤ (session .bpWrite data).rx.length ∧ (session .bpWrite data).sck = false ∧ (session .bpWrite data).wBusy = false := by
  decide
/-- For `ChunkFrameIsWritten` and `ChunkLandsContiguously`, at the last chunk of the chip, and `PoppedChunkEqualsFrame`. -/
theorem witness_ChunkFrameIsWritten :
    ({ session .bpWrite data with cursor := some 8176 } : State).cursor = some 8176 ∧ data.length = 16 ∧ 8176 + 16 ≤ 8192 ∧
    (session .bpWrite data).sck = false ∧ (session .bpWrite data).wBusy = false ∧ 16 ≤ (session .bpWrite data).rx.length ∧
    ∃ t, exec (.chunk data) { session .bpWrite data with cursor := some 8176 } = .next t :=
  ⟨rfl, rfl, by decide, rfl, rfl, by decide, of_answers (by decide)⟩
theorem witness_BpAdvanceDecides : (session .bpAdvance []).start = some 0x1FE0 ∧ (session .bpAdvance []).maxb = some 32 ∧
    (session .bpAdvance []).cursor = some 8160 ∧ 8160 + 16 ≤ 8192 ∧ 8160 + 16 < (0x1FE0 : Word).toNat + 32 ∧
    (8192 < 8176 + 16 ∨ (0x1FE0 : Word).toNat + 32 ≤ 8176 + 16) := by decide
theorem witness_SessionEndsAtTheChipsEnd :
    ((session .bpAdvance []).maxb = some (maxbOf 0x1FE0) ∧ (0x1FE0 : Word).toNat ≤ 8160 ∧ (0x1FE0 : Word).toNat < 8192 ∧
      ∃ t, exec .bpAdvance (session .bpAdvance []) = .next t) ∧
    (maxbOf 0x2000 = 0 ∧ 8192 ≤ (0x2000 : Word).toNat ∧ ∃ t, exec .bpAdvance
      { session .bpAdvance [] with start := some 0x2000, maxb := some 0, cursor := some 8192 } = .next t) :=
  ⟨⟨by decide, by decide, by decide, of_answers (by decide)⟩, by decide, by decide, of_answers (by decide)⟩

/-- The invariant holds in the states of a session; for the statements that assume it. -/
theorem session_inv : Inv (session .bpAwait []) ∧ Inv (session .bpWrite data) ∧ Inv (session .bpAck []) :=
  ⟨⟨by decide, by decide, by decide, Nat.zero_le _, Nat.zero_le _⟩,
    ⟨by decide, by decide, by decide, Nat.zero_le _, rxCapacity_ge⟩,
    ⟨by decide, by decide, by decide, Nat.zero_le _, Nat.zero_le _⟩⟩

/-- For `StepKeepsTheInvariant` and `StepStopsOnlyOnOverrun`. -/
theorem witness_StepKeepsTheInvariant : Inv (quietly (session .bpWrite data)) ∧
    ∃ t, step (quietly (session .bpWrite data)) = .next t :=
  ⟨⟨by decide, by decide, by decide, Nat.zero_le _, rxCapacity_ge⟩, of_answers (by decide)⟩
/-- A command whose last bytes land at the start of the step, and a chunk; with one more byte that lands meanwhile. -/
theorem witness_StepRunsTheDecodedInstruction :
    (∃ s : State, s.script = .pass 5 [0x30, 0x30, 0x37] 1 [[0x52]] :: [] ∧
      s.rx.length + [0x30, 0x30, (0x37 : Byte)].length ≤ Config.rxCapacity ∧ s.cs = .idle ∧
      decode .command (s.rx ++ [0x30, 0x30, 0x37]) = .ok (.r 7, []) ∧
      ∃ t, exec (.r 7) { s with rx := [] } = .next t ∧
        ∀ k, k < [[(0x52 : Byte)]].length →
          t.rx.length + ([[(0x52 : Byte)]].take (k + 1)).flatten.length ≤ Config.rxCapacity) ∧
    ∃ s : State, s.script = .pass 0 [] 0 [] :: [] ∧ s.rx.length + ([] : List Byte).length ≤ Config.rxCapacity ∧
      s.cs = .bpWrite ∧ decode .bulk (s.rx ++ []) = .ok (.chunk data, []) := by
  refine ⟨⟨{ oneCell 7 1 with rx := [0x52, 0x30], script := [.pass 5 [0x30, 0x30, 0x37] 1 [[0x52]]] }, rfl,
    Nat.le_trans (by decide) rxCapacity_ge, rfl, by decide, ?_⟩, quietly (session .bpWrite data), rfl, rxCapacity_ge, rfl,
    by decide⟩
  obtain ⟨t, ht, hr⟩ := of_seen (o := exec (.r 7) { oneCell 7 1 with
    rx := [], script := [.pass 5 [0x30, 0x30, 0x37] 1 [[0x52]]] }) (f := State.rx) (x := []) (by decide)
  refine ⟨t, ht, fun k hk => ?_⟩
  obtain rfl : k = 0 := by simpa using hk
  rw [hr]
  exact Nat.le_trans (by decide) rxCapacity_ge
/-- RX full behind a line feed: one more byte finds room once the line feed is taken. -/
def fullResync (more : List Byte) (later : List (List Byte)) : State :=
  { State.reset with
    rx := 0x0A :: List.replicate (Config.rxCapacity - 1) 0x30, script := [.pass 0 [] 0 (more :: later)] }

theorem fullResync_ok (more : List Byte) (later : List (List Byte)) :
    (fullResync more later).rx.length + ([] : List Byte).length ≤ Config.rxCapacity ∧
    decode .command ((fullResync more later).rx ++ []) =
      .ok (.resync 0x0A, List.replicate (Config.rxCapacity - 1) 0x30) := by
  have h := rxCapacity_ge
  constructor
  · simp only [fullResync, List.length_cons, List.length_replicate, List.length_nil]
    omega
  · rw [List.append_nil]
    rfl

/-- For the RESYNC clause of `StepRunsTheDecodedInstruction`: a byte that comes between the pop and the drain of a full RX. -/
theorem witness_StepRunsResync :
    (fullResync [0x52] [[0x57]]).script = .pass 0 [] 0 ([0x52] :: [[0x57]]) :: [] ∧
    (fullResync [0x52] [[0x57]]).cs = .idle ∧
    (List.replicate (Config.rxCapacity - 1) (0x30 : Byte)).length + [(0x52 : Byte)].length ≤ Config.rxCapacity ∧
    [[(0x57 : Byte)]].flatten.length ≤ Config.rxCapacity := by
  have h := rxCapacity_ge
  refine ⟨rfl, rfl, ?_, Nat.le_trans (by decide) h⟩
  simp only [List.length_replicate, List.length_cons, List.length_nil]
  omega

/-- PR4 case c (R187 corner a, D27): behind `\n`, the bytes `R0` land before the drain and are lost, `001` after it and are kept. -/
theorem test_resync_split : ∃ t, step { State.reset with
    rx := [0x0A], script := [.pass 0 [] 0 [[0x52, 0x30], [0x30, 0x30, 0x31]]] } = .next t ∧
    t.rx = [0x30, 0x30, 0x31] ∧ t.cs = .idle := by
  rw [step_of_go (State.environment_pass rfl (.inl rfl))]
  refine ⟨_, State.land_eq (.inr (Nat.le_trans (by decide) rxCapacity_ge)) fun k hk => ?_, rfl, rfl⟩
  obtain rfl : k = 0 := Nat.lt_one_iff.1 hk
  exact Nat.le_trans (by decide) rxCapacity_ge

theorem witness_ThreadFollowsTheControlState :
    ((oneCell 0 1).cs = .idle ∧ (oneCell 0 1).rx = []) ∧
    (({ oneCell 0 1 with rx := [0x57, 0x30, 0x30, 0x30, 0x30, 0x31] } : State).rx =
        Cmd.w.byte :: [0x30, 0x30, 0x30, 0x30, 0x31] ∧
      [0x30, 0x30, 0x30, 0x30, (0x31 : Byte)].length < Cmd.w.digits) ∧
    (session .bpInit []).cs = .bpInit ∧ (session .bpAwait []).cs = .bpAwait ∧
    ((session .bpWrite data).cs = .bpWrite ∧ 16 ≤ (session .bpWrite data).rx.length) ∧ (session .bpAck []).cs = .bpAck ∧
    (session .bpAdvance []).cs = .bpAdvance ∧
    ((session (.exec .r) []).cs = .exec .r ∧ (session (.exec .r) []).opA = some 0x1FE0) ∧
    (({ session (.exec .w) [] with opV := some 1 } : State).cs = .exec .w ∧
      ({ session (.exec .w) [] with opV := some 1 } : State).opV = some 1) ∧
    (({ session (.exec .d) [] with opL := some 1 } : State).cs = .exec .d ∧
      ({ session (.exec .d) [] with opL := some 1 } : State).opL = some 1) := by decide
theorem witness_OperandByteIsADigit :
    ((session (.operands .p 1 0) [0x5A]).cs = .operands .p (0 + 1) 0 ∧
      (session (.operands .p 1 0) [0x5A]).rx = 0x5A :: []) ∧
    ((session (.operands .w 4 0) []).cs = .operands .w (3 + 1) 0 ∧ (session (.operands .w 4 0) []).rx = []) ∧
    (session (.operands .r 0 7) []).cs = .operands .r 0 7 ∧ (session (.operands .p 0 7) []).cs = .operands .p 0 7 ∧
    (∀ c, ({ oneCell 0 1 with cs := .operands c 0 7 } : State).opA = none) ∧
    ∀ c, (session (.operands c 0 7) []).opA ≠ none :=
  ⟨⟨rfl, rfl⟩, ⟨rfl, rfl⟩, rfl, rfl, fun _ => rfl, fun _ => by simp [session]⟩
theorem witness_DigitByDigitEqualsWhole : [0x30, 0x30, 0x46, 0x5A, 0x31, (0x32 : Byte)].length = Cmd.w.digits ∧
    ∃ s : State, s.txSent ≤ s.tx.length ∧ s.opA = none ∧
      s.cs = .operands .w 4 0 ∧ s.rx = [0x30, 0x30, 0x46, 0x5A, 0x31, 0x32] ++ [0x52] ∧
      s.script = List.replicate (Cmd.slowSteps .w) .quiet ++ [.reset] :=
  ⟨rfl, { State.reset with
    cs := .operands .w 4 0, rx := [0x30, 0x30, 0x46, 0x5A, 0x31, 0x32, 0x52]
    script := List.replicate 9 .quiet ++ [.reset] }, Nat.zero_le _, rfl, rfl, rfl, rfl⟩
/-- For `AckBytesCountChunks`, in both its cases, and `StreamsAndClockMoveForward`. -/
theorem witness_AckBytesCountChunks :
    (∃ s1 w t, (quietly (session .bpAck [])).environment = .go s1 w ∧ step (quietly (session .bpAck [])) = .next t ∧
      (quietly (session .bpAck [])).cs = .bpAck) ∧
    ∃ s1 w t, (quietly State.reset).environment = .go s1 w ∧ step (quietly State.reset) = .next t ∧
      (quietly State.reset).cs ≠ .bpAck := by
  obtain ⟨t, ht⟩ := of_answers (o := step (quietly (session .bpAck []))) (by decide)
  obtain ⟨u, hu⟩ := of_answers (o := step (quietly State.reset)) (by decide)
  exact ⟨⟨_, _, t, rfl, ht, rfl⟩, _, _, u, rfl, hu, by decide⟩
/-- One chunk of the two that the session still needs, and both. -/
theorem witness_StopAndWaitSession : Inv (session .bpAwait []) ∧ (0x1FE0 : Word).toNat < 8192 ∧
    StopAndWait [data] [.pass 9 data 0 [], .quiet, .pass 1 [] 5 [], .quiet] ∧ [data].length < (8192 - 8160 + 15) / 16 ∧
    [data, data].length = (8192 - 8160 + 15) / 16 :=
  ⟨session_inv.1, by decide, ⟨rfl, rfl, rfl⟩, by decide, by decide⟩
theorem witness_SilentHostIsTimedOut : (session .bpAwait (data.take 15)).cs = .bpAwait ∧
    (session .bpAwait (data.take 15)).rx.length < 16 ∧ (session .bpAwait (data.take 15)).script = [] ∧
    ∃ t0, ({ session .bpAwait [] with inWait := true, clockUs := 999 } : State).t0 = some t0 ∧
      t0 ≤ ({ session .bpAwait [] with inWait := true, clockUs := 999 } : State).nowMs :=
  ⟨rfl, by decide, rfl, 0, rfl, by decide⟩
/-- The session is left by the advance behind its last chunk, and by the wait whose window is over. -/
theorem witness_BulkModeLeftOnlyByItsTwoOutcomes :
    (∃ t, step (quietly { session .bpAdvance [] with cursor := some 8176 }) = .next t ∧ t.cs.isBulk = false) ∧
    ∃ t, step (quietly { session .bpAwait [] with inWait := true, clockUs := 60001000 }) = .next t ∧ t.cs.isBulk = false := by
  exact ⟨of_seen (f := fun t => t.cs.isBulk) (by decide), of_seen (f := fun t => t.cs.isBulk) (by decide)⟩
/-- A `P` taken whole, and the end of a `P` whose digits have been read one by one. -/
theorem witness_BulkModeEnteredOnlyByP :
    (Inv (quietly { oneCell 0 1 with rx := [0x50, 0x31, 0x46, 0x45, 0x30] }) ∧
      seen (step (quietly { oneCell 0 1 with rx := [0x50, 0x31, 0x46, 0x45, 0x30] })) (fun t => t.cs.isBulk) = some true) ∧
    Inv (quietly { oneCell 0 1 with cs := .operands .p 0 0x1FE0 }) ∧
    seen (step (quietly { oneCell 0 1 with cs := .operands .p 0 0x1FE0 })) (fun t => t.cs.isBulk) = some true :=
  ⟨⟨⟨by decide, by decide, by decide, Nat.zero_le _, Nat.le_trans (by decide) rxCapacity_ge⟩, by decide⟩,
    ⟨by decide, by decide, by decide, Nat.zero_le _, Nat.zero_le _⟩, by decide⟩
/-- More bytes than fit at the start of a step, and while the first byte of a chunk is written. -/
theorem witness_OverrunIsRefused : (∃ s : State,
    s.script = .pass 0 (List.replicate (Config.rxCapacity + 1) 0) 0 [] :: [] ∧
    (List.replicate (Config.rxCapacity + 1) 0 : List Byte) ≠ [] ∧
    Config.rxCapacity < s.rx.length + (List.replicate (Config.rxCapacity + 1) (0 : Byte)).length) ∧
    ∃ s : State, s.script = .pass 0 [] 0 [List.replicate Config.rxCapacity 0] :: [] ∧
      s.rx.length + ([] : List Byte).length ≤ Config.rxCapacity ∧ s.cs = .bpWrite ∧ s.cursor = some 8160 ∧
      16 ≤ s.rx.length + ([] : List Byte).length ∧ s.sck = false ∧ s.wBusy = false ∧
      Config.rxCapacity < s.rx.length + ([] : List Byte).length - (0 + 1) +
        ([List.replicate Config.rxCapacity (0 : Byte)].take (0 + 1)).flatten.length := by
  refine ⟨⟨{ State.reset with script := [.pass 0 (List.replicate (Config.rxCapacity + 1) 0) 0 []] }, rfl, by simp, ?_⟩,
    { session .bpWrite data with script := [.pass 0 [] 0 [List.replicate Config.rxCapacity 0]] }, rfl, rxCapacity_ge, rfl, rfl,
    by decide, rfl, rfl, ?_⟩
  · rw [List.length_replicate]
    exact Nat.lt_of_lt_of_le (Nat.lt_succ_self _) (Nat.le_add_left _ _)
  · simp [session, data]
/-- For the RESYNC clause of `OverrunIsRefused`: one byte too many before the drain, and after it. -/
theorem witness_OverrunAtResync : ∃ s u : State,
    s.script = .pass 0 [] 0 ([0x52, 0x57] :: []) :: [] ∧ s.cs = .idle ∧ [0x52, (0x57 : Byte)] ≠ [] ∧
    Config.rxCapacity < (List.replicate (Config.rxCapacity - 1) (0x30 : Byte)).length + [0x52, (0x57 : Byte)].length ∧
    u.script = .pass 0 [] 0 ([] :: [List.replicate (Config.rxCapacity + 1) 0]) :: [] ∧ u.cs = .idle ∧
    Config.rxCapacity < [List.replicate (Config.rxCapacity + 1) (0 : Byte)].flatten.length := by
  have h := rxCapacity_ge
  refine ⟨fullResync [0x52, 0x57] [], fullResync [] [List.replicate (Config.rxCapacity + 1) 0], rfl, rfl, by simp, ?_, rfl,
    rfl, by simp⟩
  simp only [List.length_replicate, List.length_cons, List.length_nil]
  omega
theorem witness_ResetKeepsTheChip : ({ oneCell 7 1 with script := [.reset] } : State).script = .reset :: [] ∧
    (oneCell 7 1).weN = true ∧ (oneCell 7 1).wBusy = false := by decide
/-- In a chunk: between two bytes (the sixth begun up to its pulse), and behind the last settle delay. In a `W`: taken whole and
with its operands read, before its pulse and after its settle delay. -/
theorem witness_ResetInsideChunkLeavesAPrefix :
    (∀ e, ({ session .bpWrite data with script := [.resetWithin 3 [] e] } : State).script = .resetWithin 3 [] e :: []) ∧
    (session .bpWrite data).rx.length + ([] : List Byte).length ≤ Config.rxCapacity ∧
    (5 * 71 + 66 < 16 * 71 ∧ (5 * 71 + 66) % 71 ≤ 66 ∧ 4 < (5 * 71 + 66) / 71) ∧
    (15 * 71 + 70 < 16 * 71 ∧ (15 * 71 + 70) % 71 = 70) ∧
    ((session .bpWrite data).cs = .bpWrite ∧ (session .bpWrite data).cursor = some 8160 ∧
      16 ≤ (session .bpWrite data).rx.length + ([] : List Byte).length ∧ 8160 + 16 ≤ 8192 ∧
      (session .bpWrite data).sck = false ∧ (session .bpWrite data).weN = true ∧ (session .bpWrite data).wBusy = false) ∧
    ((oneCell 7 1).cs = .idle ∧
      decode .command ((oneCell 7 1).rx ++ [0x57, 0x30, 0x30, 0x30, 0x37, 0x31, 0x32]) = .ok (.w 7 0x12, []) ∧
      (oneCell 7 1).rx.length + [0x57, 0x30, 0x30, 0x30, 0x37, 0x31, (0x32 : Byte)].length ≤ Config.rxCapacity) ∧
    (({ oneCell 7 1 with cs := .exec .w, opA := some 7, opV := some 0x12 } : State).opV = some 0x12) ∧
    Config.cell 7 = some 7 ∧ 66 ≤ 66 ∧ 70 ≤ 70 ∧ 8 ≠ 7 :=
  ⟨fun _ => rfl, rxCapacity_ge, by decide, by decide, by decide, ⟨rfl, by decide, Nat.le_trans (by decide) rxCapacity_ge⟩, rfl,
    by decide, by decide, by decide, by decide⟩
/-- A run that is over with a silent move still to come, and an idle block with a byte of output pending. -/
theorem witness_QuiescentStaysQuiescent :
    (∃ s1 w, (quietly { State.reset with tx := [] }).quiescent ∧
      (quietly { State.reset with tx := [] }).environment = .go s1 w) ∧
    (({ oneCell 7 1 with tx := [0x41] } : State).cs = .idle ∧ ({ oneCell 7 1 with tx := [0x41] } : State).rx = [] ∧
      ({ oneCell 7 1 with tx := [0x41] } : State).script = [] ∧
      ({ oneCell 7 1 with tx := [0x41] } : State).txSent ≤ ({ oneCell 7 1 with tx := [0x41] } : State).tx.length) :=
  ⟨⟨_, _, ⟨rfl, rfl, rfl, rfl, rfl⟩, rfl⟩, rfl, rfl, rfl, Nat.zero_le _⟩

end Sys2Proof.Tests
end

section
/-!
PROOFS. Operands as the machine reads them (30_encoding.md R94): the digit bytes as base-16 digits of a number, and what
`ReadHex` answers once all its bytes are in RX.
-/
namespace Sys2Proof.Proofs

open Sys2Proof Sys2Proof.Machine

/-! ## The value of digit bytes -/

/-- The base-16 digits that digit bytes stand for, least significant first as `Nat.ofDigits` takes them; the bytes arrive
most significant first (R94). -/
def hexDigitsOf (ds : List Byte) : List Nat := ds.reverse.map fun c => (hexval c).toNat

@[simp] theorem hexDigitsOf_append_singleton (ds : List Byte) (c : Byte) :
    hexDigitsOf (ds ++ [c]) = (hexval c).toNat :: hexDigitsOf ds := by
  simp [hexDigitsOf]

@[simp] theorem length_hexDigitsOf (ds : List Byte) : (hexDigitsOf ds).length = ds.length := by
  simp [hexDigitsOf]

theorem lt_of_mem_hexDigitsOf {ds : List Byte} {n : Nat} (h : n ∈ hexDigitsOf ds) : n < 16 := by
  obtain ⟨c, -, rfl⟩ := List.mem_map.mp h
  exact (hexval c).isLt

theorem toNat_hexPush (v : Word) (c : Byte) :
    (hexPush v c).toNat = (v.toNat * 16 + (hexval c).toNat) % 2 ^ 16 := by
  simp [hexPush]

theorem hexFold_append_singleton (ds : List Byte) (c : Byte) : hexFold (ds ++ [c]) = hexPush (hexFold ds) c := by
  simp [hexFold]

/-- Any number of digits fold up to their positional value, cut to the 16 bits of a word. -/
theorem toNat_hexFold (ds : List Byte) : (hexFold ds).toNat = Nat.ofDigits 16 (hexDigitsOf ds) % 2 ^ 16 := by
  induction ds using List.reverseRecOn with
  | nil => rfl
  | append_singleton ds c ih =>
    rw [hexFold_append_singleton, toNat_hexPush, ih, hexDigitsOf_append_singleton, Nat.ofDigits_cons]
    omega

/-- Four digits fit in a word: nothing is cut off. -/
theorem toNat_hexFold_of_length_le {ds : List Byte} (h : ds.length ≤ 4) :
    (hexFold ds).toNat = Nat.ofDigits 16 (hexDigitsOf ds) := by
  have hlt : Nat.ofDigits 16 (hexDigitsOf ds) < 2 ^ 16 :=
    calc Nat.ofDigits 16 (hexDigitsOf ds)
      _ < 16 ^ (hexDigitsOf ds).length := Nat.ofDigits_lt_base_pow_length (by decide) fun _ => lt_of_mem_hexDigitsOf
      _ ≤ 16 ^ 4 := Nat.pow_le_pow_right (by decide) (by rwa [length_hexDigitsOf])
  rw [toNat_hexFold, Nat.mod_eq_of_lt hlt]

/-! ## `ReadHex` with all its bytes in RX -/

/-- The operand is complete, its bytes are taken whatever they are, and every later byte stays (R94, R181). -/
theorem readHex_of_rx_eq_append {s : State} {ds rest : List Byte} (h : s.rx = ds ++ rest) :
    s.readHex ds.length 0 = (0, hexFold ds, { s with rx := rest }) := by
  simp [State.readHex_eq, h, hexFold]

/-- Settles O4: RX begins with the digit bytes, `ReadHex` folds up exactly these, and at most four of them fit in a word. -/
theorem operandValueAndBytesTaken : Obligations.OperandValueAndBytesTaken := by
  unfold Obligations.OperandValueAndBytesTaken
  constructor
  · intro s d3 d2 d1 d0 rest hrx
    have hdigits : hexDigitsOf [d3, d2, d1, d0] =
        [(hexval d0).toNat, (hexval d1).toNat, (hexval d2).toNat, (hexval d3).toNat] := rfl
    refine ⟨hexFold [d3, d2, d1, d0], readHex_of_rx_eq_append (ds := [d3, d2, d1, d0]) hrx, ?_⟩
    rw [toNat_hexFold_of_length_le (by simp), hdigits]
    simp only [Nat.ofDigits_cons, Nat.ofDigits_nil]
    omega
  · intro s d1 d0 rest hrx
    have hdigits : hexDigitsOf [d1, d0] = [(hexval d0).toNat, (hexval d1).toNat] := rfl
    refine ⟨hexFold [d1, d0], readHex_of_rx_eq_append (ds := [d1, d0]) hrx, ?_⟩
    rw [toNat_hexFold_of_length_le (by simp), hdigits]
    simp only [Nat.ofDigits_cons, Nat.ofDigits_nil]
    omega

end Sys2Proof.Proofs
end

section
/-!
PROOFS. The shift chain under `ShiftByte` (40_address_mux.md R121): where its bits go, and how many SCK pulses it issues.
-/
namespace Sys2Proof.Proofs

open Sys2Proof Sys2Proof.Machine

/-- `ShiftByte` asks nothing of the state and answers with its net effect on the pins (R121). -/
theorem exec_shiftByte (v : Byte) (s : State) : exec (.shiftByte v) s = .next (s.shiftByte v) := rfl

@[simp] theorem length_bitsMsbFirst (v : Byte) : (bitsMsbFirst v).length = 8 := rfl

theorem shiftBitsEvents_cons (b : Bool) (bits : List Bool) :
    shiftBitsEvents (b :: bits) = shiftBitEvents b ++ shiftBitsEvents bits :=
  List.flatMap_cons

/-- One bit, one pulse, whichever level SER shows (R120). -/
theorem count_sck_shiftBitEvents (b : Bool) : (shiftBitEvents b).count (.sck true) = 1 := by
  simp [shiftBitEvents]

/-- SCK rises once per bit shifted, whatever the bits are. -/
theorem count_sck_shiftBitsEvents (bits : List Bool) :
    (shiftBitsEvents bits).count (.sck true) = bits.length := by
  induction bits with
  | nil => rfl
  | cons b bits ih =>
    rw [shiftBitsEvents_cons, List.count_append, count_sck_shiftBitEvents, ih, List.length_cons, Nat.add_comm]

/-- Settles O8: the net effect is that of eight shifts of the chain, and the byte's eight bits cost one pulse each. -/
theorem shiftByteMovesEightBits : Obligations.ShiftByteMovesEightBits := by
  unfold Obligations.ShiftByteMovesEightBits
  refine ⟨fun s v hsck => ?_, fun s v => ?_, fun v => ?_⟩
  · rw [exec_shiftByte, State.shiftByte_eq hsck]
  · rw [exec_shiftByte, State.shiftByte]
  · rw [count_sck_shiftBitsEvents, length_bitsMsbFirst]

end Sys2Proof.Proofs
end

section
/-!
PROOFS. The byte that is no command (60_exceptions.md R252): the decoder reads it as RESYNC, the thread runs what the decoder
reads at CS = IDLE, and RESYNC raises UnknownCommand.
-/
namespace Sys2Proof.Proofs

open Sys2Proof Sys2Proof.Machine

/-- No command is selected exactly by a byte that is none of the four command characters (30_encoding.md R92). -/
theorem ofByte_eq_none_iff {c : Byte} : Cmd.ofByte c = none ↔ ∀ k : Cmd, c ≠ k.byte := by
  simp only [Option.eq_none_iff_forall_ne_some, ne_eq, Cmd.ofByte_eq_some]

/-- Any other byte is a RESYNC of its own, whatever stands behind it (R96, R101). -/
theorem decode_command_of_ofByte_eq_none {c : Byte} (h : Cmd.ofByte c = none) (rest : List Byte) :
    decode .command (c :: rest) = .ok (.resync c, rest) := by
  simp only [decode, h]

/-- At CS = IDLE the thread runs the command that the decoder reads, its bytes taken off RX (R182). -/
theorem thread_of_decode_command {s : State} {i : Instr} {rest : List Byte} (hcs : s.cs = .idle)
    (hd : decode .command s.rx = .ok (i, rest)) : s.thread = exec i { s with rx := rest } := by
  simp only [State.thread, State.fetch, hcs, hd]

/-- RESYNC raises UnknownCommand, which empties RX and sets CS to IDLE; it asks nothing of the state (R187, R252). -/
theorem exec_resync (c : Byte) (s : State) : exec (.resync c) s = .next { s with rx := [], cs := .idle } := rfl

/-- Settles O30: the byte decodes to RESYNC, and RESYNC drops whatever its own pop left in RX. -/
theorem unknownByteDrainsInput : Obligations.UnknownByteDrainsInput := by
  unfold Obligations.UnknownByteDrainsInput
  refine ⟨fun s c => exec_resync c s, fun s c rest hcs hrx hR hW hD hP => ?_⟩
  have hnone : Cmd.ofByte c = none := by
    rw [ofByte_eq_none_iff]
    intro k
    cases k with
    | r => exact hR
    | w => exact hW
    | d => exact hD
    | p => exact hP
  have hdecode : decode .command s.rx = .ok (.resync c, rest) := by
    rw [hrx, decode_command_of_ofByte_eq_none hnone]
  rw [thread_of_decode_command hcs hdecode, exec_resync]

end Sys2Proof.Proofs
end

section
/-!
PROOFS. The serial encoding (30_encoding.md sections 2 to 5): the value of a digit byte, digits written and read back, and how
many bytes a command takes.
-/
namespace Sys2Proof.Proofs

open Sys2Proof Sys2Proof.Machine

/-! ## Digit bytes -/

/-- Settles O3: the three ranges of `hexDigit?` exclude each other, and below sixteen nothing is cut off. -/
theorem hexDigitValues : Obligations.HexDigitValues := by
  unfold Obligations.HexDigitValues
  intro c
  simp only [hexval, hexDigit?, BitVec.le_def, BitVec.reduceToNat]
  refine ⟨fun h1 h2 => ?digit, fun h1 h2 => ?upper, fun h1 h2 => ?lower, fun hd hu hl => ?other⟩
  case digit =>
    rw [if_pos ⟨h1, h2⟩]
    simp
    omega
  case upper =>
    rw [if_neg (by omega), if_pos ⟨h1, h2⟩]
    simp
    omega
  case lower =>
    rw [if_neg (by omega), if_neg (by omega), if_pos ⟨h1, h2⟩]
    cases Config.hexLower
    · rfl
    · simp
      omega
  case other => rw [if_neg hd, if_neg hu, if_neg hl, Option.getD_none]

/-- The host's digit of a nibble is read as that nibble (R93, R104). -/
@[simp] theorem hexval_hexUpper (n : BitVec 4) : hexval (hexUpper n) = n := by
  revert n
  decide

/-- An address written in four digits is read back (R94). -/
@[simp] theorem hexFold_nibbles16 (a : Word) : hexFold ((nibbles16 a).map hexUpper) = a := by
  apply BitVec.eq_of_toNat_eq
  have ha := a.isLt
  rw [toNat_hexFold_of_length_le (by simp [nibbles16])]
  simp [nibbles16, hexDigitsOf, Nat.ofDigits_cons, Nat.shiftRight_eq_div_pow]
  omega

/-- A byte written in two digits is read back (R94). -/
@[simp] theorem hexFold8_nibbles8 (v : Byte) : hexFold8 ((nibbles8 v).map hexUpper) = v := by
  apply BitVec.eq_of_toNat_eq
  have hv := v.isLt
  rw [hexFold8, BitVec.toNat_setWidth, toNat_hexFold_of_length_le (by simp [nibbles8])]
  simp [nibbles8, hexDigitsOf, Nat.ofDigits_cons, Nat.shiftRight_eq_div_pow]
  omega

@[simp] theorem length_nibbles16_map (a : Word) : ((nibbles16 a).map hexUpper).length = 4 := rfl

/-! ## Commands in RX -/

/-- A command character with its digits behind it is that command with these digits (R91, R96). -/
theorem decode_command_of_digits {k : Cmd} {ds : List Byte} (rest : List Byte) (h : ds.length = k.digits) :
    decode .command (k.byte :: (ds ++ rest)) = .ok (k.assemble ds, rest) := by
  have hk : Cmd.ofByte k.byte = some k := Cmd.ofByte_eq_some.2 rfl
  have hle : k.digits ≤ (ds ++ rest).length := by simp [h]
  simp only [decode, hk, if_pos hle, List.take_left' h, List.drop_left' h]

/-- A command character whose digits are not all there waits (R96). -/
theorem decode_command_of_short {k : Cmd} {rest : List Byte} (h : rest.length < k.digits) :
    decode .command (k.byte :: rest) = .error (.truncated k (k.digits - rest.length)) := by
  have hk : Cmd.ofByte k.byte = some k := Cmd.ofByte_eq_some.2 rfl
  simp only [decode, hk, if_neg (Nat.not_le.2 h)]

/-- Settles O1: the decoder finds the command character and as many digits as the encoder wrote, and the digits give the
operands back. -/
theorem decodeEncodeRoundTrip : Obligations.DecodeEncodeRoundTrip := by
  unfold Obligations.DecodeEncodeRoundTrip
  intro i m rest hwf hm
  cases i with
  | r a =>
    cases hm
    have h := decode_command_of_digits (k := .r) rest (length_nibbles16_map a)
    rwa [Cmd.assemble, hexFold_nibbles16] at h
  | w a v =>
    cases hm
    have h := decode_command_of_digits (k := .w) (ds := (nibbles16 a).map hexUpper ++ (nibbles8 v).map hexUpper) rest rfl
    rwa [Cmd.assemble, List.take_left' (length_nibbles16_map a), List.drop_left' (length_nibbles16_map a),
      hexFold_nibbles16, hexFold8_nibbles8] at h
  | d a l =>
    cases hm
    have h := decode_command_of_digits (k := .d) (ds := (nibbles16 a).map hexUpper ++ (nibbles16 l).map hexUpper) rest rfl
    rwa [Cmd.assemble, List.take_left' (length_nibbles16_map a), List.drop_left' (length_nibbles16_map a),
      hexFold_nibbles16, hexFold_nibbles16] at h
  | p a =>
    cases hm
    have h := decode_command_of_digits (k := .p) rest (length_nibbles16_map a)
    rwa [Cmd.assemble, hexFold_nibbles16] at h
  | resync c =>
    cases hm
    exact decode_command_of_ofByte_eq_none (Option.isNone_iff_eq_none.1 hwf) rest
  | chunk bs =>
    cases hm
    have hlen : bs.length = 16 := eq_of_beq hwf
    have h := decode_bulk_of_length (bs := bs ++ rest) (by simp [hlen])
    rwa [List.take_left' hlen, List.drop_left' hlen] at h
  | _ => cases hm

@[simp] theorem commandLength_byte (k : Cmd) : commandLength k.byte = 1 + k.digits := by
  rw [commandLength, Cmd.ofByte_eq_some.2 rfl]

theorem commandLength_of_ofByte_eq_none {c : Byte} (h : Cmd.ofByte c = none) : commandLength c = 1 := by
  rw [commandLength, h]

/-- What the decoder assembles is one of the spec's instructions, whatever the digits are (R101). -/
theorem assemble_wf (k : Cmd) (ds : List Byte) : (k.assemble ds).wf = true := by
  cases k <;> rfl

/-- Settles O2: a first byte is a command character, which takes its digits, or any other byte, which stands alone. -/
theorem commandLengthByFirstByte : Obligations.CommandLengthByFirstByte := by
  unfold Obligations.CommandLengthByFirstByte
  refine ⟨rfl, rfl, rfl, rfl, fun c hR hP hW hD => ?single, fun c rest => ?front,
    fun k ds rest h => decode_command_of_digits rest h⟩
  case single =>
    refine commandLength_of_ofByte_eq_none (ofByte_eq_none_iff.2 fun k => ?_)
    cases k with
    | r => exact hR
    | w => exact hW
    | d => exact hD
    | p => exact hP
  case front =>
    cases hc : Cmd.ofByte c with
    | none =>
      rw [commandLength_of_ofByte_eq_none hc]
      refine ⟨fun _ => ⟨.resync c, ?_, decode_command_of_ofByte_eq_none hc rest⟩, fun h => absurd h (by omega)⟩
      simp [Instr.wf, hc]
    | some k =>
      obtain rfl := Cmd.ofByte_eq_some.1 hc
      rw [commandLength_byte, Nat.add_sub_cancel_left]
      refine ⟨fun h => ⟨k.assemble (rest.take k.digits), assemble_wf k _, ?_⟩, fun h => ⟨k, ?_⟩⟩
      · have hlen : (rest.take k.digits).length = k.digits := by rw [List.length_take]; omega
        have h := decode_command_of_digits (rest.drop k.digits) hlen
        rwa [List.take_append_drop] at h
      · rw [decode_command_of_short (by omega)]
        congr 2
        omega

/-! ## The dump length and sample words -/

/-- Settles O5. -/
theorem dumpCountOfLength : Obligations.DumpCountOfLength := by
  unfold Obligations.DumpCountOfLength
  intro len
  have hlt := len.isLt
  by_cases h : len = 0
  · subst h
    decide
  · have hpos : len.toNat ≠ 0 := fun h0 => h (BitVec.eq_of_toNat_eq h0)
    simp only [dumpCount, if_neg h]
    exact ⟨trivial, by omega, by omega⟩

/-- Settles O6: each word is a first byte with all its digits, or sixteen bytes of a chunk. -/
theorem sampleWordsDecode : Obligations.SampleWordsDecode := by
  unfold Obligations.SampleWordsDecode
  decide

end Sys2Proof.Proofs
end

section
/-!
PROOFS. The address multiplexer and the data bus (40_address_mux.md, 41_data_bus.md), line write by line write: the net effect
of each operation, and what its lines do on the way.
-/
namespace Sys2Proof.Proofs

open Sys2Proof Sys2Proof.Machine

/-! ## The operations as changes of the state -/

theorem exec_shiftBit (b : Bool) (s : State) : exec (.shiftBit b) s = .next (s.shiftBit b) := rfl

theorem exec_setAddress (a : Word) (s : State) : exec (.setAddress a) s = .next (s.setAddress a) := rfl

theorem exec_setBusDir (d : Dir) (s : State) : exec (.setBusDir d) s = .next (s.setBusDir d) := rfl

theorem exec_readByte (s : State) :
    exec .readByte s = andThen (readByte s) fun r => .next { r.2 with ret := some (r.1.setWidth 16) } := rfl

theorem exec_writeByte (v : Byte) (s : State) : exec (.writeByte v) s = writeByte v s := rfl

theorem exec_pulseWE (s : State) : exec .pulseWE s = pulseWE s := rfl

/-- W_BUSY is false exactly when the countdown of the write cycle is over (R41). -/
theorem wBusy_eq_false_iff {s : State} : s.wBusy = false ↔ s.busyUs = 0 := by
  simp [State.wBusy]

theorem wBusy_eq_true_iff {s : State} : s.wBusy = true ↔ s.busyUs ≠ 0 := by
  simp [State.wBusy]

/-! ## The address multiplexer -/

/-- Settles O7: SER is set while SCK stands, so only a rising edge of SCK from low takes the new bit in. -/
theorem shiftBitMovesTheChain : Obligations.ShiftBitMovesTheChain := by
  unfold Obligations.ShiftBitMovesTheChain
  intro s b
  rw [exec_shiftBit]
  cases h : s.sck with
  | false => rw [State.shiftBit_eq h]; rfl
  | true => simp [State.shiftBit, shiftBitEvents, State.pin, h]

/-- Settles O9: the net effect of the frame, whatever ADDRMUX held; the frame's length does not depend on the address. -/
theorem setAddressPresentsAddress : Obligations.SetAddressPresentsAddress := by
  unfold Obligations.SetAddressPresentsAddress
  intro s a hsck
  refine ⟨?_, rfl, rfl⟩
  rw [exec_setAddress, State.setAddress_eq hsck, State.pointedAt]

/-- The bits of a shift frame, shifted in, give the address back (R66). -/
theorem decodePins_shiftFrame (a : Word) : decodePins (shiftFrame a) = a :=
  calc decodePins (shiftFrame a)
    _ = (shiftFrame a).foldl shiftIn 0 := rfl
    _ = (((0 : Word) <<< 8 ||| (hiByte a).setWidth 16) <<< 8) ||| (loByte a).setWidth 16 := by
      rw [shiftFrame, List.foldl_append, foldl_shiftIn_byte, foldl_shiftIn_byte]
    _ = a := hiByte_loByte 0 a

/-- The two bytes of a frame are the address's bits in descending order (R99). -/
theorem shiftFrame_eq (a : Word) : shiftFrame a = (List.range 16).map fun k => a.getLsbD (15 - k) := by
  simp [shiftFrame, bitsMsbFirst, hiByte, loByte, List.range, List.range.loop]

theorem setAddressEvents_eq (a : Word) :
    setAddressEvents a = .rck false :: (shiftBitsEvents (shiftFrame a) ++ [.rck true]) := by
  simp [setAddressEvents, shiftBitsEvents, shiftFrame]

/-- Settles O10: the frame is the address's bits from a15 to a0, and these bits shift the address in. -/
theorem shiftFrameOrder : Obligations.ShiftFrameOrder := by
  unfold Obligations.ShiftFrameOrder
  refine fun a => ⟨?_, decodePins_shiftFrame a⟩
  rw [setAddressEvents_eq, shiftFrame_eq, shiftBitsEvents, List.flatMap_map]
  rfl

/-! ## The states inside an operation -/

theorem pinTrace_append (s : State) (es fs : List PinEvent) :
    s.pinTrace (es ++ fs) = s.pinTrace es ++ (s.pins es).pinTrace fs := by
  induction es generalizing s with
  | nil => rfl
  | cons e es ih => simp [State.pinTrace, ih]

/-- What each event of a list keeps is the same in every state on the way. -/
theorem of_mem_pinTrace {α : Type} {f : State → α} {es : List PinEvent}
    (hf : ∀ e ∈ es, ∀ s : State, f (s.pin e) = f s) {s u : State} (hu : u ∈ s.pinTrace es) : f u = f s := by
  induction es generalizing s with
  | nil => cases hu
  | cons e es ih =>
    have he := hf e (List.mem_cons_self ..) s
    rcases List.mem_cons.1 hu with rfl | hu
    · exact he
    · rw [ih (fun x hx => hf x (List.mem_cons_of_mem e hx)) hu, he]

/-- SER and SCK are the only lines written between the two edges of RCK (R99). -/
theorem mem_shiftBitsEvents {bits : List Bool} {e : PinEvent} (h : e ∈ shiftBitsEvents bits) :
    (∃ b, e = .ser b) ∨ ∃ b, e = .sck b := by
  obtain ⟨b, -, hb⟩ := List.mem_flatMap.1 h
  simp only [shiftBitEvents, List.mem_cons, List.not_mem_nil, or_false] at hb
  rcases hb with rfl | rfl | rfl
  · exact .inl ⟨b, rfl⟩
  · exact .inr ⟨true, rfl⟩
  · exact .inr ⟨false, rfl⟩

/-- Until RCK rises no event of a frame reaches the address latch (R123). -/
theorem pin_al_of_mem_frame {bits : List Bool} {e : PinEvent} (h : e ∈ .rck false :: shiftBitsEvents bits) (s : State) :
    (s.pin e).al = s.al := by
  rcases List.mem_cons.1 h with rfl | h
  · simp [State.pin]
  · rcases mem_shiftBitsEvents h with ⟨b, rfl⟩ | ⟨b, rfl⟩ <;> rfl

/-- Events on the chain's lines leave the write-enable line, the data lines and the cells. -/
theorem pin_isChain_frame {e : PinEvent} (h : e.isChain = true) (s : State) :
    ((s.pin e).weN, (s.pin e).dir, (s.pin e).dout, (s.pin e).mem) = (s.weN, s.dir, s.dout, s.mem) := by
  cases e with
  | ser b => rfl
  | sck b => rfl
  | rck b => rfl
  | _ => cases h

/-- Settles O11: AL is written by the rising edge of RCK alone, the last event of the frame. -/
theorem addressLatchHoldsWhileShifting : Obligations.AddressLatchHoldsWhileShifting := by
  unfold Obligations.AddressLatchHoldsWhileShifting
  intro s a hsck
  have hsplit : setAddressEvents a = (.rck false :: shiftBitsEvents (shiftFrame a)) ++ [.rck true] :=
    setAddressEvents_eq a
  have htrace : s.pinTrace (setAddressEvents a) =
      s.pinTrace (.rck false :: shiftBitsEvents (shiftFrame a)) ++ [s.setAddress a] := by
    rw [State.setAddress, hsplit, pinTrace_append, State.pins_append]
    rfl
  refine ⟨fun u hu => ?before, fun u hu => ?last, fun u hu => ?frame⟩
  case before =>
    rw [htrace, List.dropLast_concat] at hu
    exact of_mem_pinTrace (f := State.al) (fun e he => pin_al_of_mem_frame he) hu
  case last =>
    rw [htrace, List.getLast?_concat] at hu
    cases hu
    rw [State.setAddress_eq hsck, State.pointedAt_al]
  case frame =>
    have h := of_mem_pinTrace (f := fun u => (u.weN, u.dir, u.dout, u.mem))
      (fun e he => pin_isChain_frame (setAddressEvents_chain a e he)) hu
    simpa using h

/-! ## The data bus -/

/-- Settles O13. -/
theorem setBusDirSetsAllLines : Obligations.SetBusDirSetsAllLines := by
  unfold Obligations.SetBusDirSetsAllLines
  intro s
  rw [exec_setBusDir, exec_setBusDir, State.setBusDir_inp, State.setBusDir_out]
  exact ⟨rfl, rfl⟩

/-- The refusal of a sample against the bus direction (R141, D8). -/
theorem readByte_dir {s : State} (h : s.dir ≠ 0x00) : readByte s = .refused .busDirection := by
  rw [readByte, if_pos h]

/-- The refusal of a sample during a write cycle (R164, U5). -/
theorem readByte_busy {s : State} (hd : s.dir = 0x00) (hb : s.wBusy = true) : readByte s = .refused .chipBusy := by
  rw [readByte, if_neg (not_not.2 hd), if_pos hb]

theorem readAt_of_cell {m : Memory} {a : Word} {c : Nat} (h : Config.cell a = some c) (draw : Byte) :
    Memory.readAt m a draw = Memory.cell m c := by
  simp [Memory.readAt, h]

/-- The draw counter moves only at a read that selects no cell (R65). -/
theorem add_drawsOf (n : Nat) (a : Word) : n + drawsOf a = if (Config.cell a).isSome then n else n + 1 := by
  unfold drawsOf
  split <;> rfl

/-- Settles O14. -/
theorem readByteSamplesTheChip : Obligations.ReadByteSamplesTheChip := by
  unfold Obligations.ReadByteSamplesTheChip
  refine fun s => ⟨fun hd hb => ?_, fun hd => ?_, fun hd hb => ?_⟩
  · refine ⟨Memory.readAt s.mem s.al (Config.freeByte s.draws), fun c hc => readAt_of_cell hc _, ?_⟩
    rw [exec_readByte, readByte_eq hd (wBusy_eq_false_iff.1 hb), andThen_next, add_drawsOf]
  · rw [exec_readByte, readByte_dir hd, andThen_refused]
  · rw [exec_readByte, readByte_busy hd hb, andThen_refused]

/-- Settles O15. -/
theorem writeByteDrivesTheLines : Obligations.WriteByteDrivesTheLines := by
  unfold Obligations.WriteByteDrivesTheLines
  refine fun s v => ⟨fun hd => ⟨?_, State.busLevel_out hd⟩, fun hd => ?_⟩
  · rw [exec_writeByte, writeByte_eq v hd]
  · rw [exec_writeByte, writeByte, if_pos hd]

theorem getLsbD_allOnes8 {i : Nat} (hi : i < 8) : (0xFF : Byte).getLsbD i = true := by
  interval_cases i <;> rfl

/-- Settles O16: with every line OUT the masks of the general formula let DOUT through alone. -/
theorem lineLevelByDirection : Obligations.LineLevelByDirection := by
  unfold Obligations.LineLevelByDirection
  intro s i hi
  by_cases hd : s.dir = 0xFF
  · rw [State.busLevel_out hd, hd, getLsbD_allOnes8 hi, if_pos rfl]
  · rw [State.busLevel, if_neg hd]
    simp only [BitVec.getLsbD_or, BitVec.getLsbD_and, BitVec.getLsbD_not, hi, decide_true, Bool.true_and]
    cases s.dir.getLsbD i <;> simp

/-- Settles O17. -/
theorem pulseWEWritesTheSelectedCell : Obligations.PulseWEWritesTheSelectedCell := by
  unfold Obligations.PulseWEWritesTheSelectedCell
  refine fun s => ⟨fun hd hb => ?_, fun hd => ?_, fun hd hb => ?_⟩
  · refine ⟨_, (exec_pulseWE s).trans (pulseWE_eq hd (wBusy_eq_false_iff.1 hb)), rfl, ?_, fun d => ?_⟩
    · cases Config.cell s.al <;> simp [State.wBusy]
    · exact Memory.cell_writeAt s.mem s.al s.dout d
  · rw [exec_pulseWE, pulseWE, if_pos hd]
  · rw [exec_pulseWE, pulseWE, if_neg (not_not.2 hd), if_pos hb]

end Sys2Proof.Proofs
end

section
/-!
PROOFS. What each operation of the block can answer, from any state: one lemma per operation, which says the whole next state.
Claims about all operations are case splits over these.
-/
namespace Sys2Proof.Proofs

open Sys2Proof Sys2Proof.Machine

/-! ## Operations that answer from every state -/

theorem exec_p (a : Word) (s : State) : exec (.p a) s = .next { s with opA := some a, cs := .bpInit } := rfl

theorem exec_ack (s : State) :
    exec .ack s = .next { s with tx := s.tx ++ [Config.ackByte], txSent := (s.tx ++ [Config.ackByte]).length } := rfl

theorem exec_bpAck (s : State) :
    exec .bpAck s = .next { s with
      tx := s.tx ++ [Config.ackByte], txSent := (s.tx ++ [Config.ackByte]).length, cs := .bpAdvance } := rfl

/-- The state a session leaves behind once `text` has been sent (R46, R216, R217). -/
def sessionEnded (s : State) (text : List Byte) : State :=
  { s with
    tx := s.tx ++ text, start := none, maxb := none, cursor := none, idx := none, t0 := none
    inWait := false, opA := none, opV := none, opL := none, cs := .idle }

theorem complete_eq (s : State) : s.complete = sessionEnded s Config.texts.done := rfl

theorem raise_chunkTimeout_eq (s : State) : s.raise .chunkTimeout = sessionEnded s Config.texts.timeout := rfl

theorem exec_bpComplete (s : State) : exec .bpComplete s = .next (sessionEnded s Config.texts.done) := rfl

theorem exec_bpTimeout (s : State) : exec .bpTimeout s = .next (sessionEnded s Config.texts.timeout) := rfl

/-! ## The operand readers -/

theorem exec_readHexDigit_cons {s : State} {c : Byte} {rest : List Byte} (h : s.rx = c :: rest) :
    exec .readHexDigit s = .next { s with rx := rest, ret := some ((hexval c).setWidth 16) } := by
  simp only [exec, execReadHexDigit, State.readHexDigit_cons h]

theorem exec_readHexDigit_nil {s : State} (h : s.rx = []) : exec .readHexDigit s = .next s.sleep := by
  simp only [exec, execReadHexDigit, State.readHexDigit_nil h]

/-- Where `ReadHex(n)` goes on: the digits still to read and the value so far (R181, log 25). -/
def readingOf (s : State) (n : Nat) : Nat × Word := s.reading.getD (n, 0)

/-- All digits still to read are there. -/
theorem exec_readHex_of_le {s : State} {n k : Nat} {v : Word} (hr : readingOf s n = (k, v)) (h : k ≤ s.rx.length) :
    exec (.readHex n) s = .next { s with
      rx := s.rx.drop k, reading := none, ret := some ((s.rx.take k).foldl hexPush v) } := by
  have hk : k - s.rx.length = 0 := Nat.sub_eq_zero_of_le h
  rw [readingOf] at hr
  simp only [exec, execReadHex, State.readHex_eq, hr, hk]

/-- A digit still to read has not come. -/
theorem exec_readHex_of_lt {s : State} {n k : Nat} {v : Word} (hr : readingOf s n = (k, v)) (h : s.rx.length < k) :
    exec (.readHex n) s = .next { s.sleep with
      rx := [], reading := some (k - s.rx.length, s.rx.foldl hexPush v) } := by
  obtain ⟨m, hm⟩ : ∃ m, k - s.rx.length = m + 1 := ⟨k - s.rx.length - 1, by omega⟩
  rw [readingOf] at hr
  simp only [exec, execReadHex, State.readHex_eq, hr, hm, List.take_of_length_le (Nat.le_of_lt h),
    List.drop_of_length_le (Nat.le_of_lt h)]
  rfl

/-- `ReadHexDigit` takes a byte or time, and no more (R180). -/
theorem exec_readHexDigit_next {s t : State} (h : exec .readHexDigit s = .next t) :
    (∃ c rest, s.rx = c :: rest ∧ t = { s with rx := rest, ret := some ((hexval c).setWidth 16) }) ∨ t = s.sleep := by
  cases hr : s.rx with
  | nil =>
    rw [exec_readHexDigit_nil hr] at h
    exact .inr (Host.Outcome.next.inj h).symm
  | cons c rest =>
    rw [exec_readHexDigit_cons hr] at h
    exact .inl ⟨c, rest, rfl, (Host.Outcome.next.inj h).symm⟩

/-- `ReadHex` takes bytes, and time if one is missing (R181). -/
theorem exec_readHex_next {s t : State} {n : Nat} (h : exec (.readHex n) s = .next t) :
    (∃ k v, t = { s with rx := s.rx.drop k, reading := none, ret := some v }) ∨
      ∃ q, t = { s.sleep with rx := [], reading := some q } := by
  rcases Nat.lt_or_ge s.rx.length (readingOf s n).1 with hlt | hle
  · rw [exec_readHex_of_lt rfl hlt] at h
    exact .inr ⟨_, (Host.Outcome.next.inj h).symm⟩
  · rw [exec_readHex_of_le rfl hle] at h
    exact .inl ⟨_, _, (Host.Outcome.next.inj h).symm⟩

/-! ## Reads and writes of cells -/

theorem exec_readEEPROM (a : Word) (s : State) :
    exec (.readEEPROM a) s = andThen (readEEPROM a s) fun r => .next { r.2 with ret := some (r.1.setWidth 16) } := rfl

theorem exec_writeEEPROM (a : Word) (v : Byte) (s : State) : exec (.writeEEPROM a v) s = writeEEPROM a v s := rfl

theorem exec_readByte_next {s t : State} (h : exec .readByte s = .next t) :
    ∃ (v : Byte) (n : Nat), t = { s with ret := some (v.setWidth 16), draws := n } := by
  obtain ⟨⟨v, u⟩, hu, h⟩ := andThen_eq_next h
  obtain ⟨-, -, -, rfl⟩ := readByte_next hu
  cases h
  exact ⟨_, _, rfl⟩

theorem exec_writeByte_next {s t : State} {v : Byte} (h : exec (.writeByte v) s = .next t) :
    s.dir = 0xFF ∧ t = { s with dout := v } := by
  rw [exec_writeByte] at h
  by_cases hd : s.dir = 0xFF
  · rw [writeByte_eq v hd] at h
    cases h
    exact ⟨hd, rfl⟩
  · rw [writeByte, if_pos hd] at h
    cases h

theorem exec_readEEPROM_next {s t : State} {a : Word} (h : exec (.readEEPROM a) s = .next t) :
    ∃ (c : State) (v : Byte) (n : Nat),
      t = { s.withChain c with dir := 0x00, draws := n, ret := some (v.setWidth 16) } := by
  obtain ⟨⟨v, u⟩, hu, h⟩ := andThen_eq_next h
  obtain ⟨-, c, hc, -⟩ := readEEPROM_next hu
  cases h
  refine ⟨c, v, u.draws, ?_⟩
  generalize u.draws = n at hc ⊢
  rw [hc]

theorem exec_r_next {s t : State} {a : Word} (h : exec (.r a) s = .next t) :
    ∃ (c : State) (v : Byte) (n : Nat), t = { s.withChain c with
      dir := 0x00, draws := n, tx := s.tx ++ readResponse a v, opA := none, opV := none, opL := none, cs := .idle } := by
  obtain ⟨⟨v, u⟩, hu, h⟩ := andThen_eq_next h
  obtain ⟨-, c, hc, -⟩ := readEEPROM_next hu
  cases h
  refine ⟨c, v, u.draws, ?_⟩
  generalize u.draws = n at hc ⊢
  rw [hc]
  rfl

theorem exec_w_next {s t : State} {a : Word} {v : Byte} (h : exec (.w a v) s = .next t) :
    ∃ c : State, t = { s.withChain c with
      dir := 0xFF, dout := v, weN := true, mem := Memory.writeAt s.mem c.al v, busyAt := c.al
      clockUs := s.clockUs + (Config.pulseUs + Config.settleMs * 1000), busyUs := 0
      tx := s.tx ++ wroteResponse a v, opA := none, opV := none, opL := none, cs := .idle } := by
  obtain ⟨u, hu, h⟩ := andThen_eq_next h
  obtain ⟨-, c, rfl⟩ := writeEEPROM_next hu
  cases h
  exact ⟨c, rfl⟩

theorem exec_d_next {s t : State} {a l : Word} (h : exec (.d a l) s = .next t) :
    ∃ (c : State) (dir : Byte) (n : Nat) (text : List Byte), ackCount text = 0 ∧ t = { s.withChain c with
      dir := dir, draws := n, tx := s.tx ++ text, opA := none, opV := none, opL := none, cs := .idle } := by
  obtain ⟨u, hu, h⟩ := andThen_eq_next h
  obtain ⟨c, text, hc⟩ := dumpLines_next hu
  have hack := dumpLines_ackCount hu
  have htx : u.tx = s.tx ++ text := by rw [hc]
  cases h
  refine ⟨c, u.dir, u.draws, text, ?_, ?_⟩
  · rw [htx, ackCount_append] at hack
    exact Nat.add_eq_left.1 hack
  · generalize u.dir = x at hc ⊢
    generalize u.draws = y at hc ⊢
    rw [hc]
    rfl

/-! ## The bytes of a chunk -/

/-- What the writes of a chunk leave alone: everything but the pins, the cells, the clock and IDX (R213). -/
def chunkWritten (s u : State) : State :=
  { s.withChain u with
    dir := u.dir, dout := u.dout, weN := u.weN, mem := u.mem, clockUs := u.clockUs, busyUs := u.busyUs
    busyAt := u.busyAt, idx := none, cs := .bpAck }

theorem exec_chunk_eq {s : State} {cur : Nat} (hc : s.cursor = some cur) (bs : List Byte) :
    exec (.chunk bs) s = andThen (writeCells bs 0 cur s) fun u => .next { u with idx := none, cs := .bpAck } := by
  simp only [exec, execChunk, hc]

theorem exec_chunk_next {s t : State} {bs : List Byte} (h : exec (.chunk bs) s = .next t) :
    ∃ (cur : Nat) (u : State), s.cursor = some cur ∧ writeCells bs 0 cur s = .next u ∧ t = chunkWritten s u ∧
      s.clockUs ≤ u.clockUs := by
  cases hc : s.cursor with
  | none => simp only [exec, execChunk, hc] at h; cases h
  | some cur =>
    rw [exec_chunk_eq hc] at h
    obtain ⟨u, hu, h⟩ := andThen_eq_next h
    obtain ⟨hframe, hclock⟩ := writeCells_next hu
    cases h
    refine ⟨cur, u, rfl, hu, ?_, hclock⟩
    generalize hv : chunkWritten s u = v
    rw [hframe, ← hv]
    rfl

/-- A chunk is popped to its end only if all its bytes are in RX (R13, R213). -/
theorem le_length_of_popAndWriteCells {n k cur : Nat} {s t : State} (h : popAndWriteCells n k cur s = .next t) :
    n ≤ s.rx.length := by
  induction n generalizing k s with
  | zero => exact Nat.zero_le _
  | succ n ih =>
    cases hr : s.rx with
    | nil => simp only [popAndWriteCells, hr] at h; cases h
    | cons b rest =>
      simp only [popAndWriteCells, hr] at h
      obtain ⟨u, hu, h⟩ := andThen_eq_next h
      obtain ⟨-, c, hc⟩ := writeEEPROM_next hu
      have hlen := ih h
      rw [State.delayUs_rx, hc] at hlen
      exact Nat.succ_le_succ hlen

/-- The step of the session and the frame are two readings of one chunk, stops included (R97, R213; log 22, log 29). -/
theorem exec_bpWriteChunk_eq {s : State} (h : 16 ≤ s.rx.length) :
    exec .bpWriteChunk s = exec (.chunk (s.rx.take 16)) { s with rx := s.rx.drop 16 } := by
  cases hc : s.cursor with
  | none => simp only [exec, execBpWriteChunk, execChunk, hc]
  | some cur => simp only [exec, execBpWriteChunk, execChunk, hc, Config.chunkSize, popAndWriteCells_eq h]

theorem exec_bpWriteChunk_next {s t : State} (h : exec .bpWriteChunk s = .next t) :
    16 ≤ s.rx.length ∧ exec (.chunk (s.rx.take 16)) { s with rx := s.rx.drop 16 } = .next t := by
  have hlen : 16 ≤ s.rx.length := by
    cases hc : s.cursor with
    | none => simp only [exec, execBpWriteChunk, hc] at h; cases h
    | some cur =>
      simp only [exec, execBpWriteChunk, hc] at h
      obtain ⟨u, hu, -⟩ := andThen_eq_next h
      exact le_length_of_popAndWriteCells hu
  exact ⟨hlen, exec_bpWriteChunk_eq hlen ▸ h⟩

/-! ## The steps of a session -/

theorem exec_bpInit_of_opA {s : State} {a : Word} (h : s.opA = some a) :
    exec .bpInit s = .next { s with
      start := some a, maxb := some (maxbOf a), cursor := some a.toNat, cs := .bpAwait, inWait := false
      tx := s.tx ++ Config.texts.banner, txSent := (s.tx ++ Config.texts.banner).length } := by
  simp only [exec, execBpInit, h, State.raise, ite_self]
  rfl

theorem exec_bpInit_next {s t : State} (h : exec .bpInit s = .next t) :
    ∃ a : Word, s.opA = some a ∧ t = { s with
      start := some a, maxb := some (maxbOf a), cursor := some a.toNat, cs := .bpAwait, inWait := false
      tx := s.tx ++ Config.texts.banner, txSent := (s.tx ++ Config.texts.banner).length } := by
  obtain ⟨a, ha⟩ : ∃ a, s.opA = some a := by
    cases ha : s.opA with
    | none => simp only [exec, execBpInit, ha] at h; cases h
    | some a => exact ⟨a, rfl⟩
  rw [exec_bpInit_of_opA ha] at h
  cases h
  exact ⟨a, ha, rfl⟩

/-- T0 as a poll finds it: kept while the wait lasts, else the clock (R32, R212). -/
def WaitsSince (s : State) (t0 : Nat) : Prop :=
  (s.inWait = true → s.t0 = some t0) ∧ (s.inWait = false → s.nowMs = t0)

theorem enterWait_eq {s : State} {t0 : Nat} (h : WaitsSince s t0) :
    s.enterWait = { s with t0 := some t0, inWait := true } := by
  obtain ⟨hin, hout⟩ := h
  cases hw : s.inWait with
  | true => simp only [State.enterWait, hw, if_true, ← hin hw]; rw [← hw]
  | false => simp [State.enterWait, hw, hout hw]

/-- Sixteen bytes are in RX: the chunk is next, expired window or not (R212, D12). -/
theorem exec_bpAwaitChunk_chunk {s : State} {t0 : Nat} (hw : WaitsSince s t0) (h : 16 ≤ s.rx.length) :
    exec .bpAwaitChunk s = .next { s with t0 := some t0, inWait := false, cs := .bpWrite } := by
  simp [exec, execBpAwaitChunk, enterWait_eq hw, State.chunkAvailable, h]

/-- The window is over (R212, R217). -/
theorem exec_bpAwaitChunk_timeout {s : State} {t0 : Nat} (hw : WaitsSince s t0) (h : s.rx.length < 16)
    (hx : 60000 < s.nowMs - t0) : exec .bpAwaitChunk s = .next (sessionEnded s Config.texts.timeout) := by
  have hx' : 60000 < s.clockUs / 1000 - t0 := hx
  simp [exec, execBpAwaitChunk, enterWait_eq hw, State.chunkAvailable, h, State.timeoutExpired, State.nowMs, hx',
    raise_chunkTimeout_eq, sessionEnded]

/-- The window is open (R212). -/
theorem exec_bpAwaitChunk_sleep {s : State} {t0 : Nat} (hw : WaitsSince s t0) (h : s.rx.length < 16)
    (hx : s.nowMs - t0 ≤ 60000) :
    exec .bpAwaitChunk s = .next ({ s with t0 := some t0, inWait := true } : State).sleep := by
  have hx' : ¬ 60000 < s.clockUs / 1000 - t0 := Nat.not_lt.2 hx
  simp [exec, execBpAwaitChunk, enterWait_eq hw, State.chunkAvailable, h, State.timeoutExpired, State.nowMs, hx']

/-- The three outcomes of a poll (R212). -/
theorem exec_bpAwaitChunk_next {s t : State} (h : exec .bpAwaitChunk s = .next t) :
    ∃ t0, WaitsSince s t0 ∧
      (16 ≤ s.rx.length ∧ t = { s with t0 := some t0, inWait := false, cs := .bpWrite } ∨
        s.rx.length < 16 ∧ t = sessionEnded s Config.texts.timeout ∨
        s.rx.length < 16 ∧ t = ({ s with t0 := some t0, inWait := true } : State).sleep) := by
  obtain ⟨t0, hw⟩ : ∃ t0, WaitsSince s t0 := by
    cases hin : s.inWait with
    | false => exact ⟨s.nowMs, by simp [WaitsSince, hin]⟩
    | true =>
      cases ht : s.t0 with
      | none => simp [exec, execBpAwaitChunk, State.enterWait, hin, ht] at h
      | some t0 => exact ⟨t0, by simp [WaitsSince, hin, ht]⟩
  refine ⟨t0, hw, ?_⟩
  rcases Nat.lt_or_ge s.rx.length 16 with hlen | hlen
  · rcases Nat.lt_or_ge 60000 (s.nowMs - t0) with hx | hx
    · rw [exec_bpAwaitChunk_timeout hw hlen hx] at h
      exact .inr (.inl ⟨hlen, (Host.Outcome.next.inj h).symm⟩)
    · rw [exec_bpAwaitChunk_sleep hw hlen hx] at h
      exact .inr (.inr ⟨hlen, (Host.Outcome.next.inj h).symm⟩)
  · rw [exec_bpAwaitChunk_chunk hw hlen] at h
    exact .inl ⟨hlen, (Host.Outcome.next.inj h).symm⟩

/-- The session goes on below START + MAXB (R215). -/
theorem exec_bpAdvance_goesOn {s : State} {st : Word} {mb cur : Nat} (hs : s.start = some st) (hm : s.maxb = some mb)
    (hc : s.cursor = some cur) (hchip : cur + 16 ≤ 8192) (hlt : cur + 16 < st.toNat + mb) :
    exec .bpAdvance s = .next { s with cursor := some (cur + 16), cs := .bpAwait, inWait := false } := by
  simp [exec, execBpAdvance, hs, hm, hc, hchip, hlt]

/-- The session completes beyond the chip's end, or once START + MAXB is reached (R215). -/
theorem exec_bpAdvance_completes {s : State} {st : Word} {mb cur : Nat} (hs : s.start = some st) (hm : s.maxb = some mb)
    (hc : s.cursor = some cur) (h : 8192 < cur + 16 ∨ st.toNat + mb ≤ cur + 16) :
    exec .bpAdvance s = .next (sessionEnded s Config.texts.done) := by
  rcases h with h | h
  · simp [exec, execBpAdvance, hc, h, complete_eq, sessionEnded]
  · simp [exec, execBpAdvance, hs, hm, hc, Nat.not_lt.2 h, complete_eq, sessionEnded]

theorem exec_bpAdvance_next {s t : State} (h : exec .bpAdvance s = .next t) :
    ∃ cur, s.cursor = some cur ∧
      (t = { s with cursor := some (cur + 16), cs := .bpAwait, inWait := false } ∨
        t = sessionEnded s Config.texts.done) := by
  simp only [exec, execBpAdvance] at h
  split at h
  · cases h
  · refine ⟨_, by assumption, ?_⟩
    split at h
    · cases h
      exact .inr rfl
    · split at h
      · cases h
      · cases h
      · split at h
        · cases h
          exact .inl rfl
        · cases h
          exact .inr rfl

end Sys2Proof.Proofs
end

section
/-!
PROOFS. What the operations leave alone: ADDRMUX between two addresses (40_address_mux.md R125), the cells without a write
pulse and outside the addresses written (20_memory.md R61, R68), and the streams and the clock (10_state.md section 7).
-/
namespace Sys2Proof.Proofs

open Sys2Proof Sys2Proof.Machine

/-! ## ADDRMUX and the cells -/

/-- An operation that presents no address, pulses no WE_N and shifts no bit leaves ADDRMUX and the cells as they are. -/
theorem exec_frame {i : Instr} {s t : State} (hp : presentsAddress i = false) (hw : pulsesWE i = false)
    (hbit : ∀ b, i ≠ .shiftBit b) (hbyte : ∀ v, i ≠ .shiftByte v) (h : exec i s = .next t) :
    s.withChain t = s ∧ t.mem = s.mem := by
  cases i with
  | r a => cases hp
  | w a v => cases hp
  | d a l => cases hp
  | chunk bs => cases hp
  | setAddress a => cases hp
  | readEEPROM a => cases hp
  | writeEEPROM a v => cases hp
  | bpWriteChunk => cases hp
  | pulseWE => cases hw
  | shiftBit b => exact absurd rfl (hbit b)
  | shiftByte v => exact absurd rfl (hbyte v)
  | p a => cases h; exact ⟨rfl, rfl⟩
  | resync c => cases h; exact ⟨rfl, rfl⟩
  | ack => cases h; exact ⟨rfl, rfl⟩
  | setBusDir d =>
    rw [exec_setBusDir, State.setBusDir_eq] at h
    cases h
    exact ⟨rfl, rfl⟩
  | readByte =>
    obtain ⟨v, n, rfl⟩ := exec_readByte_next h
    exact ⟨rfl, rfl⟩
  | writeByte v =>
    obtain ⟨-, rfl⟩ := exec_writeByte_next h
    exact ⟨rfl, rfl⟩
  | readHexDigit =>
    obtain ⟨c, rest, -, rfl⟩ | rfl := exec_readHexDigit_next h <;> exact ⟨rfl, rfl⟩
  | readHex n =>
    obtain ⟨k, v, rfl⟩ | ⟨q, rfl⟩ := exec_readHex_next h <;> exact ⟨rfl, rfl⟩
  | bpInit =>
    obtain ⟨a, -, rfl⟩ := exec_bpInit_next h
    exact ⟨rfl, rfl⟩
  | bpAwaitChunk =>
    obtain ⟨t0, -, ⟨-, rfl⟩ | ⟨-, rfl⟩ | ⟨-, rfl⟩⟩ := exec_bpAwaitChunk_next h <;> exact ⟨rfl, rfl⟩
  | bpAck => cases h; exact ⟨rfl, rfl⟩
  | bpAdvance =>
    obtain ⟨cur, -, rfl | rfl⟩ := exec_bpAdvance_next h <;> exact ⟨rfl, rfl⟩
  | bpComplete => cases h; exact ⟨rfl, rfl⟩
  | bpTimeout => cases h; exact ⟨rfl, rfl⟩

/-- No operation but the bit shifts and those that present an address touches SER, SCK, RCK, the chain or the latch. -/
theorem withChain_of_exec {i : Instr} {s t : State} (hp : presentsAddress i = false) (hbit : ∀ b, i ≠ .shiftBit b)
    (hbyte : ∀ v, i ≠ .shiftByte v) (h : exec i s = .next t) : s.withChain t = s := by
  cases hw : pulsesWE i with
  | false =>
    obtain ⟨hchain, -⟩ := exec_frame hp hw hbit hbyte h
    exact hchain
  | true =>
    cases i with
    | pulseWE =>
      obtain ⟨-, -, rfl⟩ := pulseWE_next h
      rfl
    | w a v => cases hp
    | chunk bs => cases hp
    | writeEEPROM a v => cases hp
    | bpWriteChunk => cases hp
    | _ => cases hw

/-- Settles O12: operations that leave ADDRMUX alone, and bit shifts, which raise SCK only. -/
theorem addressStaysUntilNextSetAddress : Obligations.AddressStaysUntilNextSetAddress := by
  unfold Obligations.AddressStaysUntilNextSetAddress
  refine ⟨fun s a hsck => ⟨s.pointedAt a, ?_, rfl, rfl, rfl, rfl⟩, fun i s t hp h => ?_⟩
  · rw [exec_setAddress, State.setAddress_eq hsck]
  by_cases hbit : ∃ b, i = .shiftBit b
  · obtain ⟨b, rfl⟩ := hbit
    cases h
    exact ⟨rfl, rfl, fun hb => absurd rfl (hb b)⟩
  by_cases hbyte : ∃ v, i = .shiftByte v
  · obtain ⟨v, rfl⟩ := hbyte
    obtain ⟨hal, hrck⟩ := State.shiftBits_keep s (bitsMsbFirst v)
    cases h
    exact ⟨hal, hrck, fun _ hv => absurd rfl (hv v)⟩
  · have hkeep := withChain_of_exec hp (not_exists.1 hbit) (not_exists.1 hbyte) h
    exact ⟨(congrArg State.al hkeep :), (congrArg State.rck hkeep :), fun _ _ =>
      ⟨(congrArg State.sck hkeep :), (congrArg State.ser hkeep :), (congrArg State.sr hkeep :)⟩⟩

/-- Settles O22: an operation without a pulse that presents an address or shifts bits changes the pins, and any other leaves
pins and cells alone. -/
theorem cellsChangeOnlyByWritePulse : Obligations.CellsChangeOnlyByWritePulse := by
  unfold Obligations.CellsChangeOnlyByWritePulse
  intro i s t hw h
  cases i with
  | w a v => cases hw
  | chunk bs => cases hw
  | writeEEPROM a v => cases hw
  | bpWriteChunk => cases hw
  | r a =>
    obtain ⟨c, v, n, rfl⟩ := exec_r_next h
    rfl
  | d a l =>
    obtain ⟨c, dir, n, text, -, rfl⟩ := exec_d_next h
    rfl
  | shiftBit b =>
    rw [exec_shiftBit, State.shiftBit_frame] at h
    cases h
    rfl
  | shiftByte v =>
    rw [exec_shiftByte, State.shiftByte_frame] at h
    cases h
    rfl
  | setAddress a =>
    rw [exec_setAddress, State.setAddress_frame] at h
    cases h
    rfl
  | readEEPROM a =>
    obtain ⟨c, v, n, rfl⟩ := exec_readEEPROM_next h
    rfl
  | _ =>
    obtain ⟨-, hmem⟩ := exec_frame rfl hw (by simp) (by simp) h
    exact hmem

/-! ## The streams and the clock -/

/-- From `s` to `t` bytes leave RX at its front only, TX gains a text with `n` bytes 0x06, and the clock does not turn back. -/
structure StreamsForward (s t : State) (n : Nat) : Prop where
  rx : t.rx <:+ s.rx
  tx : ∃ text, t.tx = s.tx ++ text ∧ ackCount text = n
  clock : s.clockUs ≤ t.clockUs

/-- An operation that leaves the streams alone. -/
theorem streamsForward_of_quiet {s t : State} (hrx : t.rx = s.rx) (htx : t.tx = s.tx) (hclock : s.clockUs ≤ t.clockUs) :
    StreamsForward s t 0 :=
  ⟨hrx ▸ List.suffix_refl _, ⟨[], by rw [htx, List.append_nil], rfl⟩, hclock⟩

/-- An operation that sends a text. -/
theorem streamsForward_of_text {s t : State} {text : List Byte} {n : Nat} (hack : ackCount text = n) (hrx : t.rx = s.rx)
    (htx : t.tx = s.tx ++ text) (hclock : s.clockUs ≤ t.clockUs) : StreamsForward s t n :=
  ⟨hrx ▸ List.suffix_refl _, ⟨text, htx, hack⟩, hclock⟩

/-- A session's end sends its text and no more. -/
theorem streamsForward_sessionEnded {s : State} {text : List Byte} (h : ackCount text = 0) :
    StreamsForward s (sessionEnded s text) 0 :=
  streamsForward_of_text h rfl rfl (Nat.le_refl _)

/-- The bytes 0x06 that an operation sends (R98, R214). -/
def acksOf : Instr → Nat
  | .ack | .bpAck => 1
  | _ => 0

theorem ackCount_ackByte : ackCount [Config.ackByte] = 1 := rfl

/-- The acknowledgements of a chunk are the only texts with a byte 0x06, and no operation turns a stream or the clock back. -/
theorem exec_streamsForward {i : Instr} {s t : State} (h : exec i s = .next t) : StreamsForward s t (acksOf i) := by
  cases i with
  | r a =>
    obtain ⟨c, v, n, rfl⟩ := exec_r_next h
    exact streamsForward_of_text (ackCount_readResponse a v) rfl rfl (Nat.le_refl _)
  | w a v =>
    obtain ⟨c, rfl⟩ := exec_w_next h
    exact streamsForward_of_text (ackCount_wroteResponse a v) rfl rfl (Nat.le_add_right _ _)
  | d a l =>
    obtain ⟨c, dir, n, text, hack, rfl⟩ := exec_d_next h
    exact streamsForward_of_text hack rfl rfl (Nat.le_refl _)
  | p a => cases h; exact streamsForward_of_quiet rfl rfl (Nat.le_refl _)
  | resync c => cases h; exact ⟨List.nil_suffix, ⟨[], (List.append_nil _).symm, rfl⟩, Nat.le_refl _⟩
  | chunk bs =>
    obtain ⟨cur, u, -, -, rfl, hclock⟩ := exec_chunk_next h
    exact streamsForward_of_quiet rfl rfl hclock
  | ack => cases h; exact streamsForward_of_text ackCount_ackByte rfl rfl (Nat.le_refl _)
  | shiftBit b =>
    rw [exec_shiftBit, State.shiftBit_frame] at h
    cases h
    exact streamsForward_of_quiet rfl rfl (Nat.le_refl _)
  | shiftByte v =>
    rw [exec_shiftByte, State.shiftByte_frame] at h
    cases h
    exact streamsForward_of_quiet rfl rfl (Nat.le_refl _)
  | setAddress a =>
    rw [exec_setAddress, State.setAddress_frame] at h
    cases h
    exact streamsForward_of_quiet rfl rfl (Nat.le_refl _)
  | setBusDir d =>
    rw [exec_setBusDir, State.setBusDir_eq] at h
    cases h
    exact streamsForward_of_quiet rfl rfl (Nat.le_refl _)
  | readByte =>
    obtain ⟨v, n, rfl⟩ := exec_readByte_next h
    exact streamsForward_of_quiet rfl rfl (Nat.le_refl _)
  | writeByte v =>
    obtain ⟨-, rfl⟩ := exec_writeByte_next h
    exact streamsForward_of_quiet rfl rfl (Nat.le_refl _)
  | pulseWE =>
    obtain ⟨-, -, rfl⟩ := pulseWE_next h
    exact streamsForward_of_quiet rfl rfl (Nat.le_add_right _ _)
  | readEEPROM a =>
    obtain ⟨c, v, n, rfl⟩ := exec_readEEPROM_next h
    exact streamsForward_of_quiet rfl rfl (Nat.le_refl _)
  | writeEEPROM a v =>
    obtain ⟨-, c, rfl⟩ := writeEEPROM_next h
    exact streamsForward_of_quiet rfl rfl (Nat.le_add_right _ _)
  | readHexDigit =>
    obtain ⟨c, rest, hr, rfl⟩ | rfl := exec_readHexDigit_next h
    · exact ⟨hr ▸ List.suffix_cons c rest, ⟨[], (List.append_nil _).symm, rfl⟩, Nat.le_refl _⟩
    · exact streamsForward_of_quiet rfl rfl (Nat.le_add_right _ _)
  | readHex n =>
    obtain ⟨k, v, rfl⟩ | ⟨q, rfl⟩ := exec_readHex_next h
    · exact ⟨List.drop_suffix _ _, ⟨[], (List.append_nil _).symm, rfl⟩, Nat.le_refl _⟩
    · exact ⟨List.nil_suffix, ⟨[], (List.append_nil _).symm, rfl⟩, Nat.le_add_right _ _⟩
  | bpInit =>
    obtain ⟨a, -, rfl⟩ := exec_bpInit_next h
    exact streamsForward_of_text ackCount_banner rfl rfl (Nat.le_refl _)
  | bpAwaitChunk =>
    obtain ⟨t0, -, ⟨-, rfl⟩ | ⟨-, rfl⟩ | ⟨-, rfl⟩⟩ := exec_bpAwaitChunk_next h
    · exact streamsForward_of_quiet rfl rfl (Nat.le_refl _)
    · exact streamsForward_sessionEnded ackCount_timeout
    · exact streamsForward_of_quiet rfl rfl (Nat.le_add_right _ _)
  | bpWriteChunk =>
    obtain ⟨-, h⟩ := exec_bpWriteChunk_next h
    obtain ⟨cur, u, -, -, rfl, hclock⟩ := exec_chunk_next h
    exact ⟨List.drop_suffix _ _, ⟨[], (List.append_nil _).symm, rfl⟩, hclock⟩
  | bpAck => cases h; exact streamsForward_of_text ackCount_ackByte rfl rfl (Nat.le_refl _)
  | bpAdvance =>
    obtain ⟨cur, -, rfl | rfl⟩ := exec_bpAdvance_next h
    · exact streamsForward_of_quiet rfl rfl (Nat.le_refl _)
    · exact streamsForward_sessionEnded ackCount_done
  | bpComplete => cases h; exact streamsForward_sessionEnded ackCount_done
  | bpTimeout => cases h; exact streamsForward_sessionEnded ackCount_timeout

end Sys2Proof.Proofs
end

section
/-!
PROOFS. The byte access (42_byte_access.md): what a read and a write of one cell do, when WE_N is low, which cells an operation
stores to, and that a byte written is read back.
-/
namespace Sys2Proof.Proofs

open Sys2Proof Sys2Proof.Machine

/-! ## One read, one write -/

/-- Settles O18. -/
theorem readEEPROMLoadsOneByte : Obligations.ReadEEPROMLoadsOneByte := by
  unfold Obligations.ReadEEPROMLoadsOneByte
  intro s a hsck hbusy
  refine ⟨Memory.readAt s.mem a (Config.freeByte s.draws), fun c hc => readAt_of_cell hc _, ?_⟩
  rw [exec_readEEPROM, readEEPROM_eq hsck (wBusy_eq_false_iff.1 hbusy), andThen_next, add_drawsOf]
  rfl

/-- Settles O19. -/
theorem writeEEPROMStoresOneByte : Obligations.WriteEEPROMStoresOneByte := by
  unfold Obligations.WriteEEPROMStoresOneByte
  intro s a v hsck hbusy
  refine ⟨Memory.writeAt s.mem a v, Memory.cell_writeAt s.mem a v, ?_⟩
  rw [exec_writeEEPROM, writeEEPROM_eq hsck (wBusy_eq_false_iff.1 hbusy)]
  rfl

/-! ## The strobe -/

/-- The pins as they stand when a write's pulse begins: lines OUT with the new byte, the new address presented (R162). -/
def strobeStart (s : State) (a : Word) (v : Byte) : State := { s.pointedAt a with dir := 0xFF, dout := v }

/-- The line writes of a write before its pulse (R162). -/
def setupEvents (a : Word) (v : Byte) : List PinEvent := setBusDirEvents .out ++ (setAddressEvents a ++ writeByteEvents v)

theorem writeEEPROMEvents_eq (a : Word) (v : Byte) :
    writeEEPROMEvents a v = setupEvents a v ++ (pulseEvents ++ [.wait (Config.settleMs * 1000)]) := by
  simp only [writeEEPROMEvents, setupEvents, List.append_assoc]

theorem pins_setupEvents {s : State} (hsck : s.sck = false) (a : Word) (v : Byte) :
    s.pins (setupEvents a v) = strobeStart s a v := by
  have hdir : s.pins (setBusDirEvents .out) = { s with dir := 0xFF } := State.setBusDir_out s
  have haddr : ({ s with dir := 0xFF } : State).pins (setAddressEvents a) = ({ s with dir := 0xFF } : State).pointedAt a :=
    State.setAddress_eq (s := { s with dir := 0xFF }) hsck a
  rw [setupEvents, State.pins_append, State.pins_append, hdir, haddr, State.writeByte_pins_eq]
  rfl

/-- A write is its line writes and waits in order (R11, R162). -/
theorem writeEEPROM_eq_pins {s : State} (hsck : s.sck = false) (hbusy : s.busyUs = 0) (a : Word) (v : Byte) :
    writeEEPROM a v s = .next (s.pins (writeEEPROMEvents a v)) := by
  have hpulse : (strobeStart s a v).pins (pulseEvents ++ [.wait (Config.settleMs * 1000)]) =
      ((strobeStart s a v).pins pulseEvents).delayMs Config.settleMs := State.pins_append ..
  rw [writeEEPROM_eq hsck hbusy, writeEEPROMEvents_eq, State.pins_append, pins_setupEvents hsck, hpulse,
    State.pulse_pins_eq rfl]
  simp only [strobeStart, State.delayMs, State.delayUs, runDown_eq, State.pointedAt, Host.Outcome.next.injEq,
    State.mk.injEq, true_and, and_true, Nat.add_assoc, hbusy, Nat.zero_sub]
  exact (settled _).symm

/-- WE_N is no line that the setup of a write touches. -/
theorem pin_weN_of_mem_setupEvents {a : Word} {v : Byte} {e : PinEvent} (h : e ∈ setupEvents a v) (s : State) :
    (s.pin e).weN = s.weN := by
  simp only [setupEvents, setBusDirEvents, writeByteEvents, List.mem_append, List.mem_map] at h
  rcases h with ⟨i, -, rfl⟩ | h | ⟨i, -, rfl⟩
  · rfl
  · exact congrArg Prod.fst (pin_isChain_frame (setAddressEvents_chain a e h) s)
  · rfl

/-- Of the states of a pulse and its settle delay the first two have WE_N low: it falls, and a microsecond passes. -/
theorem low_of_mem_pulseTrace {p u : State} (hu : u ∈ p.pinTrace (pulseEvents ++ [.wait (Config.settleMs * 1000)]))
    (hlow : u.weN = false) : u.dir = p.dir ∧ u.dout = p.dout ∧ u.al = p.al := by
  simp only [pulseEvents, List.cons_append, List.nil_append, State.pinTrace, List.mem_cons, List.not_mem_nil,
    or_false] at hu
  rcases hu with rfl | rfl | rfl | rfl
  · simp [State.pin]
  · simp [State.pin]
  · simp [State.pin] at hlow
  · simp [State.pin] at hlow

/-- Settles O21: WE_N is high until the setup is done, and the pulse moves no other line. -/
theorem strobeOnlyOverSettledLines : Obligations.StrobeOnlyOverSettledLines := by
  unfold Obligations.StrobeOnlyOverSettledLines
  intro s a v hsck hbusy hweN
  refine ⟨writeEEPROM_eq_pins hsck (wBusy_eq_false_iff.1 hbusy) a v, fun u hu hlow => ?_⟩
  rw [writeEEPROMEvents_eq, pinTrace_append, pins_setupEvents hsck] at hu
  rcases List.mem_append.1 hu with hu | hu
  · have hkeep := of_mem_pinTrace (f := State.weN) (fun e he => pin_weN_of_mem_setupEvents he) hu
    rw [hkeep, hweN] at hlow
    cases hlow
  · obtain ⟨hdir, hdout, hal⟩ := low_of_mem_pulseTrace hu hlow
    exact ⟨hdir, (State.busLevel_out hdir).trans hdout, hal⟩

/-! ## SCK between operations -/

theorem readEEPROM_sck {s t : State} {a : Word} {v : Byte} (hsck : s.sck = false) (h : readEEPROM a s = .next (v, t)) :
    t.sck = false := by
  rw [readEEPROM_eq hsck (readEEPROM_next h).1] at h
  cases h
  rfl

theorem readCells_sck {s t : State} {n : Nat} {a : Word} {bs : List Byte} (hsck : s.sck = false)
    (h : readCells n a s = .next (bs, t)) : t.sck = false := by
  induction n generalizing s a bs with
  | zero => cases h; exact hsck
  | succ n ih =>
    obtain ⟨⟨v, u⟩, hu, h⟩ := andThen_eq_next h
    obtain ⟨⟨vs, w⟩, hw, h⟩ := andThen_eq_next h
    cases h
    exact ih (readEEPROM_sck hsck hu) hw

theorem dumpLines_sck {s t : State} {k left : Nat} {a : Word} (hsck : s.sck = false)
    (h : dumpLines k left a s = .next t) : t.sck = false := by
  induction k generalizing s left a with
  | zero => cases h; exact hsck
  | succ k ih =>
    obtain ⟨⟨bs, u⟩, hu, h⟩ := andThen_eq_next h
    exact ih ((State.txText_sck u _).trans (readCells_sck hsck hu)) h

theorem writeEEPROM_of_next {s t : State} {a : Word} {v : Byte} (hsck : s.sck = false)
    (h : writeEEPROM a v s = .next t) : t.sck = false ∧ t.mem = Memory.writeAt s.mem a v := by
  rw [writeEEPROM_eq hsck (writeEEPROM_next h).1] at h
  cases h
  exact ⟨rfl, rfl⟩

/-- What the writes of a chunk leave in the cells, from SCK low (R213). -/
theorem writeCells_of_next {s t : State} {bs : List Byte} {k cur : Nat} (hsck : s.sck = false)
    (h : writeCells bs k cur s = .next t) :
    t.sck = false ∧ t.mem = Memory.writeAll s.mem ((bs.zipIdx k).map fun x => (trunc16 (cur + x.2), x.1)) := by
  cases bs with
  | nil => cases h; exact ⟨hsck, rfl⟩
  | cons b bs =>
    obtain ⟨u, hu, -⟩ := andThen_eq_next h
    rw [writeCells_eq hsck (writeEEPROM_next hu).1] at h
    cases h
    exact ⟨rfl, rfl⟩

theorem sck_of_exec_chunk {s t : State} {bs : List Byte} (hsck : s.sck = false) (h : exec (.chunk bs) s = .next t) :
    t.sck = false := by
  obtain ⟨cur, u, -, hu, rfl, -⟩ := exec_chunk_next h
  exact (writeCells_of_next hsck hu).1

/-- Every operation that finds SCK low leaves it low (R125). -/
theorem sck_of_exec {i : Instr} {s t : State} (hsck : s.sck = false) (h : exec i s = .next t) : t.sck = false := by
  cases i with
  | r a =>
    obtain ⟨⟨v, u⟩, hu, h⟩ := andThen_eq_next h
    cases h
    exact (readEEPROM_sck (by exact hsck) hu :)
  | w a v =>
    obtain ⟨u, hu, h⟩ := andThen_eq_next h
    cases h
    exact ((writeEEPROM_of_next (by exact hsck) hu).1 :)
  | d a l =>
    obtain ⟨u, hu, h⟩ := andThen_eq_next h
    cases h
    exact (dumpLines_sck (by exact hsck) hu :)
  | chunk bs => exact sck_of_exec_chunk hsck h
  | bpWriteChunk => exact sck_of_exec_chunk (by exact hsck) (exec_bpWriteChunk_next h).2
  | setAddress a => rw [exec_setAddress, State.setAddress_eq hsck] at h; cases h; rfl
  | readEEPROM a =>
    obtain ⟨⟨v, u⟩, hu, h⟩ := andThen_eq_next h
    cases h
    exact (readEEPROM_sck hsck hu :)
  | writeEEPROM a v => exact (writeEEPROM_of_next hsck h).1
  | shiftBit b => rw [exec_shiftBit, State.shiftBit_eq hsck] at h; cases h; rfl
  | shiftByte v => rw [exec_shiftByte, State.shiftByte_eq hsck] at h; cases h; rfl
  | _ =>
    have hkeep := withChain_of_exec (by rfl) (by simp) (by simp) h
    exact (congrArg State.sck hkeep :).trans hsck

/-! ## The cells an operation stores to -/

/-- A cell that no byte of a chunk goes to keeps its content (R68, D14). -/
theorem cell_of_writeCells {s t : State} {bs : List Byte} {cur d : Nat} (hsck : s.sck = false)
    (h : writeCells bs 0 cur s = .next t) (hd : ∀ k, k < bs.length → Config.cell (trunc16 (cur + k)) ≠ some d) :
    Memory.cell t.mem d = Memory.cell s.mem d := by
  rw [(writeCells_of_next hsck h).2]
  refine Memory.cell_writeAll _ _ _ fun w hw => ?_
  obtain ⟨⟨b, k⟩, hx, rfl⟩ := List.mem_map.1 hw
  exact hd k (by simpa using (List.mem_zipIdx hx).2.1)

theorem cell_of_exec_chunk {s t : State} {bs : List Byte} {cur d : Nat} (hsck : s.sck = false) (hc : s.cursor = some cur)
    (h : exec (.chunk bs) s = .next t) (hd : ∀ k, k < bs.length → Config.cell (trunc16 (cur + k)) ≠ some d) :
    Memory.cell t.mem d = Memory.cell s.mem d := by
  obtain ⟨cur', u, hc', hu, rfl, -⟩ := exec_chunk_next h
  obtain rfl : cur' = cur := Option.some.inj (hc'.symm.trans hc)
  exact (cell_of_writeCells hsck hu hd :)

theorem cell_of_exec_bpWriteChunk {s t : State} {cur d : Nat} (hsck : s.sck = false) (hc : s.cursor = some cur)
    (h : exec .bpWriteChunk s = .next t) (hd : ∀ k, k < 16 → Config.cell (trunc16 (cur + k)) ≠ some d) :
    Memory.cell t.mem d = Memory.cell s.mem d := by
  obtain ⟨hlen, h⟩ := exec_bpWriteChunk_next h
  refine cell_of_exec_chunk (s := { s with rx := s.rx.drop 16 }) hsck hc h fun k hk => hd k ?_
  rw [List.length_take] at hk
  omega

theorem cell_of_writeEEPROM {s t : State} {a : Word} {v : Byte} {d : Nat} (hsck : s.sck = false)
    (h : writeEEPROM a v s = .next t) (hd : Config.cell a ≠ some d) : Memory.cell t.mem d = Memory.cell s.mem d := by
  rw [(writeEEPROM_of_next hsck h).2, Memory.cell_writeAt, if_neg hd]

theorem cell_of_exec_w {s t : State} {a : Word} {v : Byte} {d : Nat} (hsck : s.sck = false)
    (h : exec (.w a v) s = .next t) (hd : Config.cell a ≠ some d) : Memory.cell t.mem d = Memory.cell s.mem d := by
  obtain ⟨u, hu, h⟩ := andThen_eq_next h
  cases h
  exact (cell_of_writeEEPROM (by exact hsck) hu hd :)

theorem cell_of_pulseWE {s t : State} {d : Nat} (h : pulseWE s = .next t) (hd : Config.cell s.al ≠ some d) :
    Memory.cell t.mem d = Memory.cell s.mem d := by
  obtain ⟨-, -, rfl⟩ := pulseWE_next h
  exact (Memory.cell_writeAt s.mem s.al s.dout d).trans (if_neg hd)

/-- Settles O23. -/
theorem storesTouchOnlyTheirCells : Obligations.StoresTouchOnlyTheirCells := by
  unfold Obligations.StoresTouchOnlyTheirCells
  exact fun s t hsck =>
    ⟨fun a v h d hd => cell_of_writeEEPROM hsck h hd, fun a v h d hd => cell_of_exec_w hsck h hd,
      fun h d hd => cell_of_pulseWE h hd, fun bs cur hc h d hd => cell_of_exec_chunk hsck hc h hd,
      fun cur hc h d hd => cell_of_exec_bpWriteChunk hsck hc h hd⟩

/-- The addresses of a chunk's bytes, as `storesTo` lists them. -/
theorem mem_chunkStores {o : Option Nat} {cur n k : Nat} (ho : o = some cur) (hk : k < n) :
    trunc16 (cur + k) ∈ o.toList.flatMap fun c => (List.range n).map fun j => trunc16 (c + j) := by
  subst ho
  simp only [Option.toList_some, List.flatMap_cons, List.flatMap_nil, List.append_nil]
  exact List.mem_map.2 ⟨k, List.mem_range.2 hk, rfl⟩

/-- No operation changes a cell that none of its store addresses selects (R61). -/
theorem cell_of_exec {i : Instr} {s t : State} {d : Nat} (hsck : s.sck = false) (h : exec i s = .next t)
    (hd : ∀ a ∈ storesTo i s, Config.cell a ≠ some d) : Memory.cell t.mem d = Memory.cell s.mem d := by
  cases hp : pulsesWE i with
  | false => rw [cellsChangeOnlyByWritePulse i s t hp h]
  | true =>
    cases i with
    | w a v => exact cell_of_exec_w hsck h (hd a (by simp [storesTo]))
    | writeEEPROM a v => exact cell_of_writeEEPROM hsck h (hd a (by simp [storesTo]))
    | pulseWE => exact cell_of_pulseWE h (hd s.al (by simp [storesTo]))
    | chunk bs =>
      obtain ⟨cur, -, hc, -⟩ := exec_chunk_next h
      exact cell_of_exec_chunk hsck hc h fun k hk => hd _ (mem_chunkStores hc hk)
    | bpWriteChunk =>
      obtain ⟨cur, -, hc, -⟩ := exec_chunk_next (exec_bpWriteChunk_next h).2
      exact cell_of_exec_bpWriteChunk hsck hc h fun k hk => hd _ (mem_chunkStores hc hk)
    | _ => cases hp

/-! ## A byte written is read back -/

/-- Operations that store nothing in a cell leave its byte there and SCK low (R165). -/
theorem cell_of_undisturbed {c : Nat} {is : List Instr} {s u : State} (hsck : s.sck = false) (hu : Undisturbed c is s)
    (h : execAll is s = .next u) : u.sck = false ∧ Memory.cell u.mem c = Memory.cell s.mem c := by
  induction is generalizing s with
  | nil => cases h; exact ⟨hsck, rfl⟩
  | cons i is ih =>
    obtain ⟨t, ht, h⟩ := andThen_eq_next h
    obtain ⟨hfree, hrest⟩ := hu
    obtain ⟨hsck', hcell⟩ := ih (sck_of_exec hsck ht) (hrest t ht) h
    exact ⟨hsck', hcell.trans (cell_of_exec hsck ht hfree)⟩

/-- A read of a cell of the chip returns its byte. -/
theorem exec_readEEPROM_of_cell {s : State} {a : Word} {c : Nat} (hsck : s.sck = false) (hbusy : s.busyUs = 0)
    (hc : Config.cell a = some c) :
    ∃ t, exec (.readEEPROM a) s = .next t ∧ t.ret = some ((Memory.cell s.mem c).setWidth 16) := by
  rw [exec_readEEPROM, readEEPROM_eq hsck hbusy, andThen_next, readAt_of_cell hc]
  exact ⟨_, rfl, rfl⟩

/-- The cell `c` holds `v`, and the block can go on to any read or write. -/
def ReadyWith (c : Nat) (v : Byte) (s : State) : Prop := s.sck = false ∧ s.busyUs = 0 ∧ Memory.cell s.mem c = v

/-- A write leaves its byte in its cell. -/
theorem readyWith_of_write {s : State} {a : Word} {c : Nat} (v : Byte) (hsck : s.sck = false) (hbusy : s.busyUs = 0)
    (hc : Config.cell a = some c) : ∃ t, exec (.writeEEPROM a v) s = .next t ∧ ReadyWith c v t := by
  refine ⟨_, writeEEPROM_eq hsck hbusy a v, rfl, rfl, ?_⟩
  exact (Memory.cell_writeAt s.mem a v c).trans (if_pos hc)

/-- A read or a write of another cell completes and leaves the block ready for the next. -/
theorem readyWith_of_access {c : Nat} {v : Byte} {s : State} {x : Access} (h : ReadyWith c v s)
    (hx : Config.cell x.addr ≠ some c) : ∃ t, exec x.instr s = .next t ∧ ReadyWith c v t := by
  obtain ⟨hsck, hbusy, hcell⟩ := h
  cases x with
  | read a =>
    rw [Access.instr, exec_readEEPROM, readEEPROM_eq hsck hbusy]
    exact ⟨_, rfl, rfl, hbusy, hcell⟩
  | write a w =>
    refine ⟨_, writeEEPROM_eq hsck hbusy a w, rfl, rfl, ?_⟩
    exact (Memory.cell_writeAt s.mem a w c).trans ((if_neg hx).trans hcell)

/-- A list of accesses to other cells completes, and the byte is read behind it. -/
theorem readBack_after_accesses {c : Nat} {v : Byte} {a : Word} (ha : Config.cell a = some c) {xs : List Access}
    {s : State} (h : ReadyWith c v s) (hx : ∀ x ∈ xs, Config.cell x.addr ≠ some c) :
    ∃ t, execAll (xs.map Access.instr ++ [.readEEPROM a]) s = .next t ∧ t.ret = some (v.setWidth 16) := by
  induction xs generalizing s with
  | nil =>
    obtain ⟨hsck, hbusy, hcell⟩ := h
    obtain ⟨t, ht, hret⟩ := exec_readEEPROM_of_cell hsck hbusy ha
    refine ⟨t, ?_, hcell ▸ hret⟩
    simp only [List.map_nil, List.nil_append, execAll, ht, andThen_next]
  | cons x xs ih =>
    obtain ⟨u, hu, hready⟩ := readyWith_of_access h (hx x (List.mem_cons_self ..))
    obtain ⟨t, ht, hret⟩ := ih hready fun y hy => hx y (List.mem_cons_of_mem x hy)
    refine ⟨t, ?_, hret⟩
    simp only [List.map_cons, List.cons_append, execAll, hu, andThen_next, ht]

/-- Settles O20: the cell keeps its byte through operations that store elsewhere, and SCK is low when it is read. -/
theorem writtenByteReadsBack : Obligations.WrittenByteReadsBack := by
  unfold Obligations.WrittenByteReadsBack
  refine ⟨fun s t u a v others ha hsck hbusy ht hfree hu hidle => ?_, fun s a v others ha hsck hbusy hx => ?_⟩
  · have hcell := Config.cell_of_lt ha
    obtain ⟨t', ht', hsck', -, hv⟩ := readyWith_of_write v hsck (wBusy_eq_false_iff.1 hbusy) hcell
    obtain rfl : t' = t := Host.Outcome.next.inj (ht'.symm.trans ht)
    obtain ⟨hsck'', hkept⟩ := cell_of_undisturbed hsck' hfree hu
    have hread := exec_readEEPROM_of_cell hsck'' (wBusy_eq_false_iff.1 hidle) hcell
    rwa [hkept, hv] at hread
  · have hcell := Config.cell_of_lt ha
    obtain ⟨t', ht', hready⟩ := readyWith_of_write v hsck (wBusy_eq_false_iff.1 hbusy) hcell
    have hother : ∀ x ∈ others, Config.cell x.addr ≠ some a.toNat := by
      intro x hxm heq
      obtain ⟨hlt, hne⟩ := hx x hxm
      rw [Config.cell_of_lt hlt] at heq
      exact hne (BitVec.eq_of_toNat_eq (Option.some.inj heq))
    obtain ⟨t, ht, hret⟩ := readBack_after_accesses hcell hready hother
    refine ⟨t, ?_, hret⟩
    simp only [List.cons_append, execAll, ht', andThen_next, ht]

end Sys2Proof.Proofs
end

section
/-!
PROOFS. The operand readers and the commands (43_line_protocol.md), from every state in which they complete.
-/
namespace Sys2Proof.Proofs

open Sys2Proof Sys2Proof.Machine

/-! ## Operand readers -/

/-- Settles O24. -/
theorem readHexDigitTakesOneByte : Obligations.ReadHexDigitTakesOneByte := by
  unfold Obligations.ReadHexDigitTakesOneByte
  exact ⟨fun s c rest h => exec_readHexDigit_cons h, fun s h => exec_readHexDigit_nil h⟩

/-- Settles O25: at its start `ReadHex(n)` stands before n digits with the value 0. -/
theorem readHexTakesItsDigits : Obligations.ReadHexTakesItsDigits := by
  unfold Obligations.ReadHexTakesItsDigits
  intro s n k v _ h
  have hreading : readingOf s n = (k, v) := by
    rcases h with ⟨hr, rfl, rfl⟩ | hr
    · rw [readingOf, hr, Option.getD_none]
    · rw [readingOf, hr, Option.getD_some]
  exact ⟨exec_readHex_of_le hreading, exec_readHex_of_lt hreading⟩

/-! ## R and W -/

/-- `R` with SCK low and no write cycle (R183). -/
theorem exec_r_eq {s : State} (hsck : s.sck = false) (hbusy : s.busyUs = 0) (a : Word) :
    exec (.r a) s = .next { s.pointedAt a with
      dir := 0x00, draws := s.draws + drawsOf a
      tx := s.tx ++ readResponse a (Memory.readAt s.mem a (Config.freeByte s.draws))
      opA := none, opV := none, opL := none, cs := .idle } := by
  rw [exec, execR, readEEPROM_eq (s := { s with opA := some a, cs := .exec .r }) hsck hbusy]
  rfl

/-- `W` with SCK low and no write cycle (R184). -/
theorem exec_w_eq {s : State} (hsck : s.sck = false) (hbusy : s.busyUs = 0) (a : Word) (v : Byte) :
    exec (.w a v) s = .next { s.pointedAt a with
      dir := 0xFF, dout := v, weN := true, mem := Memory.writeAt s.mem a v, busyAt := a
      clockUs := s.clockUs + (Config.pulseUs + Config.settleMs * 1000), busyUs := 0
      tx := s.tx ++ wroteResponse a v, opA := none, opV := none, opL := none, cs := .idle } := by
  rw [exec, execW, writeEEPROM_eq (s := { s with opA := some a, opV := some v, cs := .exec .w }) hsck hbusy]
  rfl

/-- Settles O26. -/
theorem commandRReadsAndReports : Obligations.CommandRReadsAndReports := by
  unfold Obligations.CommandRReadsAndReports
  intro s a hsck hbusy
  refine ⟨Memory.readAt s.mem a (Config.freeByte s.draws), fun c hc => readAt_of_cell hc _, ?_⟩
  rw [exec_r_eq hsck (wBusy_eq_false_iff.1 hbusy), add_drawsOf]
  rfl

/-- Settles O27. -/
theorem commandWWritesAndConfirms : Obligations.CommandWWritesAndConfirms := by
  unfold Obligations.CommandWWritesAndConfirms
  intro s a v hsck hbusy
  refine ⟨Memory.writeAt s.mem a v, Memory.cell_writeAt s.mem a v, ?_⟩
  rw [exec_w_eq hsck (wBusy_eq_false_iff.1 hbusy)]
  rfl

/-! ## D and P -/

/-- `D` with SCK low and no write cycle, for a length operand that counts `n + 1` bytes (R185). -/
theorem exec_d_eq {s : State} (hsck : s.sck = false) (hbusy : s.busyUs = 0) (a : Word) {len : Word} {n : Nat}
    (hn : dumpCount len = n + 1) :
    exec (.d a len) s = .next { s.pointedAt (a + BitVec.ofNat 16 n) with
      dir := 0x00, draws := (readValues s.mem (n + 1) a s.draws).2
      tx := s.tx ++ dumpText a (readValues s.mem (n + 1) a s.draws).1
      opA := none, opV := none, opL := none, cs := .idle } := by
  rw [exec, execD, hn, dumpLines_eq (s := { s with opA := some a, opL := some len, cs := .exec .d }) hsck hbusy]
  rfl

theorem exists_dumpCount_eq_succ (len : Word) : ∃ n, dumpCount len = n + 1 := by
  obtain ⟨-, hpos, -⟩ := dumpCountOfLength len
  exact ⟨dumpCount len - 1, by omega⟩

/-- Settles O28: the bytes and draws are those of the reads in order, one for each address of the range. -/
theorem commandDDumps : Obligations.CommandDDumps := by
  unfold Obligations.CommandDDumps
  intro s a len hsck hbusy
  obtain ⟨n, hn⟩ := exists_dumpCount_eq_succ len
  rw [hn, Nat.add_sub_cancel]
  refine ⟨(readValues s.mem (n + 1) a s.draws).1, (readValues s.mem (n + 1) a s.draws).2,
    readValues_length s.mem (n + 1) a s.draws, fun j c hj hc => readValues_get s.mem (n + 1) a s.draws j hj c hc,
    readValues_draws s.mem (n + 1) a s.draws, ?_⟩
  rw [exec_d_eq hsck (wBusy_eq_false_iff.1 hbusy) a hn]
  rfl

/-- Settles O29. -/
theorem commandPEntersTheSession : Obligations.CommandPEntersTheSession := by
  unfold Obligations.CommandPEntersTheSession
  exact fun s a => exec_p a s

end Sys2Proof.Proofs
end

section
/-!
PROOFS. The bulk session (44_bulk_program.md): its byte count, its seven steps, and where a chunk's bytes land.
-/
namespace Sys2Proof.Proofs

open Sys2Proof Sys2Proof.Machine

/-! ## The byte count of a session -/

theorem le_two_pow_maxbWidth : 65536 ≤ 2 ^ Config.maxbWidth :=
  Nat.pow_le_pow_right (n := 2) (i := 16) (by decide) (Nat.le_add_right 16 Config.maxbExtra)

theorem maxbOf_of_le {a : Word} (h : a.toNat ≤ 8192) : maxbOf a = 8192 - a.toNat := by
  rw [maxbOf, if_pos h]

theorem maxbOf_of_gt {a : Word} (h : 8192 < a.toNat) : maxbOf a = 2 ^ Config.maxbWidth - (a.toNat - 8192) := by
  rw [maxbOf, if_neg (Nat.not_le.2 h)]

/-- MAXB is the difference in modular arithmetic: it wraps above the chip's end only (R29, D15). -/
theorem maxbOf_eq_emod (a : Word) : (maxbOf a : Int) = (8192 - (a.toNat : Int)) % 2 ^ Config.maxbWidth := by
  have hw : (65536 : Int) ≤ 2 ^ Config.maxbWidth := by exact_mod_cast le_two_pow_maxbWidth
  have hn := le_two_pow_maxbWidth
  have ha := a.isLt
  rcases Nat.lt_or_ge 8192 a.toNat with h | h
  · have hcast : (maxbOf a : Int) = 8192 - (a.toNat : Int) + 2 ^ Config.maxbWidth := by
      rw [maxbOf_of_gt h]
      push_cast [show a.toNat - 8192 ≤ 2 ^ Config.maxbWidth by omega, Nat.le_of_lt h]
      omega
    rw [hcast, ← Int.add_emod_right, Int.emod_eq_of_lt (by omega) (by omega)]
  · rw [maxbOf_of_le h, Int.emod_eq_of_lt (by omega) (by omega)]
    omega

/-- Settles O31. -/
theorem maxByteCountOfStart : Obligations.MaxByteCountOfStart := by
  unfold Obligations.MaxByteCountOfStart
  refine ⟨Nat.le_add_right 16 Config.maxbExtra, fun a => ⟨maxbOf_eq_emod a, fun h => ?_, fun h => ?_, fun h => ?_⟩⟩
  · rw [maxbOf_of_le (Nat.le_of_lt h)]
    omega
  · rw [maxbOf_of_le (Nat.le_of_eq h)]
    omega
  · have hw := le_two_pow_maxbWidth
    have ha := a.isLt
    rw [maxbOf_of_gt h]
    omega

/-! ## The steps of a session -/

/-- Settles O32. -/
theorem bpInitOpensTheSession : Obligations.BpInitOpensTheSession := by
  unfold Obligations.BpInitOpensTheSession
  exact fun s a h => exec_bpInit_of_opA h

/-- Settles O33. -/
theorem bpAwaitChunkPolls : Obligations.BpAwaitChunkPolls := by
  unfold Obligations.BpAwaitChunkPolls
  intro s t0 hin hout
  exact ⟨exec_bpAwaitChunk_chunk ⟨hin, hout⟩, exec_bpAwaitChunk_timeout ⟨hin, hout⟩, exec_bpAwaitChunk_sleep ⟨hin, hout⟩⟩

/-- The sixteen writes of a chunk, whose last byte the pins keep (R97, R213). -/
theorem exec_chunk_of_length {s : State} {cur : Nat} {bs : List Byte} (hc : s.cursor = some cur) (hlen : bs.length = 16)
    (hsck : s.sck = false) (hbusy : s.busyUs = 0) :
    exec (.chunk bs) s = .next { s.pointedAt (trunc16 (cur + 15)) with
      mem := Memory.writeAll s.mem (chunkWrites cur bs), dir := 0xFF, dout := bs.getD 15 0, weN := true
      busyUs := 0, busyAt := trunc16 (cur + 15), clockUs := s.clockUs + 161616, idx := none, cs := .bpAck } := by
  obtain ⟨b, bs, rfl⟩ := List.exists_cons_of_length_eq_add_one hlen
  have htail : bs.length = 15 := Nat.succ.inj hlen
  have hlast : (b :: bs).getLastD 0 = (b :: bs).getD 15 0 := by
    rw [List.getLastD_eq_getLast?, List.getLast?_eq_getElem?, hlen, List.getD_eq_getElem?_getD]
  rw [exec_chunk_eq hc, writeCells_eq hsck hbusy, andThen_next, hlast, htail, Nat.zero_add]
  rfl

/-- Settles O35. -/
theorem chunkFrameIsWritten : Obligations.ChunkFrameIsWritten := by
  unfold Obligations.ChunkFrameIsWritten
  intro s cur bs hc hlen hsck hbusy
  rw [exec_chunk_of_length hc hlen hsck (wBusy_eq_false_iff.1 hbusy)]
  rfl

/-- Settles O36. -/
theorem poppedChunkEqualsFrame : Obligations.PoppedChunkEqualsFrame := by
  unfold Obligations.PoppedChunkEqualsFrame
  exact fun s h => exec_bpWriteChunk_eq h

/-- Settles O34: the popped chunk is the frame of the sixteen oldest bytes. -/
theorem bpWriteChunkWritesSixteen : Obligations.BpWriteChunkWritesSixteen := by
  unfold Obligations.BpWriteChunkWritesSixteen
  intro s cur hc hlen hsck hbusy
  have htake : (s.rx.take 16).length = 16 := by rw [List.length_take]; omega
  have hlast : (s.rx.take 16).getD 15 0 = s.rx.getD 15 0 := by
    rw [List.getD_eq_getElem?_getD, List.getElem?_take_of_lt (by decide), List.getD_eq_getElem?_getD]
  rw [exec_bpWriteChunk_eq hlen, exec_chunk_of_length (s := { s with rx := s.rx.drop 16 }) hc htake hsck
    (wBusy_eq_false_iff.1 hbusy), hlast]
  rfl

/-- Settles O38. -/
theorem bpAckSendsOneByte : Obligations.BpAckSendsOneByte := by
  unfold Obligations.BpAckSendsOneByte
  refine ⟨rfl, fun s => ⟨?_, ?_⟩⟩
  · rw [exec_bpAck, List.length_append, List.length_singleton]
  · rw [exec_ack, List.length_append, List.length_singleton]

/-- Settles O39. -/
theorem bpAdvanceDecides : Obligations.BpAdvanceDecides := by
  unfold Obligations.BpAdvanceDecides
  exact fun s st mb cur hs hm hc => ⟨exec_bpAdvance_goesOn hs hm hc, exec_bpAdvance_completes hs hm hc⟩

/-- An advance of a session with an in-range start goes on exactly below the chip's end (R215, R221). -/
theorem exec_bpAdvance_inRange {s : State} {st : Word} {cur : Nat} (hs : s.start = some st)
    (hm : s.maxb = some (maxbOf st)) (hc : s.cursor = some cur) (hst : st.toNat < 8192) :
    exec .bpAdvance s = .next (if cur + 16 < 8192 then { s with cursor := some (cur + 16), cs := .bpAwait, inWait := false }
      else sessionEnded s Config.texts.done) := by
  have hmb := maxbOf_of_le (Nat.le_of_lt hst)
  split
  · exact exec_bpAdvance_goesOn hs hm hc (by omega) (by omega)
  · exact exec_bpAdvance_completes hs hm hc (by omega)

/-- Settles O40: START + MAXB is the chip's end for an in-range start, and a start beyond it is past the chip's end after
one chunk. -/
theorem sessionEndsAtTheChipsEnd : Obligations.SessionEndsAtTheChipsEnd := by
  unfold Obligations.SessionEndsAtTheChipsEnd
  intro s t st cur hs hm hc hcur h
  rcases Nat.lt_or_ge st.toNat 8192 with hst | hst
  · rw [exec_bpAdvance_inRange hs hm hc hst] at h
    obtain rfl := Host.Outcome.next.inj h
    refine ⟨fun _ => ?_, fun h => absurd h (Nat.not_le.2 hst), ?_⟩
    · split <;> simp [sessionEnded, *]
    · split <;> simp [sessionEnded]
  · rw [exec_bpAdvance_completes hs hm hc (.inl (by omega))] at h
    obtain rfl := Host.Outcome.next.inj h
    exact ⟨fun h => absurd h (Nat.not_lt.2 hst), fun _ => ⟨rfl, rfl⟩, .inr rfl⟩

/-- Settles O41. -/
theorem bpCompleteEndsTheSession : Obligations.BpCompleteEndsTheSession := by
  unfold Obligations.BpCompleteEndsTheSession
  exact exec_bpComplete

/-- Settles O42. -/
theorem bpTimeoutEndsTheSession : Obligations.BpTimeoutEndsTheSession := by
  unfold Obligations.BpTimeoutEndsTheSession
  exact exec_bpTimeout

/-! ## Where the bytes of a chunk land -/

theorem writeAll_append (m : Memory) (xs ys : List (Word × Byte)) :
    Memory.writeAll m (xs ++ ys) = Memory.writeAll (Memory.writeAll m xs) ys :=
  List.foldl_append

theorem chunkWrites_append (cur : Nat) (xs ys : List Byte) :
    chunkWrites cur (xs ++ ys) = chunkWrites cur xs ++ chunkWrites (cur + xs.length) ys := by
  rw [chunkWrites, List.zipIdx_append, List.map_append, Nat.zero_add, List.zipIdx_eq_map_add (i := xs.length), List.map_map]
  congr 1
  refine List.map_congr_left fun ⟨b, j⟩ _ => ?_
  simp only [Function.comp_apply, Nat.add_assoc]

theorem chunkWrites_singleton (cur : Nat) (b : Byte) : chunkWrites cur [b] = [(trunc16 cur, b)] := rfl

/-- An address of the chip selects the cell of its number (R63, R218). -/
theorem cell_trunc16 {n : Nat} (h : n < 8192) : Config.cell (trunc16 n) = some n := by
  have hn : (trunc16 n).toNat = n := by
    rw [trunc16, BitVec.toNat_ofNat]
    omega
  rw [Config.cell_of_lt (hn.symm ▸ h), hn]

/-- Bytes written from `cur` upwards inside the chip: each in its own cell, every other cell as before (R68). -/
theorem cell_writeAll_chunkWrites (m : Memory) {cur : Nat} {bs : List Byte} (h : cur + bs.length ≤ 8192) (d : Nat) :
    Memory.cell (Memory.writeAll m (chunkWrites cur bs)) d =
      if cur ≤ d then (bs[d - cur]?).getD (Memory.cell m d) else Memory.cell m d := by
  induction bs using List.reverseRecOn with
  | nil => simp [chunkWrites, Memory.writeAll]
  | append_singleton bs b ih =>
    rw [List.length_append, List.length_singleton] at h
    rw [chunkWrites_append, chunkWrites_singleton, writeAll_append]
    change Memory.cell (Memory.writeAt _ (trunc16 (cur + bs.length)) b) d = _
    rw [Memory.cell_writeAt, cell_trunc16 (by omega), ih (by omega)]
    by_cases hd : cur + bs.length = d
    · subst hd
      simp
    · have hne : d - cur ≠ bs.length ∨ ¬ cur ≤ d := by omega
      rw [if_neg (by simpa using hd)]
      split
      · rw [List.getElem?_append]
        split
        · rfl
        · rw [List.getElem?_eq_none (by omega), List.getElem?_eq_none (by simp; omega)]
      · rfl

/-- Settles O37. -/
theorem chunkLandsContiguously : Obligations.ChunkLandsContiguously := by
  unfold Obligations.ChunkLandsContiguously
  intro s t cur bs hc hlen hchip hsck h
  obtain ⟨cur', u, hc', hu, rfl, -⟩ := exec_chunk_next h
  obtain rfl : cur' = cur := Option.some.inj (hc'.symm.trans hc)
  have hmem : (chunkWritten s u).mem = Memory.writeAll s.mem (chunkWrites cur' bs) := (writeCells_of_next hsck hu).2
  simp only [hmem, cell_writeAll_chunkWrites s.mem (bs := bs) (cur := cur') (by omega)]
  refine ⟨fun k hk => ?_, fun c hout => ?_⟩
  · rw [if_pos (Nat.le_add_right _ _), Nat.add_sub_cancel_left, List.getElem?_eq_getElem (by omega), Option.getD_some]
  · split
    · rw [List.getElem?_eq_none (by omega), Option.getD_none]
    · rfl

end Sys2Proof.Proofs
end

section
/-!
PROOFS. One activation of the control thread by its control state (10_state.md R33, 43_line_protocol.md R182), and what a step
makes of it while bytes land.
-/
namespace Sys2Proof.Proofs

open Sys2Proof Sys2Proof.Machine

/-! ## The thread by its control state -/

theorem thread_idle_nil {s : State} (hcs : s.cs = .idle) (hrx : s.rx = []) : s.thread = .next s.sleep := by
  simp only [State.thread, State.fetch, hcs, hrx, decode]

/-- A command letter whose digits are not all there is taken by itself (R182, log 20). -/
theorem thread_idle_letter {s : State} {c : Cmd} {rest : List Byte} (hcs : s.cs = .idle) (hrx : s.rx = c.byte :: rest)
    (hshort : rest.length < c.digits) : s.thread = .next { s with rx := rest, cs := .operands c 4 0 } := by
  simp only [State.thread, State.fetch, hcs, hrx, decode_command_of_short hshort, List.drop_succ_cons, List.drop_zero]

theorem thread_operands_digit {s : State} {c : Cmd} {k : Nat} {v : Word} {b : Byte} {rest : List Byte}
    (hcs : s.cs = .operands c (k + 1) v) (hrx : s.rx = b :: rest) :
    s.thread = .next { s with rx := rest, cs := .operands c k (hexPush v b) } := by
  simp only [State.thread, State.fetch, hcs, State.readHexDigit_cons hrx, hexPush]

theorem thread_operands_nil {s : State} {c : Cmd} {k : Nat} {v : Word} (hcs : s.cs = .operands c (k + 1) v)
    (hrx : s.rx = []) : s.thread = .next s.sleep := by
  simp only [State.thread, State.fetch, hcs, State.readHexDigit_nil hrx]

theorem thread_operands_zero {s : State} {c : Cmd} {v : Word} (hcs : s.cs = .operands c 0 v) :
    s.thread = .next (s.operandRead c v) := by
  simp only [State.thread, State.fetch, hcs]

theorem thread_exec_r {s : State} {a : Word} (hcs : s.cs = .exec .r) (ha : s.opA = some a) : s.thread = exec (.r a) s := by
  simp only [State.thread, State.fetch, hcs, State.bodyOf, Fetched.need, ha]

theorem thread_exec_w {s : State} {a : Word} {v : Byte} (hcs : s.cs = .exec .w) (ha : s.opA = some a)
    (hv : s.opV = some v) : s.thread = exec (.w a v) s := by
  simp only [State.thread, State.fetch, hcs, State.bodyOf, Fetched.need, ha, hv]

theorem thread_exec_d {s : State} {a l : Word} (hcs : s.cs = .exec .d) (ha : s.opA = some a) (hl : s.opL = some l) :
    s.thread = exec (.d a l) s := by
  simp only [State.thread, State.fetch, hcs, State.bodyOf, Fetched.need, ha, hl]

theorem thread_bpWrite {s : State} (hcs : s.cs = .bpWrite) (hlen : 16 ≤ s.rx.length) :
    s.thread = exec (.chunk (s.rx.take 16)) { s with rx := s.rx.drop 16 } := by
  simp only [State.thread, State.fetch, hcs, decode_bulk_of_length hlen]

/-- The step of the session that a control state stands for (R210). -/
def sessionStep : Control → Option Instr
  | .bpInit => some .bpInit
  | .bpAwait => some .bpAwaitChunk
  | .bpWrite => some .bpWriteChunk
  | .bpAck => some .bpAck
  | .bpAdvance => some .bpAdvance
  | .idle | .operands _ _ _ | .exec _ => none

/-- In every session state but BP_WRITE the thread runs the state's step, whatever is in RX (R210). -/
theorem thread_of_sessionStep {s : State} {c : Control} {i : Instr} (hcs : s.cs = c) (hi : sessionStep c = some i)
    (hc : c ≠ .bpWrite) : s.thread = exec i s := by
  cases c with
  | bpWrite => exact absurd rfl hc
  | idle => cases hi
  | operands c k v => cases hi
  | exec c => cases hi
  | _ => cases hi; simp only [State.thread, State.fetch, hcs]

/-- Settles O48. -/
theorem threadFollowsTheControlState : Obligations.ThreadFollowsTheControlState := by
  unfold Obligations.ThreadFollowsTheControlState
  refine fun s => ⟨thread_idle_nil, fun c rest => thread_idle_letter, fun h => ?_, fun h => ?_, fun h hlen => ?_,
    fun h => ?_, fun h => ?_, fun a => thread_exec_r, fun a v => thread_exec_w, fun a l => thread_exec_d⟩
  · exact thread_of_sessionStep h rfl (by decide)
  · exact thread_of_sessionStep h rfl (by decide)
  · rw [thread_bpWrite h hlen, exec_bpWriteChunk_eq hlen]
  · exact thread_of_sessionStep h rfl (by decide)
  · exact thread_of_sessionStep h rfl (by decide)

/-- The second operand of `W` and `D` is read once OP_A holds the first (R91). -/
theorem operandRead_w_first {s : State} (h : s.opA = none) (v : Word) :
    s.operandRead .w v = { s with opA := some v, cs := .operands .w 2 0 } := by
  simp [State.operandRead, h, Cmd.tailDigits]

theorem operandRead_w_second {s : State} (h : s.opA ≠ none) (v : Word) :
    s.operandRead .w v = { s with opV := some (v.setWidth 8), cs := .exec .w } := by
  simp [State.operandRead, h]

theorem operandRead_d_first {s : State} (h : s.opA = none) (v : Word) :
    s.operandRead .d v = { s with opA := some v, cs := .operands .d 4 0 } := by
  simp [State.operandRead, h, Cmd.tailDigits]

theorem operandRead_d_second {s : State} (h : s.opA ≠ none) (v : Word) :
    s.operandRead .d v = { s with opL := some v, cs := .exec .d } := by
  simp [State.operandRead, h]

/-- Settles O49. -/
theorem operandByteIsADigit : Obligations.OperandByteIsADigit := by
  unfold Obligations.OperandByteIsADigit
  refine ⟨fun s c k v hcs => ⟨fun b rest => thread_operands_digit hcs, thread_operands_nil hcs⟩, fun s v => ⟨fun hcs => ?_,
    fun hcs => ?_, fun hcs => ⟨fun ha => ?_, fun ha => ?_⟩, fun hcs => ⟨fun ha => ?_, fun ha => ?_⟩⟩⟩ <;>
    rw [thread_operands_zero hcs]
  · rfl
  · rfl
  · rw [operandRead_w_first ha]
  · rw [operandRead_w_second ha]
  · rw [operandRead_d_first ha]
  · rw [operandRead_d_second ha]

/-! ## A step of a given move -/

/-- The bytes that land meanwhile all find room behind what the activation left: nothing is drained off CS = IDLE or with
another command than RESYNC. -/
theorem land_of_room {s t : State} {w : List (List Byte)} (hdrain : s.drainAhead = false)
    (h : ∀ k, k < w.length → s.occupancy t k + (w.take (k + 1)).flatten.length ≤ Config.rxCapacity) :
    s.land w t = .next { t with rx := t.rx ++ w.flatten } := by
  have hkept := s.kept_eq w hdrain
  rw [State.land_eq (.inl (s.drained_eq w hdrain)) (by rwa [hkept]), hkept]

/-- The bytes of a RESYNC's step: the first entry is drained, the others are kept (R187, D27). -/
theorem land_of_drain {s t : State} {d : List Byte} {e : List (List Byte)} (hdrain : s.drainAhead = true)
    (hcs : s.cs ≠ .bpWrite) (ht : t.rx = []) (hd : s.rx.length - 1 + d.length ≤ Config.rxCapacity)
    (he : e.flatten.length ≤ Config.rxCapacity) : s.land (d :: e) t = .next { t with rx := e.flatten } := by
  have hkept : s.kept (d :: e) = e := by simp [State.kept, hdrain]
  have hdrained : s.drained (d :: e) = d := by simp [State.drained, hdrain]
  rw [State.land_eq (.inr (by rwa [hdrained])), hkept, ht, List.nil_append]
  intro k _
  have hsub : ((e.take (k + 1)).flatten).length ≤ e.flatten.length := (List.take_sublist _ _).flatten.length_le
  rw [hkept, State.occupancy, if_neg hcs, ht, List.length_nil, Nat.zero_add]
  exact hsub.trans he

/-- A decoded RESYNC was the oldest byte of RX. -/
theorem rx_of_decode_resync {bs rest : List Byte} {c : Byte} (h : decode .command bs = .ok (.resync c, rest)) :
    bs = c :: rest := by
  rcases decode_command_ok h with ⟨c', -, hbs, hi⟩ | ⟨k, ds, -, -, hi⟩
  · cases hi
    exact hbs
  · cases k <;> cases hi

/-- Settles O47: the move of the outside world leaves a state from which the thread runs what the decoder reads. -/
theorem stepRunsTheDecodedInstruction : Obligations.StepRunsTheDecodedInstruction := by
  unfold Obligations.StepRunsTheDecodedInstruction
  intro s s1 us n bs w later i rest hscript hroom hdecode hs1
  have henv : s.environment = .go (s.pass us bs n later) w := State.environment_pass hscript (.inr hroom)
  have hpassed : s1 = { s.pass us bs n later with rx := rest } := by
    rw [hs1]
    simp only [State.pass, State.delayUs, runDown_eq]
  have hthread : (s.pass us bs n later).thread = exec i s1 := by
    rcases hdecode with ⟨hcs, hd⟩ | ⟨hcs, hd⟩
    · rw [thread_of_decode_command (s := s.pass us bs n later) hcs hd, hpassed]
    · obtain ⟨hlen, rfl, rfl⟩ := decode_bulk_ok hd
      rw [thread_bpWrite (s := s.pass us bs n later) hcs hlen, hpassed, State.pass_rx]
  refine ⟨?alone, fun t ht hi hk => ?lands, fun c d e hi hw hd he => ?drains⟩
  case alone =>
    rintro rfl
    rw [step_of_go_nil henv, hthread]
  case lands =>
    have hdrain : (s.pass us bs n later).drainAhead = false := by
      rcases hdecode with ⟨-, hd⟩ | ⟨hcs, -⟩
      · refine State.drainAhead_of_decode fun c r hr => hi c ?_
        cases hd.symm.trans hr
        rfl
      · exact State.drainAhead_of_cs (by simp [hcs])
    rw [step_of_go henv, hthread, ht, andThen_next, land_of_room hdrain]
    intro k hkw
    simpa only [State.occupancy, State.pass_cs, State.pass_rx, List.length_append] using hk k hkw
  case drains =>
    subst hi hw
    rcases hdecode with ⟨hcs, hdec⟩ | ⟨hcs, hdec⟩
    · have hdrain : (s.pass us bs n later).drainAhead = true := State.drainAhead_iff.2 ⟨hcs, c, rest, hdec⟩
      have hlen : (s.pass us bs n later).rx.length - 1 = rest.length := by
        rw [State.pass_rx, rx_of_decode_resync hdec, List.length_cons, Nat.add_sub_cancel]
      rw [step_of_go henv, hthread, exec_resync, andThen_next, land_of_drain hdrain (by simp [hcs]) rfl (by rwa [hlen]) he,
        hpassed, ← hcs]
      rfl
    · cases (decode_bulk_ok hdec).2.1

end Sys2Proof.Proofs
end

section
/-!
PROOFS. All that one activation of the thread can do, and from it what a step that is no reset does to the streams and the
protocol mode (10_state.md section 7, 60_exceptions.md section 5).
-/
namespace Sys2Proof.Proofs

open Sys2Proof Sys2Proof.Machine

/-! ## The activations -/

/-- What an activation of the thread from `s` that answers `t` has been (R33, R182, R210). -/
inductive Activation (s t : State) : Prop where
  /-- RX is empty where a byte is needed: only time passes. -/
  | sleep (hcs : s.cs.isBulk = false) (ht : t = s.sleep)
  /-- A command decoded from RX at CS = IDLE, its bytes taken off. -/
  | command (i : Instr) (rest : List Byte) (hcs : s.cs = .idle) (hd : decode .command s.rx = .ok (i, rest))
      (ht : exec i { s with rx := rest } = .next t)
  /-- A command letter whose digits are not all there. -/
  | letter (c : Cmd) (hcs : s.cs = .idle) (ht : t = { s with rx := s.rx.drop 1, cs := .operands c 4 0 })
  /-- A digit of an operand. -/
  | digit (c : Cmd) (k : Nat) (v v' : Word) (hcs : s.cs = .operands c (k + 1) v)
      (ht : t = { s with rx := s.rx.drop 1, cs := .operands c k v' })
  /-- The end of an operand. -/
  | operand (c : Cmd) (v : Word) (hcs : s.cs = .operands c 0 v) (ht : t = s.operandRead c v)
  /-- The body of a command whose operands have been read. -/
  | body (c : Cmd) (i : Instr) (hcs : s.cs = .exec c) (hi : s.bodyOf c = .run i s) (ht : exec i s = .next t)
  /-- A step of the session. -/
  | session (i : Instr) (hi : sessionStep s.cs = some i) (ht : exec i s = .next t)

/-- The body of a command runs in the state it is found in. -/
theorem bodyOf_run {s s1 : State} {c : Cmd} {i : Instr} (h : s.bodyOf c = .run i s1) :
    s1 = s ∧ ∃ a : Word, (c = .r ∧ i = .r a) ∨ (c = .w ∧ ∃ v, i = .w a v) ∨ (c = .d ∧ ∃ l, i = .d a l) ∨
      (c = .p ∧ i = .p a) := by
  unfold State.bodyOf Fetched.need at h
  cases c with
  | r =>
    simp only at h
    split at h
    · cases h; exact ⟨rfl, _, .inl ⟨rfl, rfl⟩⟩
    · cases h
  | w =>
    simp only at h
    split at h
    · split at h
      · cases h; exact ⟨rfl, _, .inr (.inl ⟨rfl, _, rfl⟩)⟩
      · cases h
    · cases h
  | d =>
    simp only at h
    split at h
    · split at h
      · cases h; exact ⟨rfl, _, .inr (.inr (.inl ⟨rfl, _, rfl⟩))⟩
      · cases h
    · cases h
  | p =>
    simp only at h
    split at h
    · cases h; exact ⟨rfl, _, .inr (.inr (.inr ⟨rfl, rfl⟩))⟩
    · cases h

theorem activation_of_session {s t : State} {c : Control} {i : Instr} (hcs : s.cs = c) (hi : sessionStep c = some i)
    (hc : c ≠ .bpWrite) (h : s.thread = .next t) : Activation s t :=
  .session i (hcs ▸ hi) (thread_of_sessionStep hcs hi hc ▸ h)

/-- Every activation that answers is one of these. -/
theorem activation_of_thread {s t : State} (h : s.thread = .next t) : Activation s t := by
  cases hcs : s.cs with
  | idle =>
    cases hd : decode .command s.rx with
    | ok q =>
      rw [thread_of_decode_command hcs hd] at h
      exact .command q.1 q.2 hcs hd h
    | error e =>
      simp only [State.thread, State.fetch, hcs, hd] at h
      cases e with
      | empty => cases h; exact .sleep (by simp [hcs, Control.isBulk]) rfl
      | truncated c n => cases h; exact .letter c hcs rfl
      | shortChunk n => cases h; exact .sleep (by simp [hcs, Control.isBulk]) rfl
  | operands c k v =>
    cases k with
    | zero =>
      rw [thread_operands_zero hcs] at h
      exact .operand c v hcs (Host.Outcome.next.inj h).symm
    | succ k =>
      cases hrx : s.rx with
      | nil =>
        rw [thread_operands_nil hcs hrx] at h
        exact .sleep (by simp [hcs, Control.isBulk]) (Host.Outcome.next.inj h).symm
      | cons b rest =>
        rw [thread_operands_digit hcs hrx] at h
        refine .digit c k v (hexPush v b) hcs ((Host.Outcome.next.inj h).symm.trans ?_)
        rw [hrx, List.drop_succ_cons, List.drop_zero]
  | exec c =>
    simp only [State.thread, State.fetch, hcs] at h
    cases hb : s.bodyOf c with
    | run i s1 =>
      obtain ⟨rfl, -⟩ := bodyOf_run hb
      rw [hb] at h
      exact .body c i hcs hb h
    | stay s1 =>
      unfold State.bodyOf Fetched.need at hb
      cases c <;> simp only at hb <;> (repeat' split at hb) <;> cases hb
    | stop f =>
      rw [hb] at h
      cases h
  | bpInit => exact activation_of_session hcs rfl (by decide) h
  | bpAwait => exact activation_of_session hcs rfl (by decide) h
  | bpWrite =>
    refine .session .bpWriteChunk (by rw [hcs]; rfl) ?_
    rcases Nat.lt_or_ge s.rx.length 16 with hlen | hlen
    · simp only [State.thread, State.fetch, hcs, decode, if_neg (Nat.not_le.2 hlen)] at h
      cases h
    · rwa [exec_bpWriteChunk_eq hlen, ← thread_bpWrite hcs hlen]
  | bpAck => exact activation_of_session hcs rfl (by decide) h
  | bpAdvance => exact activation_of_session hcs rfl (by decide) h

/-! ## The streams over a step -/

/-- The bytes 0x06 that the activation of a control state sends (R214). -/
def acksAt (c : Control) : Nat := if c = .bpAck then 1 else 0

theorem streamsForward_of_suffix {s s1 t : State} {n : Nat} (hrx : s1.rx <:+ s.rx) (htx : s1.tx = s.tx)
    (hclock : s1.clockUs = s.clockUs) (h : StreamsForward s1 t n) : StreamsForward s t n :=
  ⟨h.rx.trans hrx, htx ▸ h.tx, hclock ▸ h.clock⟩

/-- What the decoder assembles sends no 0x06. -/
theorem acksOf_decoded {bs rest : List Byte} {i : Instr} (h : decode .command bs = .ok (i, rest)) : acksOf i = 0 := by
  rcases decode_command_ok h with ⟨c, -, -, rfl⟩ | ⟨k, ds, -, -, rfl⟩
  · rfl
  · cases k <;> rfl

/-- Decoding takes bytes off the front. -/
theorem suffix_of_decode {bs rest : List Byte} {i : Instr} (h : decode .command bs = .ok (i, rest)) : rest <:+ bs := by
  rcases decode_command_ok h with ⟨c, -, rfl, -⟩ | ⟨k, ds, -, rfl, -⟩
  · exact List.suffix_cons c rest
  · exact (List.suffix_append ds rest).trans (List.suffix_cons _ _)

theorem acksOf_body {s s1 : State} {c : Cmd} {i : Instr} (h : s.bodyOf c = .run i s1) : acksOf i = 0 := by
  obtain ⟨-, a, ⟨-, rfl⟩ | ⟨-, v, rfl⟩ | ⟨-, l, rfl⟩ | ⟨-, rfl⟩⟩ := bodyOf_run h <;> rfl

/-- The streams and the clock go forward in every activation, with one byte 0x06 at BP_ACK and none elsewhere. -/
theorem thread_streamsForward {s t : State} (h : s.thread = .next t) : StreamsForward s t (acksAt s.cs) := by
  cases activation_of_thread h with
  | sleep hcs ht =>
    have hn : acksAt s.cs = 0 := if_neg fun he => by rw [he] at hcs; cases hcs
    rw [ht, hn]
    exact streamsForward_of_quiet rfl rfl (Nat.le_add_right _ _)
  | command i rest hcs hd ht =>
    have hf := exec_streamsForward ht
    rw [acksOf_decoded hd] at hf
    rw [hcs]
    exact streamsForward_of_suffix (s1 := { s with rx := rest }) (suffix_of_decode hd) rfl rfl hf
  | letter c hcs ht =>
    rw [ht, hcs]
    exact ⟨List.drop_suffix _ _, ⟨[], (List.append_nil _).symm, rfl⟩, Nat.le_refl _⟩
  | digit c k v v' hcs ht =>
    rw [ht, hcs]
    exact ⟨List.drop_suffix _ _, ⟨[], (List.append_nil _).symm, rfl⟩, Nat.le_refl _⟩
  | operand c v hcs ht =>
    rw [ht, hcs, State.operandRead_frame]
    exact streamsForward_of_quiet rfl rfl (Nat.le_refl _)
  | body c i hcs hi ht =>
    have hf := exec_streamsForward ht
    rw [acksOf_body hi] at hf
    rwa [hcs]
  | session i hi ht =>
    have hf := exec_streamsForward ht
    have hn : acksOf i = acksAt s.cs := by
      cases hcs : s.cs <;> rw [hcs] at hi <;> cases hi <;> rfl
    rwa [hn] at hf

/-- A step that is no reset: the activation from where the outside world's move left the block, then what landed. -/
theorem step_of_go_next {s s1 t : State} {w : List (List Byte)} (henv : s.environment = .go s1 w)
    (h : step s = .next t) : ∃ u, s1.thread = .next u ∧ t = { u with rx := u.rx ++ (s1.kept w).flatten } := by
  rw [step_of_go henv] at h
  obtain ⟨u, hu, hland⟩ := andThen_eq_next h
  exact ⟨u, hu, (State.land_next hland).1⟩

/-- The outside world's move leaves the registers, TX, the pins and the cells; bytes land behind those in RX. -/
theorem environment_go_frame {s s1 : State} {w : List (List Byte)} (henv : s.environment = .go s1 w) :
    s1.cs = s.cs ∧ s1.tx = s.tx ∧ s1.mem = s.mem ∧ s.rx <+: s1.rx ∧ s.clockUs ≤ s1.clockUs := by
  obtain ⟨us, bs, n, rest, d, rfl, -⟩ := State.environment_go henv
  exact ⟨rfl, rfl, rfl, ⟨bs, rfl⟩, Nat.le_add_right _ _⟩

/-- Settles O51: landing bytes and the outside world's move leave TX alone, and the activation sends one byte 0x06 at BP_ACK
alone. -/
theorem ackBytesCountChunks : Obligations.AckBytesCountChunks := by
  unfold Obligations.AckBytesCountChunks
  intro s s1 t w henv h
  obtain ⟨hcs, htx, -⟩ := environment_go_frame henv
  obtain ⟨u, hu, rfl⟩ := step_of_go_next henv h
  obtain ⟨text, htext, hack⟩ := (thread_streamsForward hu).tx
  calc ackCount u.tx
    _ = ackCount s1.tx + ackCount text := by rw [htext, ackCount_append]
    _ = ackCount s.tx + if s.cs = .bpAck then 1 else 0 := by rw [htx, hack, hcs, acksAt]

/-- Settles O56: what an activation leaves in RX is the end of what it found; a RESYNC leaves nothing and drains the first
entry of what lands. -/
theorem streamsAndClockMoveForward : Obligations.StreamsAndClockMoveForward := by
  unfold Obligations.StreamsAndClockMoveForward
  intro s s1 t w henv h
  obtain ⟨-, htx, -, hrx, hclock⟩ := environment_go_frame henv
  obtain ⟨u, hu, rfl⟩ := step_of_go_next henv h
  have hf := thread_streamsForward hu
  obtain ⟨text, htext, -⟩ := hf.tx
  refine ⟨hrx, ?_, ⟨text, by rw [← htx, htext]⟩, hclock.trans hf.clock⟩
  cases hdrain : s1.drainAhead with
  | false => exact .inl ⟨u.rx, hf.rx, by rw [State.kept_eq w hdrain]⟩
  | true =>
    obtain ⟨hcs, c, rest, hd⟩ := State.drainAhead_iff.1 hdrain
    refine .inr ⟨hcs, ⟨c, rest, hd⟩, ?_⟩
    rw [thread_of_decode_command hcs hd, exec_resync] at hu
    cases hu
    simp [State.kept, hdrain]

/-! ## The protocol mode over a step -/

/-- A command's body ends at CS = IDLE; `P` enters the session. -/
theorem cs_of_exec_assembled {k : Cmd} {ds : List Byte} {s t : State} (h : exec (k.assemble ds) s = .next t)
    (hk : k ≠ .p) : t.cs = .idle := by
  cases k with
  | r =>
    obtain ⟨c, v, n, rfl⟩ := exec_r_next h
    rfl
  | w =>
    obtain ⟨c, rfl⟩ := exec_w_next h
    rfl
  | d =>
    obtain ⟨c, dir, n, text, -, rfl⟩ := exec_d_next h
    rfl
  | p => exact absurd rfl hk

theorem isBulk_of_sessionStep {c : Control} {i : Instr} (h : sessionStep c = some i) : c.isBulk = true := by
  cases c with
  | idle => cases h
  | operands c k v => cases h
  | exec c => cases h
  | _ => rfl

/-- A step of the session leaves it by completion or timeout alone (R216, R217, R223). -/
theorem session_left {i : Instr} {s t : State} (hi : sessionStep s.cs = some i) (h : exec i s = .next t)
    (ht : t.cs.isBulk = false) :
    (s.cs = .bpAdvance ∧ t = sessionEnded s Config.texts.done) ∨
      (s.cs = .bpAwait ∧ s.rx.length < 16 ∧ t = sessionEnded s Config.texts.timeout) := by
  cases hcs : s.cs with
  | idle => rw [hcs] at hi; cases hi
  | operands c k v => rw [hcs] at hi; cases hi
  | exec c => rw [hcs] at hi; cases hi
  | bpInit =>
    rw [hcs] at hi
    cases hi
    obtain ⟨a, -, rfl⟩ := exec_bpInit_next h
    cases ht
  | bpAwait =>
    rw [hcs] at hi
    cases hi
    obtain ⟨t0, -, ⟨-, rfl⟩ | ⟨hlen, rfl⟩ | ⟨-, rfl⟩⟩ := exec_bpAwaitChunk_next h
    · cases ht
    · exact .inr ⟨rfl, hlen, rfl⟩
    · rw [State.sleep_cs, hcs] at ht
      cases ht
  | bpWrite =>
    rw [hcs] at hi
    cases hi
    obtain ⟨cur, u, -, -, rfl, -⟩ := exec_chunk_next (exec_bpWriteChunk_next h).2
    cases ht
  | bpAck =>
    rw [hcs] at hi
    cases hi
    cases h
    cases ht
  | bpAdvance =>
    rw [hcs] at hi
    cases hi
    obtain ⟨cur, -, rfl | rfl⟩ := exec_bpAdvance_next h
    · cases ht
    · exact .inl ⟨rfl, rfl⟩

/-- In bulk-data mode an activation is a step of the session. -/
theorem session_of_activation {s t : State} (h : Activation s t) (hb : s.cs.isBulk = true) :
    ∃ i, sessionStep s.cs = some i ∧ exec i s = .next t := by
  cases h with
  | session i hi ht => exact ⟨i, hi, ht⟩
  | sleep hcs ht => rw [hcs] at hb; cases hb
  | command i rest hcs hd ht => rw [hcs] at hb; cases hb
  | letter c hcs ht => rw [hcs] at hb; cases hb
  | digit c k v v' hcs ht => rw [hcs] at hb; cases hb
  | operand c v hcs ht => rw [hcs] at hb; cases hb
  | body c i hcs hi ht => rw [hcs] at hb; cases hb

/-- Settles O54. -/
theorem bulkModeLeftOnlyByItsTwoOutcomes : Obligations.BulkModeLeftOnlyByItsTwoOutcomes := by
  unfold Obligations.BulkModeLeftOnlyByItsTwoOutcomes
  intro s s1 t w henv h hb ht
  obtain ⟨hcs, htx, hmem, -⟩ := environment_go_frame henv
  obtain ⟨u, hu, rfl⟩ := step_of_go_next henv h
  rw [← hcs] at hb
  have hkept : s1.kept w = w := State.kept_eq w (State.drainAhead_of_cs fun he => by rw [he] at hb; cases hb)
  obtain ⟨i, hi, hexec⟩ := session_of_activation (activation_of_thread hu) hb
  rw [hkept, ← hcs, ← htx, ← hmem]
  rcases session_left hi hexec ht with ⟨hadv, rfl⟩ | ⟨hawait, hlen, rfl⟩
  · exact ⟨rfl, rfl, rfl, .inl ⟨hadv, rfl⟩⟩
  · exact ⟨rfl, rfl, rfl, .inr ⟨hawait, rfl, hlen⟩⟩

/-- Outside a session the thread enters one by a `P` command alone: taken whole, at the end of its operand, or as a body
whose registers have been set (R186). -/
theorem session_entered {s t : State} (h : Activation s t) (hb : s.cs.isBulk = false) (ht : t.cs.isBulk = true) :
    (s.cs = .idle ∧ ∃ a rest, decode .command s.rx = .ok (.p a, rest) ∧
      t = { s with rx := rest, opA := some a, cs := .bpInit }) ∨
    (∃ v, s.cs = .operands .p 0 v ∧ t = { s with opA := some v, cs := .bpInit }) ∨ s.cs = .exec .p := by
  cases h with
  | sleep hcs he => rw [he, State.sleep_cs, hcs] at ht; cases ht
  | letter c hcs he => rw [he] at ht; cases ht
  | digit c k v v' hcs he => rw [he] at ht; cases ht
  | session i hi he => rw [isBulk_of_sessionStep hi] at hb; cases hb
  | command i rest hcs hd he =>
    rcases decode_command_ok hd with ⟨c, -, -, rfl⟩ | ⟨k, ds, -, -, rfl⟩
    · cases he
      cases ht
    · by_cases hk : k = .p
      · subst hk
        cases he
        exact .inl ⟨hcs, _, rest, hd, rfl⟩
      · rw [cs_of_exec_assembled he hk] at ht
        cases ht
  | operand c v hcs he =>
    cases c with
    | p => exact .inr (.inl ⟨v, hcs, he⟩)
    | r => rw [he] at ht; cases ht
    | w =>
      rcases eq_or_ne s.opA none with ha | ha
      · rw [he, operandRead_w_first ha] at ht; cases ht
      · rw [he, operandRead_w_second ha] at ht; cases ht
    | d =>
      rcases eq_or_ne s.opA none with ha | ha
      · rw [he, operandRead_d_first ha] at ht; cases ht
      · rw [he, operandRead_d_second ha] at ht; cases ht
  | body c i hcs hi he =>
    obtain ⟨-, a, ⟨-, rfl⟩ | ⟨-, v, rfl⟩ | ⟨-, l, rfl⟩ | ⟨rfl, rfl⟩⟩ := bodyOf_run hi
    · obtain ⟨c, v, n, rfl⟩ := exec_r_next he
      cases ht
    · obtain ⟨c, rfl⟩ := exec_w_next he
      cases ht
    · obtain ⟨c, dir, n, text, -, rfl⟩ := exec_d_next he
      cases ht
    · exact .inr (.inr hcs)

/-- Settles O55: the body of `P` is no control state of the invariant, and a `P` is no RESYNC, so what lands is kept. -/
theorem bulkModeEnteredOnlyByP : Obligations.BulkModeEnteredOnlyByP := by
  unfold Obligations.BulkModeEnteredOnlyByP
  intro s s1 t w hinv henv h hb ht
  obtain ⟨hcs, htx, hmem, -⟩ := environment_go_frame henv
  obtain ⟨u, hu, rfl⟩ := step_of_go_next henv h
  rw [← hcs, ← htx, ← hmem]
  rw [← hcs] at hb
  rcases session_entered (activation_of_thread hu) hb ht with ⟨hidle, a, rest, hd, rfl⟩ | ⟨v, hop, rfl⟩ | hp
  · have hdrain : s1.drainAhead = false := State.drainAhead_of_decode fun c r hr => by cases hd.symm.trans hr
    rw [State.kept_eq w hdrain]
    exact ⟨.inl ⟨hidle, a, rest, hd, rfl, rfl⟩, rfl, rfl, rfl⟩
  · rw [State.kept_eq w (State.drainAhead_of_cs (by simp [hop]))]
    exact ⟨.inr ⟨v, hop, rfl, rfl⟩, rfl, rfl, rfl⟩
  · obtain ⟨-, hcontrol, -⟩ := hinv
    rw [hcs] at hp
    simp [State.controlOk, hp] at hcontrol

end Sys2Proof.Proofs
end

section
/-!
PROOFS. The invariant (10_state.md, 93_implementation_defined.md U5, U10, U11): it holds at reset, the outside world's move
keeps it, and from a state of it every activation of the thread answers with a state of it.
-/
namespace Sys2Proof.Proofs

open Sys2Proof Sys2Proof.Machine

/-- Settles O43. -/
theorem resetLeavesTheGivenValues : Obligations.ResetLeavesTheGivenValues := by
  unfold Obligations.ResetLeavesTheGivenValues
  exact ⟨rfl, rfl, rfl, rfl, rfl, rfl, rfl, rfl, rfl, rfl, rfl, rfl, rfl, rfl, rfl, rfl⟩

/-- A block that has booted meets the invariant, whatever canonical cells the chip kept (R45, R290). -/
theorem inv_restart (s : State) {m : Memory} (rest : List EnvMove) (hm : Memory.wf m = true) : Inv (s.restart m rest) :=
  ⟨rfl, rfl, hm, Nat.zero_le _, Nat.zero_le _⟩

/-- Settles O44. -/
theorem resetMeetsTheInvariant : Obligations.ResetMeetsTheInvariant :=
  ⟨rfl, rfl, State.reset_mem_wf, Nat.zero_le _, Nat.zero_le _⟩

/-! ## The clauses of the invariant as propositions -/

theorem pinsAtRest_iff {s : State} : s.pinsAtRest = true ↔
    s.sck = false ∧ s.rck = true ∧ s.weN = true ∧ s.busyUs = 0 ∧ (s.dir = 0x00 ∨ s.dir = 0xFF) := by
  simp [State.pinsAtRest, and_assoc]

theorem noOperands_iff {s : State} : s.noOperands = true ↔ s.opA = none ∧ s.opV = none ∧ s.opL = none := by
  simp [State.noOperands, and_assoc]

/-- The registers of a session from `st` whose next chunk goes to `cur` (R29, R30, R46, R215). -/
structure SessionAt (s : State) (st : Word) (cur : Nat) : Prop where
  idx : s.idx = none
  opA : s.opA = some st
  opV : s.opV = none
  opL : s.opL = none
  start : s.start = some st
  maxb : s.maxb = some (maxbOf st)
  cursor : s.cursor = some cur
  le : st.toNat ≤ cur
  chunks : (cur - st.toNat) % 16 = 0
  inside : cur = st.toNat ∨ cur < 8192

theorem sessionOpen_of_sessionAt {s : State} {st : Word} {cur : Nat} (h : SessionAt s st cur) : s.sessionOpen = true := by
  obtain ⟨hidx, hA, hV, hL, hs, hm, hc, hle, hmod, hin⟩ := h
  simp [State.sessionOpen, hidx, hA, hV, hL, hs, hm, hc, hle, hmod, hin]

theorem exists_sessionAt {s : State} (h : s.sessionOpen = true) : ∃ st cur, SessionAt s st cur := by
  unfold State.sessionOpen at h
  rw [Bool.and_eq_true] at h
  obtain ⟨hregs, hcur⟩ := h
  simp only [Bool.and_eq_true, beq_iff_eq, Option.isNone_iff_eq_none] at hregs
  obtain ⟨⟨⟨hidx, hA⟩, hV⟩, hL⟩ := hregs
  split at hcur
  · rename_i st mb cur hs hm hc
    simp only [Bool.and_eq_true, beq_iff_eq, decide_eq_true_eq, Bool.or_eq_true] at hcur
    obtain ⟨⟨⟨rfl, hle⟩, hmod⟩, hin⟩ := hcur
    exact ⟨st, cur, hidx, hA.trans hs, hV, hL, hs, hm, hc, hle, hmod, hin⟩
  · cases hcur

theorem controlOk_idle {s : State} (hcs : s.cs = .idle) :
    s.controlOk = true ↔ s.noOperands = true ∧ s.noSession = true := by
  simp [State.controlOk, hcs]

theorem controlOk_operands {s : State} {c : Cmd} {k : Nat} {v : Word} (hcs : s.cs = .operands c k v) :
    s.controlOk = true ↔ s.noSession = true ∧ s.opV = none ∧ s.opL = none ∧ (s.opA = none ∨ 0 < Cmd.tailDigits c) ∧
      k ≤ s.operandDigits c ∧ v.toNat < 16 ^ (s.operandDigits c - k) := by
  simp [State.controlOk, hcs, and_assoc]

theorem controlOk_exec_r {s : State} (hcs : s.cs = .exec .r) :
    s.controlOk = true ↔ s.noSession = true ∧ s.opA.isSome = true ∧ s.opV = none ∧ s.opL = none := by
  simp [State.controlOk, hcs, and_assoc]

theorem controlOk_exec_w {s : State} (hcs : s.cs = .exec .w) :
    s.controlOk = true ↔ s.noSession = true ∧ s.opA.isSome = true ∧ s.opV.isSome = true ∧ s.opL = none := by
  simp [State.controlOk, hcs, and_assoc]

theorem controlOk_exec_d {s : State} (hcs : s.cs = .exec .d) :
    s.controlOk = true ↔ s.noSession = true ∧ s.opA.isSome = true ∧ s.opV = none ∧ s.opL.isSome = true := by
  simp [State.controlOk, hcs, and_assoc]

theorem controlOk_bpInit {s : State} (hcs : s.cs = .bpInit) :
    s.controlOk = true ↔ s.noSession = true ∧ s.opA.isSome = true ∧ s.opV = none ∧ s.opL = none := by
  simp [State.controlOk, hcs, and_assoc]

theorem controlOk_bpAwait {s : State} (hcs : s.cs = .bpAwait) :
    s.controlOk = true ↔ s.sessionOpen = true ∧ (s.inWait = true → s.t0.isSome = true) := by
  cases h : s.inWait <;> simp [State.controlOk, hcs, h]

theorem controlOk_bpWrite {s : State} (hcs : s.cs = .bpWrite) :
    s.controlOk = true ↔ s.sessionOpen = true ∧ s.t0.isSome = true ∧ s.inWait = false ∧ 16 ≤ s.rx.length := by
  simp [State.controlOk, hcs, State.chunkAvailable, and_assoc]

theorem controlOk_bpAck {s : State} (hcs : s.cs = .bpAck) :
    s.controlOk = true ↔ s.sessionOpen = true ∧ s.t0.isSome = true ∧ s.inWait = false := by
  simp [State.controlOk, hcs, and_assoc]

theorem controlOk_bpAdvance {s : State} (hcs : s.cs = .bpAdvance) :
    s.controlOk = true ↔ s.sessionOpen = true ∧ s.t0.isSome = true ∧ s.inWait = false := by
  simp [State.controlOk, hcs, and_assoc]

/-! ## Time and bytes from outside -/

theorem inv_delayUs {s : State} (h : Inv s) (n : Nat) : Inv (s.delayUs n) := by
  obtain ⟨hpins, hctl, hmem, htx, hrx⟩ := h
  obtain ⟨hsck, hrck, hweN, hbusy, hdir⟩ := pinsAtRest_iff.1 hpins
  exact ⟨pinsAtRest_iff.2 ⟨hsck, hrck, hweN, by simp [hbusy], hdir⟩, hctl, hmem, htx, hrx⟩

/-- The invariant does not bound RX from below but at BP_WRITE: bytes may land behind those in RX. -/
theorem inv_of_longer_rx {s : State} {rx : List Byte} (h : Inv s) (hlen : s.rx.length ≤ rx.length)
    (hcap : rx.length ≤ Config.rxCapacity) : Inv { s with rx := rx } := by
  obtain ⟨hpins, hctl, hmem, htx, -⟩ := h
  refine ⟨hpins, ?_, hmem, htx, hcap⟩
  cases hcs : s.cs with
  | bpWrite =>
    obtain ⟨hopen, ht0, hwait, hrx⟩ := (controlOk_bpWrite hcs).1 hctl
    exact (controlOk_bpWrite (by rfl)).2 ⟨hopen, ht0, hwait, hrx.trans hlen⟩
  | exec c => rw [State.controlOk, hcs] at hctl; cases c <;> exact hctl
  | _ => rw [State.controlOk, hcs] at hctl; exact hctl

/-- The outside world's move keeps the invariant. -/
theorem inv_environment {s s1 : State} {w : List (List Byte)} (h : Inv s) (henv : s.environment = .go s1 w) : Inv s1 := by
  obtain ⟨us, bs, n, rest, d, rfl, hroom⟩ := State.environment_go henv
  obtain ⟨hpins, hctl, hmem, htx, hrx⟩ := inv_delayUs h us
  have hcap : (s.rx ++ bs).length ≤ Config.rxCapacity := by
    rcases hroom with rfl | hroom
    · rwa [List.append_nil]
    · rwa [List.length_append]
  have hlanded : Inv { s.delayUs us with rx := s.rx ++ bs } :=
    inv_of_longer_rx ⟨hpins, hctl, hmem, htx, hrx⟩ (by simp) hcap
  obtain ⟨hpins, hctl, hmem, -, hrx⟩ := hlanded
  exact ⟨hpins, hctl, hmem, Nat.min_le_right _ _, hrx⟩

/-- Bytes that land while the thread acts keep the invariant. -/
theorem inv_land {s t u : State} {w : List (List Byte)} (h : Inv t) (hland : s.land w t = .next u) : Inv u := by
  obtain ⟨-, -, -, -, hrx⟩ := id h
  have hcap := State.land_rx_le hland hrx
  obtain ⟨rfl, -⟩ := State.land_next hland
  exact inv_of_longer_rx h (by simp) hcap

/-! ## Command bodies -/

/-- What a command's body needs of the state it starts in. -/
structure BodyReady (s : State) : Prop where
  pins : s.pinsAtRest = true
  session : s.noSession = true
  mem : Memory.wf s.mem = true
  tx : s.txSent ≤ s.tx.length
  rx : s.rx.length ≤ Config.rxCapacity

theorem bodyReady_of_inv {s : State} (h : Inv s) (hs : s.noSession = true) : BodyReady s := by
  obtain ⟨hpins, -, hmem, htx, hrx⟩ := h
  exact ⟨hpins, hs, hmem, htx, hrx⟩

theorem txSent_le_append {n : Nat} {tx : List Byte} (h : n ≤ tx.length) (text : List Byte) : n ≤ (tx ++ text).length := by
  rw [List.length_append]
  exact h.trans (Nat.le_add_right _ _)

theorem inv_exec_r {s : State} (h : BodyReady s) (a : Word) : ∃ t, exec (.r a) s = .next t ∧ Inv t := by
  obtain ⟨hsck, -, hweN, hbusy, -⟩ := pinsAtRest_iff.1 h.pins
  exact ⟨_, exec_r_eq hsck hbusy a, pinsAtRest_iff.2 ⟨rfl, rfl, hweN, hbusy, .inl rfl⟩,
    (controlOk_idle (by rfl)).2 ⟨rfl, h.session⟩, h.mem, txSent_le_append h.tx _, h.rx⟩

theorem inv_exec_w {s : State} (h : BodyReady s) (a : Word) (v : Byte) : ∃ t, exec (.w a v) s = .next t ∧ Inv t := by
  obtain ⟨hsck, -, -, hbusy, -⟩ := pinsAtRest_iff.1 h.pins
  exact ⟨_, exec_w_eq hsck hbusy a v, pinsAtRest_iff.2 ⟨rfl, rfl, rfl, rfl, .inr rfl⟩,
    (controlOk_idle (by rfl)).2 ⟨rfl, h.session⟩, Memory.writeAt_wf a v h.mem, txSent_le_append h.tx _, h.rx⟩

theorem inv_exec_d {s : State} (h : BodyReady s) (a l : Word) : ∃ t, exec (.d a l) s = .next t ∧ Inv t := by
  obtain ⟨hsck, -, hweN, hbusy, -⟩ := pinsAtRest_iff.1 h.pins
  obtain ⟨n, hn⟩ := exists_dumpCount_eq_succ l
  exact ⟨_, exec_d_eq hsck hbusy a hn, pinsAtRest_iff.2 ⟨rfl, rfl, hweN, hbusy, .inl rfl⟩,
    (controlOk_idle (by rfl)).2 ⟨rfl, h.session⟩, h.mem, txSent_le_append h.tx _, h.rx⟩

theorem inv_exec_p {s : State} (h : BodyReady s) (hV : s.opV = none) (hL : s.opL = none) (a : Word) :
    ∃ t, exec (.p a) s = .next t ∧ Inv t :=
  ⟨_, exec_p a s, h.pins, (controlOk_bpInit (by rfl)).2 ⟨h.session, rfl, hV, hL⟩, h.mem, h.tx, h.rx⟩

theorem inv_exec_resync {s : State} (h : BodyReady s) (hop : s.noOperands = true) (c : Byte) :
    ∃ t, exec (.resync c) s = .next t ∧ Inv t :=
  ⟨_, exec_resync c s, h.pins, (controlOk_idle (by rfl)).2 ⟨hop, h.session⟩, h.mem, h.tx, Nat.zero_le _⟩

/-! ## The activations -/

theorem inv_thread_idle {s : State} (h : Inv s) (hcs : s.cs = .idle) : ∃ t, s.thread = .next t ∧ Inv t := by
  obtain ⟨-, hctl, -⟩ := id h
  obtain ⟨hop, hsession⟩ := (controlOk_idle hcs).1 hctl
  obtain ⟨hA, hV, hL⟩ := noOperands_iff.1 hop
  have hready := bodyReady_of_inv h hsession
  cases hd : decode .command s.rx with
  | ok q =>
    obtain ⟨i, rest⟩ := q
    have hready : BodyReady { s with rx := rest } :=
      ⟨hready.pins, hready.session, hready.mem, hready.tx, (suffix_of_decode hd).length_le.trans hready.rx⟩
    rw [thread_of_decode_command hcs hd]
    rcases decode_command_ok hd with ⟨c, -, -, rfl⟩ | ⟨k, ds, -, -, rfl⟩
    · exact inv_exec_resync hready hop c
    · cases k with
      | r => exact inv_exec_r hready _
      | w => exact inv_exec_w hready _ _
      | d => exact inv_exec_d hready _ _
      | p => exact inv_exec_p hready hV hL _
  | error e =>
    simp only [State.thread, State.fetch, hcs, hd]
    cases e with
    | truncated c n =>
      refine ⟨_, rfl, hready.pins, (controlOk_operands (by rfl)).2 ⟨hsession, hV, hL, .inl hA, ?_⟩, hready.mem, hready.tx,
        (List.drop_suffix 1 s.rx).length_le.trans hready.rx⟩
      simp [State.operandDigits, hA]
    | _ => exact ⟨_, rfl, inv_delayUs h _⟩

/-- The end of an operand sets its register (R47, R91). -/
theorem inv_operandRead {s : State} {c : Cmd} {v : Word} (h : Inv s) (hcs : s.cs = .operands c 0 v) :
    Inv (s.operandRead c v) := by
  obtain ⟨hpins, hctl, hmem, htx, hrx⟩ := h
  obtain ⟨hsession, hV, hL, -, -, -⟩ := (controlOk_operands hcs).1 hctl
  cases c with
  | r => exact ⟨hpins, (controlOk_exec_r (by rfl)).2 ⟨hsession, rfl, hV, hL⟩, hmem, htx, hrx⟩
  | p => exact ⟨hpins, (controlOk_bpInit (by rfl)).2 ⟨hsession, rfl, hV, hL⟩, hmem, htx, hrx⟩
  | w =>
    rcases eq_or_ne s.opA none with hA | hA
    · rw [operandRead_w_first hA]
      exact ⟨hpins, (controlOk_operands (by rfl)).2 ⟨hsession, hV, hL, .inr (by decide), Nat.le_refl 2, by
        simp [State.operandDigits, Cmd.tailDigits]⟩, hmem, htx, hrx⟩
    · rw [operandRead_w_second hA]
      exact ⟨hpins, (controlOk_exec_w (by rfl)).2 ⟨hsession, Option.isSome_iff_ne_none.2 hA, rfl, hL⟩, hmem, htx, hrx⟩
  | d =>
    rcases eq_or_ne s.opA none with hA | hA
    · rw [operandRead_d_first hA]
      exact ⟨hpins, (controlOk_operands (by rfl)).2 ⟨hsession, hV, hL, .inr (by decide), Nat.le_refl 4, by
        simp [State.operandDigits, Cmd.tailDigits]⟩, hmem, htx, hrx⟩
    · rw [operandRead_d_second hA]
      exact ⟨hpins, (controlOk_exec_d (by rfl)).2 ⟨hsession, Option.isSome_iff_ne_none.2 hA, hV, rfl⟩, hmem, htx, hrx⟩

theorem operandDigits_le (s : State) (c : Cmd) : s.operandDigits c ≤ 4 := by
  unfold State.operandDigits
  split
  · exact Nat.le_refl _
  · cases c <;> decide

theorem inv_thread_operands {s : State} {c : Cmd} {k : Nat} {v : Word} (h : Inv s) (hcs : s.cs = .operands c k v) :
    ∃ t, s.thread = .next t ∧ Inv t := by
  cases k with
  | zero => exact ⟨_, thread_operands_zero hcs, inv_operandRead h hcs⟩
  | succ k =>
    cases hr : s.rx with
    | nil => exact ⟨_, thread_operands_nil hcs hr, inv_delayUs h _⟩
    | cons b rest =>
      obtain ⟨hpins, hctl, hmem, htx, hrx⟩ := h
      obtain ⟨hsession, hV, hL, hA, hk, hv⟩ := (controlOk_operands hcs).1 hctl
      have hdigits := operandDigits_le s c
      have hpush : (hexPush v b).toNat < 16 ^ (s.operandDigits c - k) := by
        have hn : s.operandDigits c - k = s.operandDigits c - (k + 1) + 1 := by omega
        rw [hn]
        exact hexPush_lt (by omega) hv
      rw [hr, List.length_cons] at hrx
      exact ⟨_, thread_operands_digit hcs hr, hpins,
        (controlOk_operands (by rfl)).2 ⟨hsession, hV, hL, hA, Nat.le_of_succ_le hk, hpush⟩, hmem, htx,
        Nat.le_of_succ_le hrx⟩

theorem inv_thread_exec {s : State} {c : Cmd} (h : Inv s) (hcs : s.cs = .exec c) : ∃ t, s.thread = .next t ∧ Inv t := by
  obtain ⟨-, hctl, -⟩ := id h
  cases c with
  | r =>
    obtain ⟨hsession, hA, -, -⟩ := (controlOk_exec_r hcs).1 hctl
    obtain ⟨a, hA⟩ := Option.isSome_iff_exists.1 hA
    rw [thread_exec_r hcs hA]
    exact inv_exec_r (bodyReady_of_inv h hsession) a
  | w =>
    obtain ⟨hsession, hA, hV, -⟩ := (controlOk_exec_w hcs).1 hctl
    obtain ⟨a, hA⟩ := Option.isSome_iff_exists.1 hA
    obtain ⟨v, hV⟩ := Option.isSome_iff_exists.1 hV
    rw [thread_exec_w hcs hA hV]
    exact inv_exec_w (bodyReady_of_inv h hsession) a v
  | d =>
    obtain ⟨hsession, hA, -, hL⟩ := (controlOk_exec_d hcs).1 hctl
    obtain ⟨a, hA⟩ := Option.isSome_iff_exists.1 hA
    obtain ⟨l, hL⟩ := Option.isSome_iff_exists.1 hL
    rw [thread_exec_d hcs hA hL]
    exact inv_exec_d (bodyReady_of_inv h hsession) a l
  | p => simp [State.controlOk, hcs] at hctl

theorem noSession_iff {s : State} : s.noSession = true ↔ s.start = none ∧ s.maxb = none ∧ s.cursor = none ∧
    s.idx = none ∧ s.t0 = none ∧ s.inWait = false := by
  simp [State.noSession, and_assoc]

theorem inv_thread_bpInit {s : State} (h : Inv s) (hcs : s.cs = .bpInit) : ∃ t, s.thread = .next t ∧ Inv t := by
  obtain ⟨hpins, hctl, hmem, htx, hrx⟩ := h
  obtain ⟨hsession, hA, hV, hL⟩ := (controlOk_bpInit hcs).1 hctl
  obtain ⟨a, hA⟩ := Option.isSome_iff_exists.1 hA
  obtain ⟨-, -, -, hidx, -, -⟩ := noSession_iff.1 hsession
  rw [thread_of_sessionStep hcs rfl (by decide), exec_bpInit_of_opA hA]
  refine ⟨_, rfl, hpins, (controlOk_bpAwait (by rfl)).2 ⟨sessionOpen_of_sessionAt (st := a) (cur := a.toNat) ?_, ?_⟩, hmem,
    Nat.le_refl _, hrx⟩
  · exact ⟨hidx, hA, hV, hL, rfl, rfl, rfl, Nat.le_refl _, by simp, .inl rfl⟩
  · exact fun hw => nomatch hw

/-- The end of a session: no register holds a value (R46, R47). -/
theorem inv_sessionEnded {s : State} (h : Inv s) (text : List Byte) : Inv (sessionEnded s text) := by
  obtain ⟨hpins, -, hmem, htx, hrx⟩ := h
  exact ⟨hpins, rfl, hmem, txSent_le_append htx text, hrx⟩

/-- A wait of the invariant has its T0. -/
theorem exists_waitsSince {s : State} (h : s.inWait = true → s.t0.isSome = true) : ∃ t0, WaitsSince s t0 := by
  cases hw : s.inWait with
  | false => exact ⟨s.nowMs, by simp [WaitsSince, hw]⟩
  | true =>
    obtain ⟨t0, ht⟩ := Option.isSome_iff_exists.1 (h hw)
    exact ⟨t0, by simp [WaitsSince, hw, ht]⟩

theorem inv_thread_bpAwait {s : State} (h : Inv s) (hcs : s.cs = .bpAwait) : ∃ t, s.thread = .next t ∧ Inv t := by
  obtain ⟨hpins, hctl, hmem, htx, hrx⟩ := id h
  obtain ⟨hopen, hwait⟩ := (controlOk_bpAwait hcs).1 hctl
  obtain ⟨t0, hw⟩ := exists_waitsSince hwait
  rw [thread_of_sessionStep hcs rfl (by decide)]
  rcases Nat.lt_or_ge s.rx.length 16 with hlen | hlen
  · rcases Nat.lt_or_ge 60000 (s.nowMs - t0) with hx | hx
    · exact ⟨_, exec_bpAwaitChunk_timeout hw hlen hx, inv_sessionEnded h _⟩
    · have hpolled : Inv { s with t0 := some t0, inWait := true } :=
        ⟨hpins, (controlOk_bpAwait (by exact hcs)).2 ⟨hopen, fun _ => rfl⟩, hmem, htx, hrx⟩
      exact ⟨_, exec_bpAwaitChunk_sleep hw hlen hx, inv_delayUs hpolled _⟩
  · exact ⟨_, exec_bpAwaitChunk_chunk hw hlen, hpins, (controlOk_bpWrite (by rfl)).2 ⟨hopen, rfl, rfl, hlen⟩, hmem, htx, hrx⟩

theorem inv_thread_bpWrite {s : State} (h : Inv s) (hcs : s.cs = .bpWrite) : ∃ t, s.thread = .next t ∧ Inv t := by
  obtain ⟨hpins, hctl, hmem, htx, hrx⟩ := h
  obtain ⟨hsck, -, -, hbusy, -⟩ := pinsAtRest_iff.1 hpins
  obtain ⟨hopen, ht0, hwait, hlen⟩ := (controlOk_bpWrite hcs).1 hctl
  obtain ⟨st, cur, hs⟩ := exists_sessionAt hopen
  have htake : (s.rx.take 16).length = 16 := by rw [List.length_take]; omega
  rw [thread_bpWrite hcs hlen,
    exec_chunk_of_length (s := { s with rx := s.rx.drop 16 }) hs.cursor htake hsck hbusy]
  refine ⟨_, rfl, pinsAtRest_iff.2 ⟨rfl, rfl, rfl, rfl, .inr rfl⟩,
    (controlOk_bpAck (by rfl)).2 ⟨sessionOpen_of_sessionAt (st := st) (cur := cur) ?_, ht0, hwait⟩, Memory.writeAll_wf _ hmem,
    htx, (List.drop_suffix 16 s.rx).length_le.trans hrx⟩
  exact ⟨rfl, hs.opA, hs.opV, hs.opL, hs.start, hs.maxb, hs.cursor, hs.le, hs.chunks, hs.inside⟩

theorem inv_thread_bpAck {s : State} (h : Inv s) (hcs : s.cs = .bpAck) : ∃ t, s.thread = .next t ∧ Inv t := by
  obtain ⟨hpins, hctl, hmem, -, hrx⟩ := h
  rw [thread_of_sessionStep hcs rfl (by decide)]
  exact ⟨_, exec_bpAck s, hpins, (controlOk_bpAdvance (by rfl)).2 ((controlOk_bpAck hcs).1 hctl), hmem, Nat.le_refl _, hrx⟩

theorem inv_thread_bpAdvance {s : State} (h : Inv s) (hcs : s.cs = .bpAdvance) : ∃ t, s.thread = .next t ∧ Inv t := by
  obtain ⟨hpins, hctl, hmem, htx, hrx⟩ := id h
  obtain ⟨hopen, -, -⟩ := (controlOk_bpAdvance hcs).1 hctl
  obtain ⟨st, cur, hs⟩ := exists_sessionAt hopen
  obtain ⟨-, -, -, -, -, -, -, hle, hmod, -⟩ := id hs
  rw [thread_of_sessionStep hcs rfl (by decide)]
  rcases Nat.lt_or_ge st.toNat 8192 with hst | hst
  · rw [exec_bpAdvance_inRange hs.start hs.maxb hs.cursor hst]
    refine ⟨_, rfl, ?_⟩
    split
    · refine ⟨hpins, (controlOk_bpAwait (by rfl)).2 ⟨sessionOpen_of_sessionAt (st := st) (cur := cur + 16) ?_, ?_⟩, hmem, htx,
        hrx⟩
      · exact ⟨hs.idx, hs.opA, hs.opV, hs.opL, hs.start, hs.maxb, rfl, by omega, by omega, by omega⟩
      · exact fun hw => nomatch hw
    · exact inv_sessionEnded h _
  · exact ⟨_, exec_bpAdvance_completes hs.start hs.maxb hs.cursor (.inl (by omega)), inv_sessionEnded h _⟩

/-- From a state of the invariant the thread answers, and with a state of the invariant. -/
theorem inv_thread {s : State} (h : Inv s) : ∃ t, s.thread = .next t ∧ Inv t := by
  cases hcs : s.cs with
  | idle => exact inv_thread_idle h hcs
  | operands c k v => exact inv_thread_operands h hcs
  | exec c => exact inv_thread_exec h hcs
  | bpInit => exact inv_thread_bpInit h hcs
  | bpAwait => exact inv_thread_bpAwait h hcs
  | bpWrite => exact inv_thread_bpWrite h hcs
  | bpAck => exact inv_thread_bpAck h hcs
  | bpAdvance => exact inv_thread_bpAdvance h hcs

/-- Settles O45: the outside world's move, the activation and what lands each keep the invariant, and so does a reset. -/
theorem stepKeepsTheInvariant : Obligations.StepKeepsTheInvariant := by
  unfold Obligations.StepKeepsTheInvariant
  intro s t h hstep
  rcases step_next hstep with ⟨s1, w, u, henv, hthread, hland⟩ | ⟨m, rest, rfl, hm⟩
  · obtain ⟨u', hu', hinv⟩ := inv_thread (inv_environment h henv)
    obtain rfl : u' = u := Host.Outcome.next.inj (hu'.symm.trans hthread)
    exact inv_land hinv hland
  · obtain ⟨-, -, hmem, -⟩ := h
    exact inv_restart s rest (hm hmem)

/-- Settles O46: the thread answers from every state of the invariant, so only the bytes from outside can stop a step. -/
theorem stepStopsOnlyOnOverrun : Obligations.StepStopsOnlyOnOverrun := by
  unfold Obligations.StepStopsOnlyOnOverrun
  intro s h
  cases henv : s.environment with
  | restarted s1 => exact .inl ⟨s1, by simp only [step, henv]⟩
  | overrun => exact .inr (by simp only [step, henv])
  | go s1 w =>
    obtain ⟨u, hu, -⟩ := inv_thread (inv_environment h henv)
    rw [step_of_go henv, hu, andThen_next, State.land]
    split
    · exact .inl ⟨_, rfl⟩
    · exact .inr rfl

end Sys2Proof.Proofs
end

section
/-!
PROOFS. Runs of the machine: steps one after the other, and runs that reach a goal because each step brings it nearer.
-/
namespace Sys2Proof.Proofs

open Sys2Proof Sys2Proof.Machine

/-! ## Runs -/

theorem run_zero (s : State) : Host.Core.run core 0 s = .next s := rfl

theorem run_succ_of_core_step {M : Host.Core} {s t : M.State} (h : M.step s = .next t) (k : Nat) :
    M.run (k + 1) s = M.run k t := by
  rw [Host.Core.run, h]

theorem run_one_of_core (M : Host.Core) (s : M.State) : M.run 1 s = M.step s := by
  rw [Host.Core.run]
  cases M.step s <;> rfl

theorem run_succ_of_step {s t : State} (h : step s = .next t) (k : Nat) :
    Host.Core.run core (k + 1) s = Host.Core.run core k t :=
  run_succ_of_core_step (M := core) h k

theorem run_one (s : State) : Host.Core.run core 1 s = step s := run_one_of_core core s

/-- If every step from a state of `I` reaches the goal or another state of `I` of lower measure, a run reaches the goal. -/
theorem run_reaches {I Goal : State → Prop} {f : State → Nat}
    (h : ∀ s, I s → ∃ t, step s = .next t ∧ (Goal t ∨ I t ∧ f t < f s)) {s : State} (hs : I s) :
    ∃ n t, n ≤ f s + 1 ∧ Host.Core.run core n s = .next t ∧ Goal t := by
  induction hm : f s using Nat.strongRecOn generalizing s with
  | _ m ih =>
    obtain ⟨t, ht, hgoal | ⟨hI, hlt⟩⟩ := h s hs
    · exact ⟨1, t, Nat.le_add_left 1 m, (run_succ_of_step ht 0).trans (run_zero t), hgoal⟩
    · obtain ⟨n, u, hn, hrun, hgoal⟩ := ih (f t) (hm ▸ hlt) hI rfl
      exact ⟨n + 1, u, by omega, (run_succ_of_step ht n).trans hrun, hgoal⟩

/-- A step while nothing lands meanwhile is the thread's activation. -/
theorem step_of_pass {s : State} {us n : Nat} {bs : List Byte} {m : List EnvMove} (h : s.script = .pass us bs n [] :: m)
    (hroom : bs = [] ∨ s.rx.length + bs.length ≤ Config.rxCapacity) : step s = (s.pass us bs n m).thread :=
  step_of_go_nil (State.environment_pass h hroom)

/-! ## A command taken digit by digit -/

/-- A move in which nothing happens but that the script goes on. -/
theorem pass_quiet {s : State} (htx : s.txSent ≤ s.tx.length) (m : List EnvMove) :
    s.pass 0 [] 0 m = { s with script := m } := by
  simp [State.pass, State.delayUs, htx]

theorem step_quiet {s : State} {m : List EnvMove} (hscript : s.script = .quiet :: m) (htx : s.txSent ≤ s.tx.length) :
    step s = ({ s with script := m } : State).thread := by
  rw [step_of_pass hscript (.inl rfl), pass_quiet htx]

/-- The digits of an operand, one a step (R181). -/
theorem run_digits {s : State} {c : Cmd} {v : Word} {ds rest : List Byte} {m : List EnvMove} (htx : s.txSent ≤ s.tx.length)
    (hcs : s.cs = .operands c ds.length v) (hrx : s.rx = ds ++ rest)
    (hscript : s.script = List.replicate ds.length .quiet ++ m) (j : Nat) :
    Host.Core.run core (j + ds.length) s =
      Host.Core.run core j { s with rx := rest, cs := .operands c 0 (ds.foldl hexPush v), script := m } := by
  induction ds generalizing s v with
  | nil =>
    have hs : s = { s with rx := rest, cs := .operands c 0 v, script := m } := by
      change s.rx = rest at hrx
      change s.cs = .operands c 0 v at hcs
      change s.script = m at hscript
      rw [← hrx, ← hcs, ← hscript]
    exact congrArg (Host.Core.run core j) hs
  | cons d ds ih =>
    have hstep : step s = .next { s with
        rx := ds ++ rest, cs := .operands c ds.length (hexPush v d), script := List.replicate ds.length .quiet ++ m } := by
      rw [step_quiet (m := List.replicate ds.length .quiet ++ m) hscript htx, thread_operands_digit (by exact hcs) (by exact hrx)]
      rfl
    exact (run_succ_of_step hstep (j + ds.length)).trans (ih (by exact htx) rfl rfl rfl)

/-- A whole operand: its digits, then the register takes the value (R33, R47, R94). -/
theorem run_operand {s : State} {c : Cmd} {k : Nat} {ds rest : List Byte} {m : List EnvMove} (htx : s.txSent ≤ s.tx.length)
    (hlen : ds.length = k) (hcs : s.cs = .operands c k 0) (hrx : s.rx = ds ++ rest)
    (hscript : s.script = List.replicate k .quiet ++ .quiet :: m) (j : Nat) :
    Host.Core.run core (j + 1 + k) s = Host.Core.run core j
      (({ s with rx := rest, cs := .operands c 0 (hexFold ds), script := m } : State).operandRead c (hexFold ds)) := by
  subst hlen
  rw [run_digits htx hcs hrx hscript]
  refine run_succ_of_step ?_ j
  rw [step_quiet (m := m) rfl (by exact htx)]
  exact thread_operands_zero (s := { s with rx := rest, cs := .operands c 0 (hexFold ds), script := m }) rfl

/-- Settles O50: the operands that the digits build up one by one are those the decoder assembles, and a body sets the operand
registers and CS itself. -/
theorem digitByDigitEqualsWhole : Obligations.DigitByDigitEqualsWhole := by
  unfold Obligations.DigitByDigitEqualsWhole
  intro s c ds rest later hlen htx hA hcs hrx hscript
  cases c with
  | r =>
    refine (run_operand htx hlen hcs hrx hscript 1).trans ?_
    rw [run_one, step_quiet (m := later) rfl (by exact htx), thread_exec_r (a := hexFold ds) rfl rfl]
    rfl
  | p =>
    exact run_operand htx hlen hcs hrx hscript 0
  | w =>
    have haddr : (ds.take 4).length = 4 := by rw [List.length_take, hlen]; rfl
    have hval : (ds.drop 4).length = 2 := by rw [List.length_drop, hlen]; rfl
    have hsplit : s.rx = ds.take 4 ++ (ds.drop 4 ++ rest) := by rw [hrx, ← List.append_assoc, List.take_append_drop]
    refine (run_operand htx haddr hcs hsplit hscript 4).trans ?_
    rw [operandRead_w_first (by exact hA)]
    refine (run_operand (by exact htx) hval rfl rfl rfl 1).trans ?_
    rw [operandRead_w_second (by simp), run_one, step_quiet (m := later) rfl (by exact htx),
      thread_exec_w (a := hexFold (ds.take 4)) (v := hexFold8 (ds.drop 4)) rfl rfl rfl]
    rfl
  | d =>
    have haddr : (ds.take 4).length = 4 := by rw [List.length_take, hlen]; rfl
    have hcount : (ds.drop 4).length = 4 := by rw [List.length_drop, hlen]; rfl
    have hsplit : s.rx = ds.take 4 ++ (ds.drop 4 ++ rest) := by rw [hrx, ← List.append_assoc, List.take_append_drop]
    refine (run_operand htx haddr hcs hsplit hscript 6).trans ?_
    rw [operandRead_d_first (by exact hA)]
    refine (run_operand (by exact htx) hcount rfl rfl rfl 1).trans ?_
    rw [operandRead_d_second (by simp), run_one, step_quiet (m := later) rfl (by exact htx),
      thread_exec_d (a := hexFold (ds.take 4)) (l := hexFold (ds.drop 4)) rfl rfl rfl]
    rfl

/-! ## A silent host -/

/-- The outside world once its script is over: time passes and pending bytes leave (log 12). -/
def silentPass (s : State) : State :=
  { s.pass (Config.slackUs s.draws) [] (Config.leaving s.draws) [] with draws := s.draws + 1 }

@[simp] theorem silentPass_cs (s : State) : (silentPass s).cs = s.cs := rfl
@[simp] theorem silentPass_rx (s : State) : (silentPass s).rx = s.rx := List.append_nil s.rx
@[simp] theorem silentPass_tx (s : State) : (silentPass s).tx = s.tx := rfl
@[simp] theorem silentPass_txSent (s : State) :
    (silentPass s).txSent = min (s.txSent + Config.leaving s.draws) s.tx.length := rfl
@[simp] theorem silentPass_script (s : State) : (silentPass s).script = [] := rfl
@[simp] theorem silentPass_mem (s : State) : (silentPass s).mem = s.mem := rfl
@[simp] theorem silentPass_inWait (s : State) : (silentPass s).inWait = s.inWait := rfl
@[simp] theorem silentPass_t0 (s : State) : (silentPass s).t0 = s.t0 := rfl
@[simp] theorem silentPass_clockUs (s : State) : (silentPass s).clockUs = s.clockUs + Config.slackUs s.draws := rfl
@[simp] theorem silentPass_busyUs (s : State) : (silentPass s).busyUs = s.busyUs - Config.slackUs s.draws :=
  runDown_eq _ _

theorem step_silent {s : State} (h : s.script = []) : step s = (silentPass s).thread :=
  step_of_go_nil (by simp only [State.environment, h]; rfl)

/-- RX, the cells and the pins. -/
def stillOf (s : State) : List Byte × Memory × Word × Byte × Byte × Bool × Bool × Bool × Bool × Word :=
  (s.rx, s.mem, s.al, s.dir, s.dout, s.weN, s.rck, s.sck, s.ser, s.sr)

@[simp] theorem stillOf_silentPass (s : State) : stillOf (silentPass s) = stillOf s := by
  rw [stillOf, silentPass_rx]
  rfl

/-- A session that waits, since `t0`, for a chunk that a silent host does not complete; `s0` is where it began. -/
structure Polling (s0 : State) (t0 : Nat) (s : State) : Prop where
  cs : s.cs = .bpAwait
  rx : s.rx.length < 16
  script : s.script = []
  inWait : s.inWait = true
  t0 : s.t0 = some t0
  tx : s.tx = s0.tx
  still : stillOf s = stillOf s0

/-- The session that began its wait in `s0` has been timed out. -/
structure TimedOut (s0 s : State) : Prop where
  cs : s.cs = .idle
  start : s.start = none
  cursor : s.cursor = none
  tx : s.tx = s0.tx ++ Config.texts.timeout
  still : stillOf s = stillOf s0

/-- The instant, in microseconds, at which the window of a wait since `t0` is over (R212, D12). -/
def deadlineUs (t0 : Nat) : Nat := (t0 + 60001) * 1000

/-- A poll of a silent host's session: the timeout, or a sleep that brings the clock nearer to the deadline. -/
theorem poll_silent {s0 s : State} {t0 : Nat} (hcs : s.cs = .bpAwait) (hrx : s.rx.length < 16) (hscript : s.script = [])
    (hw : WaitsSince (silentPass s) t0) (htx : s.tx = s0.tx) (hstill : stillOf s = stillOf s0) :
    ∃ t, step s = .next t ∧ (TimedOut s0 t ∨ Polling s0 t0 t ∧ (silentPass s).clockUs < t.clockUs ∧
      (silentPass s).clockUs < deadlineUs t0) := by
  have hrx' : (silentPass s).rx.length < 16 := by rwa [silentPass_rx]
  have hstill' : stillOf (silentPass s) = stillOf s0 := by rwa [stillOf_silentPass]
  have htx' : (silentPass s).tx = s0.tx := by rwa [silentPass_tx]
  have hthread : (silentPass s).thread = exec .bpAwaitChunk (silentPass s) :=
    thread_of_sessionStep ((silentPass_cs s).trans hcs) rfl (by decide)
  rw [step_silent hscript, hthread]
  generalize hp : silentPass s = p at *
  have hcs' : p.cs = .bpAwait := by rw [← hp, silentPass_cs, hcs]
  have hscript' : p.script = [] := by rw [← hp, silentPass_script]
  rcases Nat.lt_or_ge 60000 (p.nowMs - t0) with hx | hx
  · exact ⟨_, exec_bpAwaitChunk_timeout hw hrx' hx, .inl ⟨rfl, rfl, rfl, congrArg (· ++ Config.texts.timeout) htx', hstill'⟩⟩
  · refine ⟨_, exec_bpAwaitChunk_sleep hw hrx' hx, .inr ⟨⟨hcs', hrx', hscript', rfl, rfl, htx', hstill'⟩, ?_, ?_⟩⟩
    · exact Nat.lt_add_of_pos_right (Nat.lt_add_right _ Nat.one_pos)
    · simp only [State.nowMs] at hx
      unfold deadlineUs
      omega

theorem le_clock_silentPass (s : State) : s.clockUs ≤ (silentPass s).clockUs := by
  rw [silentPass_clockUs]
  exact Nat.le_add_right _ _

/-- A session that polls is timed out, after at most as many steps as microseconds are left of its window. -/
theorem polling_timedOut {s0 s : State} {t0 : Nat} (h : Polling s0 t0 s) :
    ∃ n t, n ≤ deadlineUs t0 - s.clockUs + 1 ∧ Host.Core.run core n s = .next t ∧ TimedOut s0 t := by
  refine run_reaches (I := Polling s0 t0) (f := fun s => deadlineUs t0 - s.clockUs) (fun s h => ?_) h
  have hw : WaitsSince (silentPass s) t0 := by
    simp [WaitsSince, h.t0, h.inWait]
  obtain ⟨t, ht, hout | ⟨hpoll, hlt, hdead⟩⟩ := poll_silent h.cs h.rx h.script hw h.tx h.still
  · exact ⟨t, ht, .inl hout⟩
  · have hle := le_clock_silentPass s
    exact ⟨t, ht, .inr ⟨hpoll, by omega⟩⟩

/-- Settles O53: a wait that has begun ends within its window, and one that begins takes its T0 in its first poll. -/
theorem silentHostIsTimedOut : Obligations.SilentHostIsTimedOut := by
  unfold Obligations.SilentHostIsTimedOut
  intro s hcs hrx hscript hwait
  obtain ⟨n, t, hn, hrun, htimed⟩ :
      ∃ n t, n ≤ 60001001 ∧ Host.Core.run core n s = .next t ∧ TimedOut s t := by
    cases hin : s.inWait with
    | true =>
      obtain ⟨t0, ht0, hle⟩ := hwait hin
      obtain ⟨n, t, hn, hrun, htimed⟩ := polling_timedOut (s0 := s) ⟨hcs, hrx, hscript, hin, ht0, rfl, rfl⟩
      refine ⟨n, t, ?_, hrun, htimed⟩
      simp only [State.nowMs] at hle
      unfold deadlineUs at hn
      omega
    | false =>
      have hw : WaitsSince (silentPass s) (silentPass s).nowMs := by simp [WaitsSince, hin]
      obtain ⟨u, hu, htimed | ⟨hpoll, hlt, -⟩⟩ := poll_silent (s0 := s) hcs hrx hscript hw rfl rfl
      · exact ⟨1, u, by decide, (run_succ_of_step hu 0).trans (run_zero u), htimed⟩
      · obtain ⟨n, t, hn, hrun, htimed⟩ := polling_timedOut hpoll
        refine ⟨n + 1, t, ?_, (run_succ_of_step hu n).trans hrun, htimed⟩
        simp only [deadlineUs, State.nowMs] at hn
        omega
  have hstill := htimed.still
  simp only [stillOf, Prod.mk.injEq] at hstill
  exact ⟨n, t, hn, hrun, htimed.cs, htimed.start, htimed.cursor, htimed.tx, hstill⟩

/-! ## The end of a run -/

/-- Landing nothing changes nothing, in however many entries it comes. -/
theorem land_of_flatten_nil {s t : State} {w : List (List Byte)} (hdrain : s.drainAhead = false) (hw : w.flatten = []) :
    s.land w t = .next t := by
  have hfits : s.fits w t = true := by
    rw [State.fits, State.drained_eq w hdrain, State.kept_eq w hdrain, hw]
    rfl
  rw [State.land, if_pos hfits, State.kept_eq w hdrain, hw, List.append_nil]

/-- An idle block with nothing to read sleeps, whatever silent move the outside world makes. -/
theorem step_idle {s s1 : State} {w : List (List Byte)} (henv : s.environment = .go s1 w) (hcs : s1.cs = .idle)
    (hrx : s1.rx = []) (hw : w.flatten = []) : step s = .next s1.sleep := by
  have hdrain : s1.drainAhead = false := State.drainAhead_of_decode fun c rest hd => by rw [hrx] at hd; cases hd
  rw [step_of_go henv, thread_idle_nil hcs hrx, andThen_next, land_of_flatten_nil hdrain hw]

/-- A silent world's move lets nothing land, and stays silent. -/
theorem environment_go_silent {s s1 : State} {w : List (List Byte)} (hsilent : s.script.all EnvMove.silent = true)
    (henv : s.environment = .go s1 w) :
    w.flatten = [] ∧ s1.script.all EnvMove.silent = true ∧ ∃ us n d rest, s1 = { s.pass us [] n rest with draws := d } := by
  unfold State.environment at henv
  split at henv
  · cases henv
    exact ⟨rfl, rfl, _, _, _, _, rfl⟩
  · rename_i us bs n later rest hscript
    rw [hscript, List.all_cons, Bool.and_eq_true, EnvMove.silent, Bool.and_eq_true, List.isEmpty_iff,
      List.isEmpty_iff] at hsilent
    obtain ⟨⟨rfl, hflat⟩, hrest⟩ := hsilent
    split at henv
    · cases henv
      exact ⟨hflat, hrest, us, n, s.draws, rest, rfl⟩
    · cases henv
  · cases henv
  · split at henv <;> cases henv

/-- The end of a run is kept by every move but a reset. -/
theorem quiescent_step {s s1 : State} {w : List (List Byte)} (h : s.quiescent) (henv : s.environment = .go s1 w) :
    ∃ t, step s = .next t ∧ t.quiescent ∧ t.tx = s.tx ∧ t.mem = s.mem := by
  obtain ⟨hcs, hrx, hsilent, hsent, hbusy⟩ := h
  obtain ⟨hflat, hlater, us, n, d, rest, rfl⟩ := environment_go_silent hsilent henv
  refine ⟨_, step_idle henv hcs (by simp [hrx]) hflat, ⟨hcs, by simp [hrx], hlater, ?_, ?_⟩, rfl, rfl⟩
  · simp [hsent]
  · simp [State.wBusy, wBusy_eq_false_iff.1 hbusy]

/-- An idle block with nothing to read and a host that is silent for good, on its way to the end of the run from `s0`. -/
structure Settling (s0 s : State) : Prop where
  cs : s.cs = .idle
  rx : s.rx = []
  script : s.script = []
  sent : s.txSent ≤ s.tx.length
  tx : s.tx = s0.tx
  mem : s.mem = s0.mem

/-- What is left to wait for: pending output, and the write cycle. -/
def unsettled (s : State) : Nat := max (s.tx.length - s.txSent) s.busyUs

/-- Each step of a settling block ends the run, or delivers a byte and shortens the write cycle. -/
theorem settling_step {s0 s : State} (h : Settling s0 s) :
    ∃ t, step s = .next t ∧ ((t.quiescent ∧ t.tx = s0.tx ∧ t.mem = s0.mem) ∨ Settling s0 t ∧ unsettled t < unsettled s) := by
  have henv : s.environment = .go (silentPass s) [] := by simp only [State.environment, h.script]; rfl
  have hstep := step_idle henv (by simp [h.cs]) (by simp [h.rx]) rfl
  have hsettling : Settling s0 (silentPass s).sleep :=
    ⟨by simp [h.cs], by simp [h.rx], by simp, by simp, by simp [h.tx], by simp [h.mem]⟩
  have hsent : (silentPass s).sleep.txSent = min (s.txSent + (1 + Config.leavingExtra s.draws)) s.tx.length := by
    simp [Config.leaving]
  have hbusy : (silentPass s).sleep.busyUs = s.busyUs - Config.slackUs s.draws - (1 + Config.sleepExtraUs) := by
    simp [Config.pollSleepUs]
  have htx : (silentPass s).sleep.tx = s.tx := by simp
  refine ⟨_, hstep, ?_⟩
  rcases Nat.eq_zero_or_pos (unsettled s) with hz | hpos
  · refine .inl ⟨⟨hsettling.cs, hsettling.rx, by rw [hsettling.script]; rfl, ?_, wBusy_eq_false_iff.2 ?_⟩, hsettling.tx, hsettling.mem⟩
    · unfold unsettled at hz
      have := h.sent
      rw [hsent, htx]
      omega
    · unfold unsettled at hz
      rw [hbusy]
      omega
  · refine .inr ⟨hsettling, ?_⟩
    unfold unsettled at hpos ⊢
    rw [hsent, hbusy, htx]
    omega

/-- Settles O60. -/
theorem quiescentStaysQuiescent : Obligations.QuiescentStaysQuiescent := by
  unfold Obligations.QuiescentStaysQuiescent
  refine ⟨fun s s1 w => quiescent_step, fun s hcs hrx hscript hsent => ?_⟩
  obtain ⟨n, t, -, hrun, hgoal⟩ := run_reaches (f := unsettled) (fun s h => settling_step h)
    (⟨hcs, hrx, hscript, hsent, rfl, rfl⟩ : Settling s s)
  exact ⟨n, t, hrun, hgoal⟩

end Sys2Proof.Proofs
end

section
/-!
PROOFS. The stop-and-wait session (44_bulk_program.md section 3): one round of a chunk is four steps, and a session is its rounds.
-/
namespace Sys2Proof.Proofs

open Sys2Proof Sys2Proof.Machine

/-! ## One round -/

/-- A session from `st` whose control state is `c` and whose next chunk goes to `cur`, the chip ready for it. -/
structure InSession (s : State) (c : Control) (st : Word) (cur : Nat) : Prop where
  cs : s.cs = c
  start : s.start = some st
  maxb : s.maxb = some (maxbOf st)
  cursor : s.cursor = some cur
  sck : s.sck = false
  busy : s.busyUs = 0

/-- The outside world's move leaves the session where it is. -/
theorem inSession_pass {s : State} {c : Control} {st : Word} {cur : Nat} (h : InSession s c st cur) (us n : Nat)
    (bs : List Byte) (m : List EnvMove) : InSession (s.pass us bs n m) c st cur :=
  ⟨h.cs, h.start, h.maxb, h.cursor, h.sck, by simp [h.busy]⟩

/-- The chunk arrives while the block waits for it. -/
theorem await_step {s : State} {st : Word} {cur us n : Nat} {c : List Byte} {m : List EnvMove}
    (h : InSession s .bpAwait st cur) (hwait : s.inWait = true → s.t0.isSome = true) (hrx : s.rx = [])
    (hc : c.length = 16) (hscript : s.script = .pass us c n [] :: m) :
    ∃ t, step s = .next t ∧ InSession t .bpWrite st cur ∧ t.rx = c ∧ t.mem = s.mem ∧ t.tx = s.tx ∧ t.script = m := by
  have hroom : s.rx.length + c.length ≤ Config.rxCapacity := by
    rw [hrx, hc]
    exact rxCapacity_ge
  obtain ⟨t0, hw⟩ := exists_waitsSince (s := s.pass us c n m) hwait
  have hrx' : (s.pass us c n m).rx = c := by rw [State.pass_rx, hrx, List.nil_append]
  obtain ⟨hcs, hs, hm, hcur, hsck, hbusy⟩ := inSession_pass h us n c m
  rw [step_of_pass hscript (.inr hroom), thread_of_sessionStep hcs rfl (by decide)]
  exact ⟨_, exec_bpAwaitChunk_chunk hw (by rw [hrx', hc]), ⟨rfl, hs, hm, hcur, hsck, hbusy⟩, hrx', rfl, rfl, rfl⟩

/-- The chunk is written, and nothing is left in RX. -/
theorem write_step {s : State} {st : Word} {cur us n : Nat} {c : List Byte} {m : List EnvMove}
    (h : InSession s .bpWrite st cur) (hrx : s.rx = c) (hc : c.length = 16) (hscript : s.script = .pass us [] n [] :: m) :
    ∃ t, step s = .next t ∧ InSession t .bpAck st cur ∧ t.rx = [] ∧ t.mem = Memory.writeAll s.mem (chunkWrites cur c) ∧
      t.tx = s.tx ∧ t.script = m := by
  have hrx' : (s.pass us [] n m).rx = c := by rw [State.pass_rx, hrx, List.append_nil]
  obtain ⟨hcs, hs, hm, hcur, hsck, hbusy⟩ := inSession_pass h us n [] m
  have htake : c.take 16 = c := List.take_of_length_le (Nat.le_of_eq hc)
  have hdrop : c.drop 16 = [] := List.drop_of_length_le (Nat.le_of_eq hc)
  rw [step_of_pass hscript (.inl rfl), thread_bpWrite hcs (by rw [hrx', hc]), hrx', htake, hdrop,
    exec_chunk_of_length (s := { s.pass us [] n m with rx := [] }) hcur hc hsck hbusy]
  exact ⟨_, rfl, ⟨rfl, hs, hm, hcur, rfl, rfl⟩, rfl, rfl, rfl, rfl⟩

/-- The chunk is acknowledged. -/
theorem ack_step {s : State} {st : Word} {cur us n : Nat} {m : List EnvMove} (h : InSession s .bpAck st cur)
    (hrx : s.rx = []) (hscript : s.script = .pass us [] n [] :: m) :
    ∃ t, step s = .next t ∧ InSession t .bpAdvance st cur ∧ t.rx = [] ∧ t.mem = s.mem ∧ t.tx = s.tx ++ [0x06] ∧
      t.script = m := by
  have hrx' : (s.pass us [] n m).rx = [] := by rw [State.pass_rx, hrx, List.append_nil]
  obtain ⟨hcs, hs, hm, hcur, hsck, hbusy⟩ := inSession_pass h us n [] m
  rw [step_of_pass hscript (.inl rfl), thread_of_sessionStep hcs rfl (by decide), exec_bpAck]
  exact ⟨_, rfl, ⟨rfl, hs, hm, hcur, hsck, hbusy⟩, hrx', rfl, rfl, rfl⟩

/-- What an advance to `cur` leaves: the session waits for its next chunk, or has completed. -/
structure Advanced (s : State) (st : Word) (cur : Nat) (tx : List Byte) : Prop where
  goesOn : cur < 8192 → InSession s .bpAwait st cur ∧ s.inWait = false ∧ s.tx = tx
  completes : 8192 ≤ cur → s.cs = .idle ∧ s.start = none ∧ s.cursor = none ∧ s.tx = tx ++ Config.texts.done

/-- The cursor moves, and the session goes on below the chip's end. -/
theorem advance_step {s : State} {st : Word} {cur us n : Nat} {m : List EnvMove} (h : InSession s .bpAdvance st cur)
    (hst : st.toNat < 8192) (hrx : s.rx = []) (hscript : s.script = .pass us [] n [] :: m) :
    ∃ t, step s = .next t ∧ t.rx = [] ∧ t.mem = s.mem ∧ t.script = m ∧ Advanced t st (cur + 16) s.tx := by
  have hrx' : (s.pass us [] n m).rx = [] := by rw [State.pass_rx, hrx, List.append_nil]
  obtain ⟨hcs, hs, hm, hcur, hsck, hbusy⟩ := inSession_pass h us n [] m
  rw [step_of_pass hscript (.inl rfl), thread_of_sessionStep hcs rfl (by decide),
    exec_bpAdvance_inRange hs hm hcur hst]
  refine ⟨_, rfl, ?_⟩
  split
  · rename_i hlt
    exact ⟨hrx', rfl, rfl, fun _ => ⟨⟨rfl, hs, hm, rfl, hsck, hbusy⟩, rfl, rfl⟩, fun hge => absurd hlt (Nat.not_lt.2 hge)⟩
  · rename_i hge
    exact ⟨hrx', rfl, rfl, fun hlt => absurd hlt hge, fun _ => ⟨rfl, rfl, rfl, rfl⟩⟩

/-- A host's script for at least one chunk: the chunk, and three moves without a byte. -/
theorem stopAndWait_cons {c : List Byte} {cs : List (List Byte)} {m : List EnvMove} (h : StopAndWait (c :: cs) m) :
    c.length = 16 ∧ ∃ u1 n1 u2 n2 u3 n3 u4 n4 rest, m = .pass u1 c n1 [] :: .pass u2 [] n2 [] :: .pass u3 [] n3 [] ::
      .pass u4 [] n4 [] :: rest ∧ StopAndWait cs rest := by
  unfold StopAndWait at h
  split at h
  · rename_i heq
    cases heq
  · rename_i heq
    cases heq
    obtain ⟨rfl, hlen, hrest⟩ := h
    exact ⟨hlen, _, _, _, _, _, _, _, _, _, rfl, hrest⟩
  · cases h

/-- One round: a chunk in, sixteen bytes written, one byte 0x06 out, and the decision (R219). -/
theorem chunk_round {s : State} {st : Word} {cur : Nat} {c : List Byte} {cs : List (List Byte)}
    (h : InSession s .bpAwait st cur) (hwait : s.inWait = true → s.t0.isSome = true) (hst : st.toNat < 8192)
    (hrx : s.rx = []) (hscript : StopAndWait (c :: cs) s.script) :
    ∃ t, (∀ k, Host.Core.run core (k + 4) s = Host.Core.run core k t) ∧ t.rx = [] ∧
      t.mem = Memory.writeAll s.mem (chunkWrites cur c) ∧ StopAndWait cs t.script ∧
      Advanced t st (cur + 16) (s.tx ++ [0x06]) := by
  obtain ⟨hlen, u1, n1, u2, n2, u3, n3, u4, n4, rest, hm, hrest⟩ := stopAndWait_cons hscript
  obtain ⟨a, ha, hin, hrxa, hmema, htxa, hsa⟩ := await_step h hwait hrx hlen hm
  obtain ⟨b, hb, hin, hrxb, hmemb, htxb, hsb⟩ := write_step hin hrxa hlen hsa
  obtain ⟨d, hd, hin, hrxd, hmemd, htxd, hsd⟩ := ack_step hin hrxb hsb
  obtain ⟨t, ht, hrxt, hmemt, hst', hadv⟩ := advance_step hin hst hrxd hsd
  refine ⟨t, fun k => ?_, hrxt, ?_, hst' ▸ hrest, ?_⟩
  · rw [run_succ_of_step ha, run_succ_of_step hb, run_succ_of_step hd, run_succ_of_step ht]
  · rw [hmemt, hmemd, hmemb, hmema]
  · rwa [htxd, htxb, htxa] at hadv

/-! ## A session -/

/-- The state after `k` of the `n` chunks that a session from `st` at `cur` still needs, with `tx` sent before (R219, R222). -/
structure Supplied (t : State) (st : Word) (cur k n : Nat) (tx : List Byte) : Prop where
  complete : k = n → t.cs = .idle ∧ t.start = none ∧ t.cursor = none ∧
    t.tx = tx ++ List.replicate k 0x06 ++ Config.texts.done
  awaits : k < n → t.cs = .bpAwait ∧ t.start = some st ∧ t.cursor = some (cur + 16 * k) ∧ t.tx = tx ++ List.replicate k 0x06

/-- The rounds of a session, one for each chunk supplied. -/
theorem chunk_rounds {st : Word} (hst : st.toNat < 8192) (chunks : List (List Byte)) {s : State} {cur : Nat}
    (h : InSession s .bpAwait st cur) (hwait : s.inWait = true → s.t0.isSome = true) (hcur : cur < 8192) (hrx : s.rx = [])
    (hscript : StopAndWait chunks s.script) (hn : chunks.length ≤ (8192 - cur + 15) / 16) :
    ∃ t, Host.Core.run core (4 * chunks.length) s = .next t ∧ t.rx = [] ∧
      t.mem = Memory.writeAll s.mem (chunkWrites cur chunks.flatten) ∧
      Supplied t st cur chunks.length ((8192 - cur + 15) / 16) s.tx := by
  induction chunks generalizing s cur with
  | nil =>
    refine ⟨s, rfl, hrx, rfl, fun hz => ?_, fun _ => ⟨h.cs, h.start, h.cursor, (List.append_nil _).symm⟩⟩
    simp only [List.length_nil] at hz
    omega
  | cons c cs ih =>
    obtain ⟨hlen, -⟩ := stopAndWait_cons hscript
    obtain ⟨u, hrun, hrxu, hmemu, hscriptu, hadv⟩ := chunk_round h hwait hst hrx hscript
    have hmem : ∀ {v : Memory}, v = Memory.writeAll u.mem (chunkWrites (cur + 16) cs.flatten) →
        v = Memory.writeAll s.mem (chunkWrites cur (c :: cs).flatten) := by
      rintro v rfl
      rw [List.flatten_cons, chunkWrites_append, hlen, writeAll_append, hmemu]
    have hacks : ∀ k, s.tx ++ [0x06] ++ List.replicate k (0x06 : Byte) = s.tx ++ List.replicate (k + 1) 0x06 := by
      intro k
      rw [List.append_assoc, List.replicate_succ, List.singleton_append]
    rw [List.length_cons] at hn ⊢
    rcases Nat.lt_or_ge (cur + 16) 8192 with hlt | hge
    · obtain ⟨hin, hwaitu, htxu⟩ := hadv.goesOn hlt
      have hcount : (8192 - cur + 15) / 16 = (8192 - (cur + 16) + 15) / 16 + 1 := by omega
      obtain ⟨t, ht, hrxt, hmemt, hdone, hmore⟩ :=
        ih hin (fun hw => nomatch hwaitu.symm.trans hw) hlt hrxu hscriptu (by omega)
      rw [htxu, hacks] at hdone hmore
      refine ⟨t, (hrun (4 * cs.length)).trans ht, hrxt, hmem hmemt, fun hk => hdone (by omega), fun hk => ?_⟩
      rw [Nat.mul_add, Nat.add_comm (16 * cs.length), ← Nat.add_assoc]
      exact hmore (by omega)
    · have hone : (8192 - cur + 15) / 16 = 1 := by omega
      obtain rfl : cs = [] := List.length_eq_zero_iff.1 (by omega)
      obtain ⟨hcs, hstart, hcursor, htx⟩ := hadv.completes hge
      refine ⟨u, hrun 0, hrxu, hmem rfl, fun _ => ⟨hcs, hstart, hcursor, htx⟩, fun hk => ?_⟩
      rw [hone] at hk
      cases hk.ne rfl

/-- Settles O52: a session of the invariant that waits stands inside the chip, so at least one chunk is still needed. -/
theorem stopAndWaitSession : Obligations.StopAndWaitSession := by
  unfold Obligations.StopAndWaitSession
  intro s st cur chunks hinv hcs hstart hst hcursor hrx hscript hn
  obtain ⟨hpins, hctl, -⟩ := hinv
  obtain ⟨hsck, -, -, hbusy, -⟩ := pinsAtRest_iff.1 hpins
  obtain ⟨hopen, hwait⟩ := (controlOk_bpAwait hcs).1 hctl
  obtain ⟨st', cur', hs⟩ := exists_sessionAt hopen
  obtain rfl : st' = st := Option.some.inj (hs.start.symm.trans hstart)
  obtain rfl : cur' = cur := Option.some.inj (hs.cursor.symm.trans hcursor)
  have hinside := hs.inside
  obtain ⟨t, hrun, hrxt, hmem, hdone, hmore⟩ := chunk_rounds hst chunks (s := s) (cur := cur')
    ⟨hcs, hstart, hs.maxb, hcursor, hsck, hbusy⟩ hwait (by omega) hrx hscript hn
  exact ⟨t, hrun, hrxt, hmem, hdone, hmore⟩

end Sys2Proof.Proofs
end

section
/-!
PROOFS. What stops a step, and what a reset leaves: bytes without room in RX (70_reset_and_hazards.md R302), a reset between
operations and inside the writes of one (R290, 20_memory.md R70).
-/
namespace Sys2Proof.Proofs

open Sys2Proof Sys2Proof.Machine

/-! ## Bytes without room -/

/-- Bytes at the start of a step that RX cannot hold. -/
theorem step_overrun {s : State} (h : s.environment = .overrun) : step s = .refused .inputOverrun := by
  simp only [step, h]

theorem hasRoom_eq_false {s : State} {bs : List Byte} (hne : bs ≠ []) (hcap : Config.rxCapacity < s.rx.length + bs.length) :
    s.hasRoom bs = false := by
  rw [Bool.eq_false_iff, ne_eq, State.hasRoom_iff]
  rintro (hbs | hle)
  · exact hne hbs
  · omega

/-- A kept byte that comes while RX is full. -/
theorem land_refused_of_kept {s t : State} {w : List (List Byte)} {k : Nat} (hk : k < (s.kept w).length)
    (hne : ((s.kept w).take (k + 1)).flatten ≠ [])
    (hcap : Config.rxCapacity < s.occupancy t k + ((s.kept w).take (k + 1)).flatten.length) :
    s.land w t = .refused .inputOverrun := by
  have hflat : (s.kept w).flatten ≠ [] := by
    intro hnil
    have hsub := (List.take_sublist (k + 1) (s.kept w)).flatten
    rw [hnil] at hsub
    exact hne (List.sublist_nil.1 hsub)
  rw [State.land, if_neg]
  rw [State.fits, Bool.and_eq_true]
  rintro ⟨-, hroom⟩
  rcases Bool.or_eq_true _ _ ▸ hroom with hempty | hall
  · exact hflat (List.isEmpty_iff.1 hempty)
  · have hle := of_decide_eq_true (List.all_eq_true.1 hall k (List.mem_range.2 hk))
    omega

/-- A byte that a RESYNC would drain comes while RX is full. -/
theorem land_refused_of_drained {s t : State} {w : List (List Byte)} (hne : s.drained w ≠ [])
    (hcap : Config.rxCapacity < s.rx.length - 1 + (s.drained w).length) : s.land w t = .refused .inputOverrun := by
  rw [State.land, if_neg]
  rw [State.fits, Bool.and_eq_true, Bool.or_eq_true]
  rintro ⟨hempty | hle, -⟩
  · exact hne (List.isEmpty_iff.1 hempty)
  · have hle := of_decide_eq_true hle
    omega

/-- Settles O57. -/
theorem overrunIsRefused : Obligations.OverrunIsRefused := by
  unfold Obligations.OverrunIsRefused
  refine ⟨fun s us n bs w later hscript hne hcap => ?start,
    fun s us n k cur bs w later hscript hroom hcs hcur hlen hsck hbusy hk hkw hcap => ?chunk,
    fun s us n c bs rest d e later hscript hroom hcs hdec hcap => ?resync⟩
  case start =>
    have hfull := hasRoom_eq_false hne hcap
    refine step_overrun ?_
    rcases hscript with hscript | hscript
    · simp only [State.environment, hscript, hfull, Bool.false_eq_true, if_false]
    · simp only [State.environment, hscript, hfull, Bool.false_eq_true, if_false]
  case chunk =>
    have hrx : (s.pass us bs n later).rx.length = s.rx.length + bs.length := by simp
    have htake : ((s.pass us bs n later).rx.take 16).length = 16 := by rw [List.length_take]; omega
    have hkept : (s.pass us bs n later).kept w = w := State.kept_eq w (State.drainAhead_of_cs (by simp [hcs]))
    rw [step_of_go (State.environment_pass hscript (.inr hroom)), thread_bpWrite (s := s.pass us bs n later) hcs (by omega),
      exec_chunk_of_length (s := { s.pass us bs n later with rx := (s.pass us bs n later).rx.drop 16 }) hcur htake hsck
        (by simp [wBusy_eq_false_iff.1 hbusy]), andThen_next]
    refine land_refused_of_kept (k := k) (by rwa [hkept]) ?_ ?_
    · rw [hkept]
      intro hnil
      rw [hnil, List.length_nil] at hcap
      omega
    · rw [hkept, State.occupancy, if_pos (by exact hcs), hrx]
      omega
  case resync =>
    have hdrain : (s.pass us bs n later).drainAhead = true := State.drainAhead_iff.2 ⟨hcs, c, rest, hdec⟩
    have hdrained : (s.pass us bs n later).drained (d :: e) = d := by simp [State.drained, hdrain]
    have hkept : (s.pass us bs n later).kept (d :: e) = e := by simp [State.kept, hdrain]
    rw [step_of_go (State.environment_pass hscript (.inr hroom)), thread_of_decode_command (s := s.pass us bs n later) hcs hdec, exec_resync,
      andThen_next]
    rcases hcap with ⟨hne, hcap⟩ | hcap
    · refine land_refused_of_drained (by rwa [hdrained]) ?_
      rwa [hdrained, State.pass_rx, rx_of_decode_resync hdec, List.length_cons, Nat.add_sub_cancel]
    · have he : 0 < e.length := by
        cases e with
        | nil => simp at hcap
        | cons x xs => simp
      have hlast : e.take (e.length - 1 + 1) = e := List.take_of_length_le (by omega)
      refine land_refused_of_kept (k := e.length - 1) (by rw [hkept]; omega) ?_ ?_
      · rw [hkept, hlast]
        rintro hnil
        rw [hnil, List.length_nil] at hcap
        omega
      · rw [hkept, hlast]
        omega

/-! ## A reset between operations -/

/-- With WE_N high and no write cycle going on a reset leaves every cell (R290). -/
theorem memAtReset_of_idle {s : State} (hweN : s.weN = true) (hbusy : s.wBusy = false) : s.memAtReset = s.mem := by
  simp [State.memAtReset, hweN, hbusy]

/-- Settles O58. -/
theorem resetKeepsTheChip : Obligations.ResetKeepsTheChip := by
  unfold Obligations.ResetKeepsTheChip
  intro s later hscript hweN hbusy
  refine ⟨s.draws + 2, ?_⟩
  simp only [step, State.environment, hscript, State.restart, memAtReset_of_idle hweN hbusy]

/-! ## A reset inside a write -/

/-- What a reset finds between two writes: SCK low, WE_N high, no write cycle going on. -/
structure BetweenWrites (s : State) : Prop where
  sck : s.sck = false
  weN : s.weN = true
  busy : s.busyUs = 0

theorem memAtReset_between {s : State} (h : BetweenWrites s) : s.memAtReset = s.mem :=
  memAtReset_of_idle h.weN (wBusy_eq_false_iff.2 h.busy)

/-- The line writes and waits of one byte, the inter-byte delay included (R162, R213). -/
def byteEvents (w : Word × Byte) : List PinEvent := writeEEPROMEvents w.1 w.2 ++ [.wait Config.interByteUs]

theorem length_byteEvents (w : Word × Byte) : (byteEvents w).length = 71 := rfl

theorem length_writeEEPROMEvents (a : Word) (v : Byte) : (writeEEPROMEvents a v).length = 70 := rfl

theorem length_setupEvents (a : Word) (v : Byte) : (setupEvents a v).length = 66 := rfl

/-- The pulse of a byte, its settle delay and the inter-byte delay. -/
def strobeEvents : List PinEvent := pulseEvents ++ [.wait (Config.settleMs * 1000), .wait Config.interByteUs]

theorem byteEvents_eq (w : Word × Byte) : byteEvents w = setupEvents w.1 w.2 ++ strobeEvents := by
  rw [byteEvents, writeEEPROMEvents_eq, List.append_assoc, List.append_assoc]
  rfl

theorem mem_strobeEvents {e : PinEvent} (h : e ∈ strobeEvents) : (∃ b, e = .weN b) ∨ ∃ us, e = .wait us := by
  simp only [strobeEvents, pulseEvents, List.cons_append, List.nil_append, List.mem_cons, List.not_mem_nil, or_false] at h
  rcases h with rfl | rfl | rfl | rfl | rfl <;> simp

theorem betweenWrites_delayUs {s : State} (h : BetweenWrites s) (n : Nat) : BetweenWrites (s.delayUs n) :=
  ⟨h.sck, h.weN, by simp [h.busy]⟩

/-- A write with its settle delay: its cell is written, and the chip is ready for the next. -/
theorem pins_writeEEPROMEvents {s : State} (h : BetweenWrites s) (a : Word) (v : Byte) :
    BetweenWrites (s.pins (writeEEPROMEvents a v)) ∧ (s.pins (writeEEPROMEvents a v)).mem = Memory.writeAt s.mem a v := by
  rw [Host.Outcome.next.inj ((writeEEPROM_eq_pins h.sck h.busy a v).symm.trans (writeEEPROM_eq h.sck h.busy a v))]
  exact ⟨⟨rfl, rfl, rfl⟩, rfl⟩

/-- A whole byte, the inter-byte delay included. -/
theorem pins_byteEvents {s : State} (h : BetweenWrites s) (w : Word × Byte) :
    BetweenWrites (s.pins (byteEvents w)) ∧ (s.pins (byteEvents w)).mem = Memory.writeAt s.mem w.1 w.2 := by
  obtain ⟨hnext, hmem⟩ := pins_writeEEPROMEvents h w.1 w.2
  rw [byteEvents, State.pins_append]
  exact ⟨betweenWrites_delayUs hnext _, hmem⟩

/-- The bytes before the cut are all written. -/
theorem pins_flatMap_byteEvents {s : State} (h : BetweenWrites s) (ws : List (Word × Byte)) :
    BetweenWrites (s.pins (ws.flatMap byteEvents)) ∧
      (s.pins (ws.flatMap byteEvents)).mem = Memory.writeAll s.mem ws := by
  induction ws generalizing s with
  | nil => exact ⟨h, rfl⟩
  | cons w ws ih =>
    obtain ⟨hnext, hmem⟩ := pins_byteEvents h w
    obtain ⟨hlast, hall⟩ := ih hnext
    rw [List.flatMap_cons, State.pins_append]
    exact ⟨hlast, by rw [hall, hmem]; rfl⟩

/-- Setup events move neither WE_N nor the cells nor the write cycle. -/
theorem pin_write_of_mem_setupEvents {a : Word} {v : Byte} {e : PinEvent} (h : e ∈ setupEvents a v) (s : State) :
    ((s.pin e).weN, (s.pin e).busyUs, (s.pin e).mem) = (s.weN, s.busyUs, s.mem) := by
  simp only [setupEvents, setBusDirEvents, writeByteEvents, List.mem_append, List.mem_map] at h
  rcases h with ⟨i, -, rfl⟩ | h | ⟨i, -, rfl⟩
  · rfl
  · have hchain := setAddressEvents_chain a e h
    cases e with
    | ser b => rfl
    | sck b => rfl
    | rck b => rfl
    | _ => cases hchain
  · rfl

/-- What every event of a list keeps is kept by the list. -/
theorem pins_keep {α : Type} {f : State → α} {es : List PinEvent} (hf : ∀ e ∈ es, ∀ s : State, f (s.pin e) = f s)
    (s : State) : f (s.pins es) = f s := by
  induction es generalizing s with
  | nil => rfl
  | cons e es ih =>
    rw [State.pins_cons, ih fun x hx => hf x (List.mem_cons_of_mem e hx), hf e (List.mem_cons_self ..)]

/-- What a reset after the first `r` events of the byte `w` leaves in the cells (R290): the cell is as before up to the pulse
and holds its byte after the settle delay, every other cell is as before. -/
structure CutInsideByte (m m' : Memory) (w : Word × Byte) (r : Nat) : Prop where
  before : r ≤ 66 → m' = m
  after : 70 ≤ r → m' = Memory.writeAt m w.1 w.2
  others : ∀ d, Config.cell w.1 ≠ some d → Memory.cell m' d = Memory.cell m d

/-- Before the pulse. -/
theorem cut_before_pulse {s : State} (h : BetweenWrites s) (w : Word × Byte) {r : Nat} (hr : r ≤ 66) :
    (s.pins ((byteEvents w).take r)).memAtReset = s.mem := by
  have htake : (byteEvents w).take r = (setupEvents w.1 w.2).take r := by
    rw [byteEvents_eq, List.take_append_of_le_length (by rwa [length_setupEvents])]
  have hkeep := pins_keep (f := fun s => (s.weN, s.busyUs, s.mem)) (es := (setupEvents w.1 w.2).take r)
    (fun e he => pin_write_of_mem_setupEvents (List.mem_of_mem_take he)) s
  simp only [Prod.mk.injEq] at hkeep
  obtain ⟨hweN, hbusy, hmem⟩ := hkeep
  rw [htake, memAtReset_of_idle (hweN.trans h.weN) (wBusy_eq_false_iff.2 (hbusy.trans h.busy)), hmem]

theorem take_byteEvents_after (w : Word × Byte) {r : Nat} (hr : 70 ≤ r) :
    (byteEvents w).take r = writeEEPROMEvents w.1 w.2 ++ [.wait Config.interByteUs].take (r - 70) := by
  rw [byteEvents, List.take_append, List.take_of_length_le (Nat.le_trans (Nat.le_of_eq (length_writeEEPROMEvents ..)) hr),
    length_writeEEPROMEvents]

/-- Waits keep the chip between two writes. -/
theorem betweenWrites_waits {s : State} (h : BetweenWrites s) (us n : Nat) :
    BetweenWrites (s.pins ([.wait us].take n)) ∧ (s.pins ([.wait us].take n)).mem = s.mem := by
  cases n with
  | zero => exact ⟨h, rfl⟩
  | succ n =>
    rw [List.take_succ_cons, List.take_nil]
    exact ⟨betweenWrites_delayUs h us, rfl⟩

/-- After the settle delay. -/
theorem cut_after_settle {s : State} (h : BetweenWrites s) (w : Word × Byte) {r : Nat} (hr : 70 ≤ r) :
    (s.pins ((byteEvents w).take r)).memAtReset = Memory.writeAt s.mem w.1 w.2 := by
  obtain ⟨hnext, hmem⟩ := pins_writeEEPROMEvents h w.1 w.2
  obtain ⟨hwaited, hkept⟩ := betweenWrites_waits hnext Config.interByteUs (r - 70)
  rw [take_byteEvents_after w hr, State.pins_append, memAtReset_between hwaited, hkept, hmem]

/-- The address `a` is presented, a write cycle that is going on is its own, and no other cell differs from `m`. -/
structure WritesOnly (m : Memory) (a : Word) (s : State) : Prop where
  al : s.al = a
  busy : s.busyUs ≠ 0 → s.busyAt = a
  cells : ∀ d, Config.cell a ≠ some d → Memory.cell s.mem d = Memory.cell m d

/-- An edge of WE_N writes to the presented address only, and time begins no write cycle (R160, R41). -/
theorem writesOnly_pin {m : Memory} {a : Word} {s : State} (h : WritesOnly m a s) {e : PinEvent}
    (he : (∃ b, e = .weN b) ∨ ∃ us, e = .wait us) : WritesOnly m a (s.pin e) := by
  obtain ⟨hal, hbusy, hcells⟩ := h
  rcases he with ⟨b, rfl⟩ | ⟨us, rfl⟩
  · simp only [State.pin]
    split
    · refine ⟨hal, fun _ => hal, fun d hd => ?_⟩
      rw [← hcells d hd]
      exact (Memory.cell_writeAt s.mem s.al s.busLevel d).trans (if_neg (hal ▸ hd))
    · exact ⟨hal, hbusy, hcells⟩
  · refine ⟨hal, fun hb => hbusy fun hz => hb ?_, hcells⟩
    rw [State.pin, State.delayUs_busyUs, runDown_eq, hz, Nat.zero_sub]

theorem writesOnly_pins {m : Memory} {a : Word} {es : List PinEvent}
    (he : ∀ e ∈ es, (∃ b, e = .weN b) ∨ ∃ us, e = .wait us) {s : State} (h : WritesOnly m a s) :
    WritesOnly m a (s.pins es) := by
  induction es generalizing s with
  | nil => exact h
  | cons e es ih =>
    exact ih (fun x hx => he x (List.mem_cons_of_mem e hx)) (writesOnly_pin h (he e (List.mem_cons_self ..)))

/-- Once the address is presented a reset can touch its cell only. -/
theorem cut_after_setup {s : State} (h : BetweenWrites s) (w : Word × Byte) {r : Nat} (hr : 66 ≤ r) {d : Nat}
    (hd : Config.cell w.1 ≠ some d) :
    Memory.cell (s.pins ((byteEvents w).take r)).memAtReset d = Memory.cell s.mem d := by
  have hstart : WritesOnly s.mem w.1 (strobeStart s w.1 w.2) := ⟨rfl, fun hb => absurd h.busy hb, fun _ _ => rfl⟩
  rw [byteEvents_eq, List.take_append, List.take_of_length_le (by rwa [length_setupEvents]), State.pins_append,
    pins_setupEvents h.sck]
  have hcut := writesOnly_pins (es := strobeEvents.take (r - (setupEvents w.1 w.2).length))
    (fun e he => mem_strobeEvents (List.mem_of_mem_take he)) hstart
  generalize (strobeStart s w.1 w.2).pins _ = p at hcut ⊢
  obtain ⟨hal, hbusy, hcells⟩ := hcut
  have hbusyAt : p.wBusy = true → Config.cell p.busyAt ≠ some d := by
    intro hb
    rwa [hbusy (wBusy_eq_true_iff.1 hb)]
  rw [State.cell_memAtReset hbusyAt (fun _ => by rwa [hal]), hcells d hd]

/-- A reset inside the writes of one byte. -/
theorem cutInsideByte {s : State} (h : BetweenWrites s) (w : Word × Byte) (r : Nat) :
    CutInsideByte s.mem (s.pins ((byteEvents w).take r)).memAtReset w r := by
  refine ⟨cut_before_pulse h w, cut_after_settle h w, fun d hd => ?_⟩
  rcases Nat.le_total r 66 with hr | hr
  · rw [cut_before_pulse h w hr]
  · exact cut_after_setup h w hr hd

/-! ## A reset inside a chunk or a `W` -/

/-- The first `e` events of a run of bytes: whole bytes, and a part of the next. -/
theorem take_flatMap_byteEvents {ws : List (Word × Byte)} {e : Nat} (he : e < ws.length * 71) :
    ∃ w, ws[e / 71]? = some w ∧
      (ws.flatMap byteEvents).take e = (ws.take (e / 71)).flatMap byteEvents ++ (byteEvents w).take (e % 71) := by
  induction ws generalizing e with
  | nil => simp at he
  | cons w ws ih =>
    rcases Nat.lt_or_ge e 71 with hlt | hge
    · refine ⟨w, ?_, ?_⟩
      · rw [Nat.div_eq_of_lt hlt]
        rfl
      · rw [Nat.div_eq_of_lt hlt, Nat.mod_eq_of_lt hlt, List.flatMap_cons,
          List.take_append_of_le_length (Nat.le_of_lt hlt)]
        rfl
    · obtain ⟨j, rfl⟩ := Nat.exists_eq_add_of_le' hge
      rw [List.length_cons] at he
      obtain ⟨x, hx, htake⟩ := ih (e := j) (by omega)
      have hdiv : (j + 71) / 71 = j / 71 + 1 := by omega
      have hmod : (j + 71) % 71 = j % 71 := by omega
      refine ⟨x, by rwa [hdiv], ?_⟩
      rw [hdiv, hmod, List.flatMap_cons, List.take_append, length_byteEvents, Nat.add_sub_cancel,
        List.take_of_length_le (by rw [length_byteEvents]; omega), htake, List.take_succ_cons, List.flatMap_cons,
        List.append_assoc]

theorem eventsAhead_eq (s : State) : s.eventsAhead = s.writesAhead.flatMap byteEvents := rfl

/-- A reset inside a run of bytes leaves the whole bytes before it, and one byte as the reset cut it. -/
theorem memCut_of_writesAhead {s : State} (h : BetweenWrites s) {ws : List (Word × Byte)} (hws : s.writesAhead = ws) {e : Nat}
    (he : e < ws.length * 71) : ∃ w, ws[e / 71]? = some w ∧
      CutInsideByte (Memory.writeAll s.mem (ws.take (e / 71))) (s.memCut e) w (e % 71) := by
  obtain ⟨w, hw, htake⟩ := take_flatMap_byteEvents he
  obtain ⟨hbetween, hmem⟩ := pins_flatMap_byteEvents h (ws.take (e / 71))
  refine ⟨w, hw, ?_⟩
  rw [State.memCut, eventsAhead_eq, hws, htake, State.pins_append, ← hmem]
  exact cutInsideByte hbetween w (e % 71)

theorem writesAhead_chunk {s : State} {cur : Nat} (hcs : s.cs = .bpWrite) (hcur : s.cursor = some cur)
    (hlen : 16 ≤ s.rx.length) : s.writesAhead = chunkWrites cur (s.rx.take 16) := by
  simp only [State.writesAhead, State.fetch, hcs, decode_bulk_of_length hlen, hcur]
  rfl

theorem writesAhead_w {s : State} {a : Word} {v : Byte}
    (h : (s.cs = .idle ∧ ∃ rest, decode .command s.rx = .ok (.w a v, rest)) ∨
      s.cs = .exec .w ∧ s.opA = some a ∧ s.opV = some v) : s.writesAhead = [(a, v)] := by
  rcases h with ⟨hcs, rest, hd⟩ | ⟨hcs, hA, hV⟩
  · simp only [State.writesAhead, State.fetch, hcs, hd]
  · simp only [State.writesAhead, State.fetch, hcs, State.bodyOf, Fetched.need, hA, hV]

theorem getElem?_chunkWrites (cur : Nat) (bs : List Byte) (k : Nat) :
    (chunkWrites cur bs)[k]? = bs[k]?.map fun b => (trunc16 (cur + k), b) := by
  simp [chunkWrites, Function.comp_def]

theorem chunkWrites_take (cur : Nat) (bs : List Byte) (k : Nat) : (chunkWrites cur bs).take k = chunkWrites cur (bs.take k) := by
  refine List.ext_getElem? fun i => ?_
  rw [List.getElem?_take, getElem?_chunkWrites, getElem?_chunkWrites, List.getElem?_take]
  split <;> rfl

/-- A step in which a reset falls inside the next activation's writes. -/
theorem step_resetWithin {s : State} {us e : Nat} {bs : List Byte} {later : List EnvMove}
    (hscript : s.script = .resetWithin us bs e :: later) (hroom : s.rx.length + bs.length ≤ Config.rxCapacity) :
    step s = .next (s.restart ((s.pass us bs 0 later).memCut e) later) := by
  simp only [step, State.environment, hscript, if_pos (State.hasRoom_iff.2 (.inr hroom))]

theorem betweenWrites_pass {s : State} (hsck : s.sck = false) (hweN : s.weN = true) (hbusy : s.wBusy = false) (us n : Nat)
    (bs : List Byte) (m : List EnvMove) : BetweenWrites (s.pass us bs n m) :=
  ⟨hsck, hweN, by simp [wBusy_eq_false_iff.1 hbusy]⟩

/-- Settles O59. -/
theorem resetInsideChunkLeavesAPrefix : Obligations.ResetInsideChunkLeavesAPrefix := by
  unfold Obligations.ResetInsideChunkLeavesAPrefix
  refine ⟨fun s cur us e bs later hscript hroom he hcs hcur hlen hchip hsck hweN hbusy => ?chunk,
    fun s a v c us e bs rest later hscript hroom hw hcell hsck hweN hbusy => ?byte⟩
  case chunk =>
    have hbetween := betweenWrites_pass hsck hweN hbusy us 0 bs later
    have hws := writesAhead_chunk (s := s.pass us bs 0 later) hcs hcur (by simpa using hlen)
    have hlen16 : ((s.rx ++ bs).take 16).length = 16 := by rw [List.length_take, List.length_append]; omega
    have hq : e / 71 < 16 := by omega
    obtain ⟨w, hget, hcut⟩ := memCut_of_writesAhead hbetween hws (e := e) (by simpa [chunkWrites, hlen16] using he)
    rw [State.pass_rx] at hget hcut
    rw [State.pass_mem, chunkWrites_take, List.take_take, Nat.min_eq_left (Nat.le_of_lt hq)] at hcut
    rw [getElem?_chunkWrites, List.getElem?_take_of_lt hq] at hget
    obtain ⟨b, hb, rfl⟩ := Option.map_eq_some_iff.1 hget
    have hcellw : Config.cell (trunc16 (cur + e / 71)) = some (cur + e / 71) := cell_trunc16 (by omega)
    have hlenq : ((s.rx ++ bs).take (e / 71)).length = e / 71 := by rw [List.length_take, List.length_append]; omega
    have hwhole := cell_writeAll_chunkWrites s.mem (cur := cur) (bs := (s.rx ++ bs).take (e / 71)) (by omega)
    obtain ⟨hbefore, hafter, hothers⟩ := hcut
    refine ⟨_, step_resetWithin hscript hroom, rfl, fun k hk => ?_, fun hr => ?_, fun hr => ?_, fun d hd => ?_⟩
    · refine (congrArg some (hothers (cur + k) (by rw [hcellw]; simp; omega))).trans ?_
      rw [hwhole, if_pos (Nat.le_add_right _ _), Nat.add_sub_cancel_left, List.getElem?_take_of_lt hk,
        List.getElem?_eq_getElem (by rw [List.length_append]; omega), Option.getD_some]
    · refine (congrArg (Memory.cell · _) (hbefore hr)).trans ?_
      rw [hwhole, if_pos (Nat.le_add_right _ _), Nat.add_sub_cancel_left, List.getElem?_eq_none (by omega), Option.getD_none]
    · refine (congrArg (fun m => some (Memory.cell m _)) (hafter (Nat.le_of_eq hr.symm))).trans ?_
      rw [Memory.cell_writeAt, if_pos hcellw, hb]
    · refine (hothers d (by rw [hcellw]; simp; omega)).trans ?_
      rw [hwhole]
      split
      · rw [List.getElem?_eq_none (by omega), Option.getD_none]
      · rfl
  case byte =>
    have hbetween := betweenWrites_pass hsck hweN hbusy us 0 bs later
    have hws : (s.pass us bs 0 later).writesAhead = [(a, v)] := by
      refine writesAhead_w ?_
      rcases hw with ⟨hcs, hd⟩ | hbody
      · exact .inl ⟨hcs, rest, hd⟩
      · exact .inr hbody
    have hcut := cutInsideByte hbetween (a, v) e
    have hmemCut : (s.pass us bs 0 later).memCut e = ((s.pass us bs 0 later).pins ((byteEvents (a, v)).take e)).memAtReset := by
      rw [State.memCut, eventsAhead_eq, hws, List.flatMap_singleton]
    rw [← hmemCut, State.pass_mem] at hcut
    obtain ⟨hbefore, hafter, hothers⟩ := hcut
    refine ⟨_, step_resetWithin hscript hroom, rfl, fun hr => ?_, fun hr => ?_, fun d hd => hothers d ?_⟩
    · exact congrArg (Memory.cell · c) (hbefore hr)
    · refine (congrArg (Memory.cell · c) (hafter hr)).trans ?_
      rw [Memory.cell_writeAt, if_pos hcell]
    · rw [hcell]
      simpa using Ne.symm hd

end Sys2Proof.Proofs
end
